-- ==== Sys2Proof/Word.lean ====
section
/-! DEFINITION. The word types of the block and its operand value types: wire words, slots, `CanFrame` (R42 to R47),
the seven wire words (R90, R91), the sixteen serialized bytes (R98), the ring-buffer selector (R100) and the two
request formats (R113). Plain data only. -/

namespace Sys2Proof

/-- One byte of a ring-buffer storage or of a payload (R68). -/
abbrev Byte := BitVec 8

/-- One wire word, `WORD_W = 16` (R7, R90). -/
abbrev Word := BitVec 16

/-- A slot identifier (R47), opaque to the block (R73), in the byte that `SER16` gives it (R98). A build has `SLOT_W` of
its bits (R7, D14); `Machine.fitSlot` is the value those bits carry (log entry 17). -/
abbrev Slot := BitVec 8

/-- `frame_kind` (R44). -/
inductive FrameKind
  | standard
  | extended
deriving DecidableEq, Repr, Inhabited

/-- `payload_kind` (R44). -/
inductive PayloadKind
  | data
  | remoteRequest
deriving DecidableEq, Repr, Inhabited

/-- `data`: always eight byte positions, `data[0]` to `data[7]` (R45). -/
structure Payload where
  b0 : Byte
  b1 : Byte
  b2 : Byte
  b3 : Byte
  b4 : Byte
  b5 : Byte
  b6 : Byte
  b7 : Byte
deriving DecidableEq, Repr, Inhabited

/-- `CanFrame`, a value copied at each hand-over (R42): `identifier` 29 bits (R43), `valid_length` 4 bits (R46),
`hardware_slot` (R47). -/
structure CanFrame where
  identifier : BitVec 29
  frameKind : FrameKind
  payloadKind : PayloadKind
  data : Payload
  validLength : BitVec 4
  hardwareSlot : Slot
deriving DecidableEq, Repr, Inhabited

/-- `WIRE7`: the seven 16-bit wire words of one frame, word 0 first (R90, R91). -/
structure WireWords where
  w0 : Word
  w1 : Word
  w2 : Word
  w3 : Word
  w4 : Word
  w5 : Word
  w6 : Word
deriving DecidableEq, Repr, Inhabited

/-- `SER16`: the sixteen bytes of one serialized frame, byte 0 first (R98). -/
structure Ser16 where
  b0 : Byte
  b1 : Byte
  b2 : Byte
  b3 : Byte
  b4 : Byte
  b5 : Byte
  b6 : Byte
  b7 : Byte
  b8 : Byte
  b9 : Byte
  b10 : Byte
  b11 : Byte
  b12 : Byte
  b13 : Byte
  b14 : Byte
  b15 : Byte
deriving DecidableEq, Repr, Inhabited

/-- The operand `q` of the component-level `RB.*` operations: which ring buffer (R100). -/
inductive QSel
  | tx
  | rx
deriving DecidableEq, Repr, Inhabited

/-- Which of the two decoders a request is for: the `OP` rows or the `WIRE7` rows (R113). The format is known from
the port a request stands on; no bit of the request carries it. -/
inductive Format
  | op
  | wire7
deriving DecidableEq, Repr, Inhabited

end Sys2Proof
end

