-- ==== Sys2Proof/Config.lean ====
section
/-! DEFINITION. The parameters of R7 and the free values of the model. The open parameters are a record that `State`
carries unchanged, so that every statement over all states is a statement for every build (log entry 1). -/

namespace Sys2Proof

/-- `TX_OVERFLOW_POLICY` (R7, R194, D18): `ResetAll` or `DropNewest`. -/
inductive OverflowPolicy
  | resetAll
  | dropNewest
deriving DecidableEq, Repr, Inhabited

/-- The open parameters of R7, fixed for one build: `TX_CAPACITY`, `RX_CAPACITY` (D16, no default), `CNT_W` (D15,
default 16), `TX_OVERFLOW_POLICY` (D18, default `ResetAll`) and `SLOT_W` (D14, default 8). `SLOT_W` is at most 8: `SER16`
has one byte for a slot (R98) and `FRAME_BYTES` is fixed (R7), so no wider build exists (DEDUCED, log entry 17). -/
structure Config where
  txCapacity : Nat
  rxCapacity : Nat
  cntW : Nat
  txOverflowPolicy : OverflowPolicy
  slotW : Fin 9
deriving DecidableEq, Repr, Inhabited

/-- `FRAME_BYTES` (R7, D13): the size of one serialized frame in bytes. -/
abbrev Config.frameBytes : Nat := 16

/-- Free value (R55, R131, U12): an element that is unspecified, drawn by its number. No value of it can be proved. -/
opaque Config.freeNat (draw element : Nat) : Nat

/-- Free value (R55, U12): the transmit state that a failed initialisation leaves. -/
opaque Config.freeSending (draw : Nat) : Bool

/-- Free value (R26, U11): what byte `i` of the storage of `q` holds when nothing has written it since the storage's
`epoch`-th initialisation. -/
opaque Config.unwrittenByte (q : QSel) (epoch i : Nat) : Byte

/-- Free value (R241, U16): the words `HW.RECEIVE_WORDS` answers for a slot with no completed reception. -/
opaque Config.freeWords (draw : Nat) : WireWords

/-- Free value (R100): what a count field of `width` bits shows for a counter value `n` that it cannot hold (log
entry 18). -/
opaque Config.oversizedCount (width n : Nat) : BitVec width

end Sys2Proof
end

