-- ==== Sys2Proof/Machine/Codec.lean ====
section
/-! DEFINITION. The FrameCodec as pure functions (R160): the wire-word layout of R91, `FC.ENCODE` (R161), `FC.DECODE`
(R165), the serialized layout of R98 with `FC.SERIALIZE` (R170) and `FC.DESERIALIZE` (R171), and the byte views of
`WIRE7`, `SER16` and byte counts that the request encoding uses. They read no state and write none. -/

namespace Sys2Proof

/-- The `frame_kind` bit: Standard 0, Extended 1 (R44, R92). -/
def frameKindBit : FrameKind → BitVec 1
  | .standard => 0
  | .extended => 1

/-- The `frame_kind` of its bit (R92). -/
def frameKindOf (b : BitVec 1) : FrameKind :=
  if b = 1#1 then .extended else .standard

/-- The `payload_kind` bit: Data 0, RemoteRequest 1 (R44, R93). -/
def payloadKindBit : PayloadKind → BitVec 1
  | .data => 0
  | .remoteRequest => 1

/-- The `payload_kind` of its bit (R93). -/
def payloadKindOf (b : BitVec 1) : PayloadKind :=
  if b = 1#1 then .remoteRequest else .data

/-- Eight zero bytes: the `data` of a decoded RemoteRequest frame (R169). -/
def zeroPayload : Payload := ⟨0, 0, 0, 0, 0, 0, 0, 0⟩

/-- One payload lane: the byte of lower index in bits 7:0, the other in bits 15:8 (R60, R168). -/
def packLane (lo hi : Byte) : Word :=
  lo.setWidth 16 ||| (hi.setWidth 16 <<< 8)

/-- The byte of a lane in bits 7:0. -/
def laneLow (w : Word) : Byte := w.extractLsb' 0 8

/-- The byte of a lane in bits 15:8. -/
def laneHigh (w : Word) : Byte := w.extractLsb' 8 8

/-- The seven words of the field table R91: every named field at its place, every unnamed bit 0 (R114), the
remote-request flag in both `w0[1]` and `w2[9]` (R162). -/
def packWire (ide rtr : BitVec 1) (sid : BitVec 11) (mid : BitVec 12) (low : BitVec 6) (dlc : BitVec 4)
    (d : Payload) : WireWords where
  w0 := (sid.setWidth 16 <<< 2) ||| (rtr.setWidth 16 <<< 1) ||| ide.setWidth 16
  w1 := mid.setWidth 16
  w2 := (low.setWidth 16 <<< 10) ||| (rtr.setWidth 16 <<< 9) ||| dlc.setWidth 16
  w3 := packLane d.b0 d.b1
  w4 := packLane d.b2 d.b3
  w5 := packLane d.b4 d.b5
  w6 := packLane d.b6 d.b7

/-- `w0[0]`, IDE (R92). -/
def wireIde (w : WireWords) : BitVec 1 := w.w0.extractLsb' 0 1

/-- `w0[1]`, SRR/RTR, the only remote-request bit decode reads (R93, R116). -/
def wireRtr (w : WireWords) : BitVec 1 := w.w0.extractLsb' 1 1

/-- `w0[12:2]`, SID (R94). -/
def wireSid (w : WireWords) : BitVec 11 := w.w0.extractLsb' 2 11

/-- `w1[11:0]`, EID_MID (R95). -/
def wireMid (w : WireWords) : BitVec 12 := w.w1.extractLsb' 0 12

/-- `w2[15:10]`, EID_LOW (R96). -/
def wireLow (w : WireWords) : BitVec 6 := w.w2.extractLsb' 10 6

/-- `w2[3:0]`, DLC (R96). -/
def wireDlc (w : WireWords) : BitVec 4 := w.w2.extractLsb' 0 4

/-- The eight payload bytes of `w3` to `w6` (R96, R168). -/
def wireData (w : WireWords) : Payload :=
  ⟨laneLow w.w3, laneHigh w.w3, laneLow w.w4, laneHigh w.w4, laneLow w.w5, laneHigh w.w5, laneLow w.w6, laneHigh w.w6⟩

/-- The 29-bit identifier of its parts, `SID`, `EID_MID` and `EID_LOW` (R105). -/
def joinId (sid : BitVec 11) (mid : BitVec 12) (low : BitVec 6) : BitVec 29 :=
  (sid.setWidth 29 <<< 18) ||| (mid.setWidth 29 <<< 6) ||| low.setWidth 29

/-- `FC.ENCODE` (R161): a pure function from a frame to its seven wire words. -/
def encodeFrame (f : CanFrame) : WireWords :=
  match f.frameKind with
  | .extended =>
    packWire (frameKindBit .extended) (payloadKindBit f.payloadKind) (f.identifier.extractLsb' 18 11)
      (f.identifier.extractLsb' 6 12) (f.identifier.extractLsb' 0 6) f.validLength f.data
  | .standard =>
    packWire (frameKindBit .standard) (payloadKindBit f.payloadKind) (f.identifier.extractLsb' 0 11) 0 0 f.validLength
      f.data

/-- `FC.DECODE` (R165): branches on IDE before reading word 1 and word 2 bits 15:10 (R166), reads `valid_length` for
both payload kinds (R167), and gives a RemoteRequest frame eight zero bytes (R169). -/
def decodeFrame (w : WireWords) (slot : Slot) : CanFrame where
  frameKind := frameKindOf (wireIde w)
  payloadKind := payloadKindOf (wireRtr w)
  identifier := if wireIde w = 1#1 then joinId (wireSid w) (wireMid w) (wireLow w) else (wireSid w).setWidth 29
  validLength := wireDlc w
  data := if wireRtr w = 0#1 then wireData w else zeroPayload
  hardwareSlot := slot

/-- `FC.SERIALIZE` (R170): the `SER16` layout of R98, identifier least significant byte first (R61), padding 0 (R99). -/
def serializeFrame (f : CanFrame) : Ser16 where
  b0 := f.identifier.extractLsb' 0 8
  b1 := f.identifier.extractLsb' 8 8
  b2 := f.identifier.extractLsb' 16 8
  b3 := (f.identifier.extractLsb' 24 5).setWidth 8
  b4 := f.hardwareSlot
  b5 := (payloadKindBit f.payloadKind).setWidth 8
  b6 := (frameKindBit f.frameKind).setWidth 8
  b7 := f.data.b0
  b8 := f.data.b1
  b9 := f.data.b2
  b10 := f.data.b3
  b11 := f.data.b4
  b12 := f.data.b5
  b13 := f.data.b6
  b14 := f.data.b7
  b15 := f.validLength.setWidth 8

/-- `FC.DESERIALIZE` (R171): the inverse; padding bits are ignored (R99). -/
def deserializeFrame (b : Ser16) : CanFrame where
  identifier := (b.b3 ++ b.b2 ++ b.b1 ++ b.b0).extractLsb' 0 29
  hardwareSlot := b.b4
  payloadKind := payloadKindOf (b.b5.extractLsb' 0 1)
  frameKind := frameKindOf (b.b6.extractLsb' 0 1)
  data := ⟨b.b7, b.b8, b.b9, b.b10, b.b11, b.b12, b.b13, b.b14⟩
  validLength := b.b15.extractLsb' 0 4

/-- The sixteen bytes of a `SER16` value in order, byte 0 first (R98). -/
def ser16Bytes (b : Ser16) : List Byte :=
  [b.b0, b.b1, b.b2, b.b3, b.b4, b.b5, b.b6, b.b7, b.b8, b.b9, b.b10, b.b11, b.b12, b.b13, b.b14, b.b15]

/-- The `SER16` value at the front of a byte list and what follows it. -/
def takeSer16 : List Byte → Option (Ser16 × List Byte)
  | b0 :: b1 :: b2 :: b3 :: b4 :: b5 :: b6 :: b7 :: b8 :: b9 :: b10 :: b11 :: b12 :: b13 :: b14 :: b15 :: rest =>
    some (⟨b0, b1, b2, b3, b4, b5, b6, b7, b8, b9, b10, b11, b12, b13, b14, b15⟩, rest)
  | _ => none

/-- A `SER16` value as the 128 bits of a port: byte `i` is bits `8i+7 : 8i` (R98). -/
def ser16Port (b : Ser16) : BitVec 128 :=
  b.b15 ++ b.b14 ++ b.b13 ++ b.b12 ++ b.b11 ++ b.b10 ++ b.b9 ++ b.b8 ++ b.b7 ++ b.b6 ++ b.b5 ++ b.b4 ++ b.b3 ++ b.b2 ++
    b.b1 ++ b.b0

/-- A `WIRE7` value as the 112 bits of a port: word `k` in bits `16k+15 : 16k` (R100). -/
def wirePort (w : WireWords) : BitVec 112 :=
  w.w6 ++ w.w5 ++ w.w4 ++ w.w3 ++ w.w2 ++ w.w1 ++ w.w0

/-- The fourteen bytes of a `WIRE7` value as its 112 port bits lie in a byte stream, lowest bits first (log entry 5). -/
def wireBytes (w : WireWords) : List Byte :=
  [laneLow w.w0, laneHigh w.w0, laneLow w.w1, laneHigh w.w1, laneLow w.w2, laneHigh w.w2, laneLow w.w3, laneHigh w.w3,
    laneLow w.w4, laneHigh w.w4, laneLow w.w5, laneHigh w.w5, laneLow w.w6, laneHigh w.w6]

/-- The `WIRE7` value at the front of a byte list and what follows it. -/
def takeWire : List Byte → Option (WireWords × List Byte)
  | l0 :: h0 :: l1 :: h1 :: l2 :: h2 :: l3 :: h3 :: l4 :: h4 :: l5 :: h5 :: l6 :: h6 :: rest =>
    some (⟨packLane l0 h0, packLane l1 h1, packLane l2 h2, packLane l3 h3, packLane l4 h4, packLane l5 h5,
      packLane l6 h6⟩, rest)
  | _ => none

/-- The four bytes of a byte count, lowest bits first (log entry 5). -/
def countBytes (n : Nat) : List Byte :=
  [BitVec.ofNat 8 n, BitVec.ofNat 8 (n / 2 ^ 8), BitVec.ofNat 8 (n / 2 ^ 16), BitVec.ofNat 8 (n / 2 ^ 24)]

/-- The byte count at the front of a byte list and what follows it. -/
def takeCount : List Byte → Option (Nat × List Byte)
  | b0 :: b1 :: b2 :: b3 :: rest =>
    some (b0.toNat + b1.toNat * 2 ^ 8 + b2.toNat * 2 ^ 16 + b3.toNat * 2 ^ 24, rest)
  | _ => none

end Sys2Proof
end

