-- ==== Sys2Proof/Syntax.lean ====
section
/-! DEFINITION. The operations of the block as syntax: one constructor per row of `spec/opcode_table.json`, the 21
operations of R111 and the four wire frame classes of R97. -/

namespace Sys2Proof

/-- One operation with its operands, in the order of R111 and of the table's rows. -/
inductive Instr
  /-- `SYS.INIT` (R301), code 0x00. -/
  | sysInit
  /-- `RB.INIT` (R131), code 0x10: `q`, capacity in bytes. -/
  | rbInit (q : QSel) (capacity : Nat)
  /-- `RB.WRITE_BYTE` (R132), code 0x11. -/
  | rbWriteByte (q : QSel) (byte : Byte)
  /-- `RB.READ_BYTE` (R133), code 0x12. -/
  | rbReadByte (q : QSel)
  /-- `RB.PEEK_MANY` (R134), code 0x13: `q`, a byte count. -/
  | rbPeekMany (q : QSel) (n : Nat)
  /-- `RB.RESET` (R135), code 0x14. -/
  | rbReset (q : QSel)
  /-- `FC.ENCODE` (R161), code 0x20. -/
  | fcEncode (frame : CanFrame)
  /-- `FC.DECODE` (R165), code 0x21. -/
  | fcDecode (words : WireWords) (slot : Slot)
  /-- `FC.SERIALIZE` (R170), code 0x22. -/
  | fcSerialize (frame : CanFrame)
  /-- `FC.DESERIALIZE` (R171), code 0x23. -/
  | fcDeserialize (bytes : Ser16)
  /-- `TX.ENQUEUE` (R191), code 0x30. -/
  | txEnqueue (frame : CanFrame)
  /-- `TX.ON_COMPLETE` (R193), code 0x31. -/
  | txOnComplete
  /-- `TX.OVERFLOW_COUNT` (R200), code 0x32. -/
  | txOverflowCount
  /-- `RX.ON_FRAME` (R220), code 0x40. -/
  | rxOnFrame (words : WireWords) (slot : Slot)
  /-- `RX.DEQUEUE` (R222), code 0x41. -/
  | rxDequeue
  /-- `RX.PENDING_COUNT` (R223), code 0x42. -/
  | rxPendingCount
  /-- `RX.OVERFLOW_COUNT` (R224), code 0x43. -/
  | rxOverflowCount
  /-- `IA.TX_IRQ` (R248), code 0x50: the delivered slot, ignored. -/
  | iaTxIrq (slot : Slot)
  /-- `IA.RX_IRQ` (R249), code 0x51: the delivered slot. -/
  | iaRxIrq (slot : Slot)
  /-- `HW.TRANSMIT` (R240), code 0x60. -/
  | hwTransmit (slot : Slot) (words : WireWords)
  /-- `HW.RECEIVE_WORDS` (R241), code 0x61. -/
  | hwReceiveWords (slot : Slot)
  /-- `WIRE.STD.DATA` (R97, R165): SID, DLC, B0 to B7, and the slot that arrives beside the words (R108). -/
  | wireStdData (sid : BitVec 11) (dlc : BitVec 4) (data : Payload) (slot : Slot)
  /-- `WIRE.STD.RTR` (R97, R165): as above; the payload words are carried, and ignored by decode (R169). -/
  | wireStdRtr (sid : BitVec 11) (dlc : BitVec 4) (data : Payload) (slot : Slot)
  /-- `WIRE.EXT.DATA` (R97, R165): SID, EID_MID, EID_LOW, DLC, B0 to B7, and the slot. -/
  | wireExtData (sid : BitVec 11) (mid : BitVec 12) (low : BitVec 6) (dlc : BitVec 4) (data : Payload) (slot : Slot)
  /-- `WIRE.EXT.RTR` (R97, R165): as above; the payload words are carried, and ignored by decode (R169). -/
  | wireExtRtr (sid : BitVec 11) (mid : BitVec 12) (low : BitVec 6) (dlc : BitVec 4) (data : Payload) (slot : Slot)
deriving DecidableEq, Repr

end Sys2Proof
end

