-- ==== Sys2Proof/WellFormed.lean ====
section
/-! DEFINITION. Which operations the request encoding can carry (the byte counts fit their four bytes, log entry 5),
and the producer's duties on a frame, which the block never checks (R43, R313). -/

namespace Sys2Proof

/-- An operation is well formed when its byte counts fit the 32 bits the request encoding gives them (log entry 5).
Every other operand's type holds exactly the values the spec gives it. -/
abbrev Instr.WellFormed : Instr → Prop
  | .rbInit _ capacity => capacity < 2 ^ 32
  | .rbPeekMany _ n => n < 2 ^ 32
  | _ => True

/-- A frame is well formed when a Standard identifier fits its 11 bits (R43, R172). -/
abbrev CanFrame.WellFormed (f : CanFrame) : Prop :=
  f.frameKind = .standard → f.identifier.extractLsb' 11 18 = 0#18

/-- The producer's duties of R313 that the block can state: the identifier fits, and `valid_length <= 8`. -/
abbrev CanFrame.Dutiful (f : CanFrame) : Prop :=
  f.WellFormed ∧ f.validLength.toNat ≤ 8

end Sys2Proof
end

