-- ==== Sys2Proof/Decode.lean ====
section
/-! DEFINITION. The decoder of requests, written from the `OP` rows of the opcode table (R111), and the decoder of wire
words, written from the `WIRE7` rows and R91 (R113). Both are total on byte lists and reject by name. After them the
encoder, and the two host-facing readings of a table word. The places of the operand bytes behind the operation code
are the model's own (log entry 5): the spec gives the operands and their widths, and places them only on ports. -/

namespace Sys2Proof

/-- Why a byte list is no request. -/
inductive Reject
  /-- No byte at all. -/
  | noRequest
  /-- An operation code that R111 does not assign. -/
  | unassignedCode (code : Byte)
  /-- Fewer operand bytes than the operation has. -/
  | shortOperands (code : Byte)
  /-- A ring-buffer selector byte other than 0 (`tx.rb`) and 1 (`rx.rb`) (R100). -/
  | badSelector (value : Byte)
  /-- Fewer than the fourteen bytes of seven words and the slot byte beside them (R108, R120). -/
  | shortWords
deriving DecidableEq, Repr

/-- The ring-buffer selector, one bit in a byte (R100): 0 is `tx.rb`, 1 is `rx.rb`. -/
def selectorByte : QSel → Byte
  | .tx => 0
  | .rx => 1

/-- The selector at the front of the operand bytes of `code`. -/
def takeSelector (code : Byte) : List Byte → Except Reject (QSel × List Byte)
  | [] => .error (.shortOperands code)
  | b :: rest => if b = 0 then .ok (.tx, rest) else if b = 1 then .ok (.rx, rest) else .error (.badSelector b)

/-- One operand byte (a data byte or a slot) of `code`. -/
def takeByte (code : Byte) : List Byte → Except Reject (Byte × List Byte)
  | [] => .error (.shortOperands code)
  | b :: rest => .ok (b, rest)

/-- An operand that is there or not, as a decoding step of `code`. -/
def needOperand {α : Type} (code : Byte) : Option α → Except Reject α
  | some a => .ok a
  | none => .error (.shortOperands code)

/-- Operations whose only operand is a frame, a `SER16` value (R100). -/
def decodeFrameOperand (code : Byte) (make : CanFrame → Instr) (bs : List Byte) : Except Reject (Instr × List Byte) :=
  match needOperand code (takeSer16 bs) with
  | .ok (b, rest) => .ok (make (deserializeFrame b), rest)
  | .error e => .error e

/-- Operations whose operands are `words`, then `slot` (R111). -/
def decodeWordsSlot (code : Byte) (make : WireWords → Slot → Instr) (bs : List Byte) :
    Except Reject (Instr × List Byte) :=
  match needOperand code (takeWire bs) with
  | .ok (w, rest) =>
    match takeByte code rest with
    | .ok (slot, rest') => .ok (make w slot, rest')
    | .error e => .error e
  | .error e => .error e

/-- Operations whose only operand is a slot. -/
def decodeSlotOperand (code : Byte) (make : Slot → Instr) (bs : List Byte) : Except Reject (Instr × List Byte) :=
  match takeByte code bs with
  | .ok (slot, rest) => .ok (make slot, rest)
  | .error e => .error e

/-- Operations whose only operand is the selector `q`. -/
def decodeSelectorOperand (code : Byte) (make : QSel → Instr) (bs : List Byte) : Except Reject (Instr × List Byte) :=
  match takeSelector code bs with
  | .ok (q, rest) => .ok (make q, rest)
  | .error e => .error e

/-- Operations whose operands are `q`, then a byte count. -/
def decodeSelectorCount (code : Byte) (make : QSel → Nat → Instr) (bs : List Byte) :
    Except Reject (Instr × List Byte) :=
  match takeSelector code bs with
  | .ok (q, rest) =>
    match needOperand code (takeCount rest) with
    | .ok (n, rest') => .ok (make q n, rest')
    | .error e => .error e
  | .error e => .error e

/-- `RB.WRITE_BYTE`'s operands: `q`, then the byte (R111). -/
def decodeSelectorByte (code : Byte) (make : QSel → Byte → Instr) (bs : List Byte) :
    Except Reject (Instr × List Byte) :=
  match takeSelector code bs with
  | .ok (q, rest) =>
    match takeByte code rest with
    | .ok (b, rest') => .ok (make q b, rest')
    | .error e => .error e
  | .error e => .error e

/-- `HW.TRANSMIT`'s operands: `slot`, then `words` (R111). -/
def decodeSlotWords (code : Byte) (make : Slot → WireWords → Instr) (bs : List Byte) :
    Except Reject (Instr × List Byte) :=
  match takeByte code bs with
  | .ok (slot, rest) =>
    match needOperand code (takeWire rest) with
    | .ok (w, rest') => .ok (make slot w, rest')
    | .error e => .error e
  | .error e => .error e

/-- The decoder of requests (R111, R113): the operation code, then its operands. -/
def decodeOp : List Byte → Except Reject (Instr × List Byte)
  | [] => .error .noRequest
  | code :: bs =>
    match code.toNat with
    | 0x00 => .ok (.sysInit, bs)
    | 0x10 => decodeSelectorCount code .rbInit bs
    | 0x11 => decodeSelectorByte code .rbWriteByte bs
    | 0x12 => decodeSelectorOperand code .rbReadByte bs
    | 0x13 => decodeSelectorCount code .rbPeekMany bs
    | 0x14 => decodeSelectorOperand code .rbReset bs
    | 0x20 => decodeFrameOperand code .fcEncode bs
    | 0x21 => decodeWordsSlot code .fcDecode bs
    | 0x22 => decodeFrameOperand code .fcSerialize bs
    | 0x23 =>
      match needOperand code (takeSer16 bs) with
      | .ok (b, rest) => .ok (.fcDeserialize b, rest)
      | .error e => .error e
    | 0x30 => decodeFrameOperand code .txEnqueue bs
    | 0x31 => .ok (.txOnComplete, bs)
    | 0x32 => .ok (.txOverflowCount, bs)
    | 0x40 => decodeWordsSlot code .rxOnFrame bs
    | 0x41 => .ok (.rxDequeue, bs)
    | 0x42 => .ok (.rxPendingCount, bs)
    | 0x43 => .ok (.rxOverflowCount, bs)
    | 0x50 => decodeSlotOperand code .iaTxIrq bs
    | 0x51 => decodeSlotOperand code .iaRxIrq bs
    | 0x60 => decodeSlotWords code .hwTransmit bs
    | 0x61 => decodeSlotOperand code .hwReceiveWords bs
    | _ => .error (.unassignedCode code)

/-- The class of a `WIRE7` value, selected by `w0[1:0]` (R97), with its fields (R91). -/
def wireClass (w : WireWords) (slot : Slot) : Instr :=
  if wireIde w = 1#1 then
    if wireRtr w = 1#1 then .wireExtRtr (wireSid w) (wireMid w) (wireLow w) (wireDlc w) (wireData w) slot
    else .wireExtData (wireSid w) (wireMid w) (wireLow w) (wireDlc w) (wireData w) slot
  else
    if wireRtr w = 1#1 then .wireStdRtr (wireSid w) (wireDlc w) (wireData w) slot
    else .wireStdData (wireSid w) (wireDlc w) (wireData w) slot

/-- The decoder of wire words (R113): seven words, then the slot that arrives beside them (R108). -/
def decodeWire (bs : List Byte) : Except Reject (Instr × List Byte) :=
  match takeWire bs with
  | some (w, slot :: rest) => .ok (wireClass w slot, rest)
  | _ => .error .shortWords

/-- The decoder of the format a request stands in (R113). -/
def decode : Format → List Byte → Except Reject (Instr × List Byte)
  | .op, bs => decodeOp bs
  | .wire7, bs => decodeWire bs

/-- The six operation codes of the foreground port (R112). -/
def foregroundCodes : List Byte := [0x00, 0x30, 0x32, 0x41, 0x42, 0x43]

/-- The foreground port's decoder (R112, R118): `fg_op` and `fg_frame` to an operation, or no operation, which the port
answers with `IllegalOp`. -/
def decodeForeground (op : Byte) (frame : Ser16) : Option Instr :=
  if op ∈ foregroundCodes then
    match decodeOp (op :: ser16Bytes frame) with
    | .ok (i, _) => some i
    | .error _ => none
  else none

/-- The encoder: an operation's format and bytes, from the same tables (R91, R98, R111). -/
def encode : Instr → Format × List Byte
  | .sysInit => (.op, [0x00])
  | .rbInit q capacity => (.op, 0x10 :: selectorByte q :: countBytes capacity)
  | .rbWriteByte q b => (.op, [0x11, selectorByte q, b])
  | .rbReadByte q => (.op, [0x12, selectorByte q])
  | .rbPeekMany q n => (.op, 0x13 :: selectorByte q :: countBytes n)
  | .rbReset q => (.op, [0x14, selectorByte q])
  | .fcEncode f => (.op, 0x20 :: ser16Bytes (serializeFrame f))
  | .fcDecode w slot => (.op, 0x21 :: (wireBytes w ++ [slot]))
  | .fcSerialize f => (.op, 0x22 :: ser16Bytes (serializeFrame f))
  | .fcDeserialize b => (.op, 0x23 :: ser16Bytes b)
  | .txEnqueue f => (.op, 0x30 :: ser16Bytes (serializeFrame f))
  | .txOnComplete => (.op, [0x31])
  | .txOverflowCount => (.op, [0x32])
  | .rxOnFrame w slot => (.op, 0x40 :: (wireBytes w ++ [slot]))
  | .rxDequeue => (.op, [0x41])
  | .rxPendingCount => (.op, [0x42])
  | .rxOverflowCount => (.op, [0x43])
  | .iaTxIrq slot => (.op, [0x50, slot])
  | .iaRxIrq slot => (.op, [0x51, slot])
  | .hwTransmit slot w => (.op, 0x60 :: slot :: wireBytes w)
  | .hwReceiveWords slot => (.op, [0x61, slot])
  | .wireStdData sid dlc d slot => (.wire7, wireBytes (packWire 0 0 sid 0 0 dlc d) ++ [slot])
  | .wireStdRtr sid dlc d slot => (.wire7, wireBytes (packWire 0 1 sid 0 0 dlc d) ++ [slot])
  | .wireExtData sid mid low dlc d slot => (.wire7, wireBytes (packWire 1 0 sid mid low dlc d) ++ [slot])
  | .wireExtRtr sid mid low dlc d slot => (.wire7, wireBytes (packWire 1 1 sid mid low dlc d) ++ [slot])

/-- The first `k` bytes of a table word, lowest bits first. -/
def tableBytes : Nat → Nat → List Byte
  | 0, _ => []
  | k + 1, w => BitVec.ofNat 8 w :: tableBytes k (w / 2 ^ 8)

/-- The longest request: an operation code and the sixteen bytes of a frame. -/
abbrev longestRequest : Nat := 17

/-- A table word as a request (log entry 6): the format is the one whose rows match. A word of one byte is an `OP`
request, unless its code is unassigned and only the `WIRE7` rows match it (its bits 7:2 are 0); a longer word is a
`WIRE7` value. Every bit above `nbits` is 0. -/
def tableRequest (nbits w : Nat) : Format × List Byte :=
  let bytes := tableBytes longestRequest (w % 2 ^ nbits)
  if nbits ≤ 8 then
    if w % 2 ^ nbits ∈ [1, 2, 3] then (.wire7, bytes) else (.op, bytes)
  else (.wire7, bytes)

/-- The instruction the decoder reads from a table word (host interface). -/
def decodeTableWord (nbits w : Nat) : Option Instr :=
  match decode (tableRequest nbits w).1 (tableRequest nbits w).2 with
  | .ok (i, _) => some i
  | .error _ => none

end Sys2Proof
end

