-- ==== Sys2Proof/Machine/State.lean ====
section
/-! DEFINITION. The whole state of the block and of the environment it reads (R20, R36, R49, R53), the ports it is
driven and answers by (D2), and the reasons a step can stop. Plain data throughout. -/

namespace Sys2Proof.Machine

/-- A ring-buffer storage as the bytes that something has written, strictly rising by index (R26, log entry 2). What an
unlisted byte reads as is `storageByte`. -/
abbrev Memory := List Host.Cell

/-- The message objects that something has filled, strictly rising by slot (R49, log entry 3). -/
abbrev MessageObjects := List (Nat × WireWords)

/-- `tx_state` (R29): `Idle` is `currently_transmitting == false`, `Sending` is `true`. -/
inductive TxState
  | idle
  | sending
deriving DecidableEq, Repr, Inhabited

/-- `init_state` (R33). -/
inductive InitState
  | uninit
  | ready
  | failed
deriving DecidableEq, Repr, Inhabited

/-- One RingBuffer (R20 to R26). -/
structure RingBuffer where
  /-- In bytes (R21). -/
  capacity : Nat
  /-- Number of valid bytes (R22). -/
  used : Nat
  /-- Read cursor: the index of the oldest valid byte (R23). -/
  head : Nat
  /-- Write cursor: the index of the next byte stored (R24). -/
  tail : Nat
  /-- Refused writes, saturating (R25). -/
  overflowCount : Nat
  /-- The written bytes (R26). -/
  storage : Memory
  /-- The model's own: how often the storage has been initialised, for its free bytes (log entry 2). -/
  storageEpoch : Nat
deriving DecidableEq, Repr, Inhabited

/-- The TransmitQueue: its ring buffer and `currently_transmitting` (R2, R29). -/
structure TransmitQueue where
  rb : RingBuffer
  txState : TxState
deriving DecidableEq, Repr, Inhabited

/-- The ReceiveQueue: its ring buffer and `pending_count` (R2, R31), a number without a bound (log entry 19). -/
structure ReceiveQueue where
  rb : RingBuffer
  pendingCount : Nat
deriving DecidableEq, Repr, Inhabited

/-- The state of ENV that the block reads, writes or depends on (R36, R49, R53, R244 to R246). -/
structure Env where
  txCompletePending : Bool
  txCompleteSlot : Slot
  rxCompletePending : Bool
  rxCompleteSlot : Slot
  /-- The words of the pending reception, which ENV keeps until the flag is cleared (R246); none when no reception has
  been delivered. -/
  rxCompleteWords : Option WireWords
  /-- The words that `HW.TRANSMIT` and the receptions last put into each message object (R49, R240, R246). -/
  messageObjects : MessageObjects
  /-- Whether a transmit-complete is still owed for the last `HW.TRANSMIT` (R53). One bit, however many are outstanding (log
  entry 14). -/
  txOutstanding : Bool
deriving DecidableEq, Repr, Inhabited

/-- The result codes (R11, R101). `Overflow` and `QueueFull` are one value (R262). -/
inductive Status
  | ok
  | empty
  | overflow
  | capacityError
  | spurious
  | notInitialised
  | illegalOp
deriving DecidableEq, Repr, Inhabited

/-- The data an operation returns beside its result code (R100, R111). -/
inductive ResultData
  | none
  | byte (b : Byte)
  | bytes (bs : List Byte)
  | words (w : WireWords)
  | serialized (b : Ser16)
  | frame (f : CanFrame)
  /-- The `count` field: its width and its bits (R100). -/
  | count (width : Nat) (value : BitVec width)
deriving DecidableEq, Repr, Inhabited

/-- One response: a result code, or none where the operation has no result code (R267), and the data. -/
structure Response where
  status : Option Status
  data : ResultData
deriving DecidableEq, Repr, Inhabited

/-- A call out of the block (R240, R241, R121). -/
inductive HwEvent
  | transmit (slot : Slot) (words : WireWords)
  | receiveWords (slot : Slot)
deriving DecidableEq, Repr

/-- What ENV does at one moment (R121, R244): a transmission completes, a frame is received, or both at once. -/
structure EnvEvent where
  txDone : Option Slot
  rxFrame : Option (Slot × WireWords)
deriving DecidableEq, Repr, Inhabited

/-- One thing that waits on the block's input ports (D2). -/
inductive Input
  /-- The foreground port: `fg_op` and `fg_frame` (R112). -/
  | foreground (op : Byte) (frame : Ser16)
  /-- The component-level test bench (R111): a request for any operation or wire words, in its format. -/
  | bench (format : Format) (bytes : List Byte)
  /-- The reset input (R300). -/
  | reset
  /-- An event of ENV (R244). -/
  | env (event : EnvEvent)
deriving DecidableEq, Repr

/-- Faults: accesses to places that do not exist. -/
inductive Fault
  /-- A storage access at an index outside `0 .. capacity-1` (R10, R26). Raised by `memRead` and `memWrite`. It cannot
  happen while the cursor invariant R27 holds; after a failed `RB.INIT` the cursors are unspecified (R131). Safe: the
  model stops where the spec gives no location. -/
  | storageIndex
deriving DecidableEq, Repr

/-- Refusals: the model does not go on. -/
inductive Refusal
  /-- The instruction with this mnemonic has no meaning yet. Raised by no arm. Safe. -/
  | notModelled (mnemonic : String)
  /-- A whole-frame read or peek of a ring buffer that holds less than a frame: the precondition of R138 and R139, which
  every caller establishes (U22: refuse). Raised by `rbReadFrame` and `rbPeekFrame`. Unreachable while R28, R30 and R32
  hold. Safe. -/
  | framePrecondition
  /-- ENV raises a cause whose flag is still set, outside its contract (R244, U15: refuse). Raised by `envInput`.
  Safe. -/
  | eventWhilePending
  /-- A bench request that is no operation and no wire words. Raised by `benchInput`. Safe. -/
  | undecodable (reason : Reject)
deriving DecidableEq, Repr

/-- Why an operation stops before its end. -/
inductive Stop
  | fault (f : Fault)
  | refused (r : Refusal)
deriving DecidableEq, Repr

/-- The state of the machine. -/
structure State where
  /-- The parameters of this build (R7); no step changes them. -/
  cfg : Config
  tx : TransmitQueue
  rx : ReceiveQueue
  initState : InitState
  env : Env
  /-- What waits on the input ports, oldest first. -/
  inputs : List Input
  /-- The response port: the last response given (R100, D2). -/
  response : Option Response
  /-- The calls out of the block, oldest first (R240). -/
  trace : List HwEvent
  /-- The model's own counter of free values drawn (log entry 3). -/
  freeCount : Nat
deriving DecidableEq, Repr

/-- An empty ring buffer of capacity `c` after its `epoch`-th initialisation (R55, R131). -/
def emptyBuffer (c epoch : Nat) : RingBuffer where
  capacity := c
  used := 0
  head := 0
  tail := 0
  overflowCount := 0
  storage := []
  storageEpoch := epoch

/-- ENV as the block assumes it when it becomes `Ready` (R303): no flag set, nothing outstanding; slots by log entry 7. -/
def quietEnv : Env where
  txCompletePending := false
  txCompleteSlot := 0
  rxCompletePending := false
  rxCompleteSlot := 0
  rxCompleteWords := none
  messageObjects := []
  txOutstanding := false

/-- The machine right after a reset that succeeded, for a build `cfg` with legal capacities (R55, R302). An illegal
capacity makes the reset fail (`initBlock`, R301). -/
def State.resetOf (cfg : Config) : State where
  cfg := cfg
  tx := ⟨emptyBuffer cfg.txCapacity 1, .idle⟩
  rx := ⟨emptyBuffer cfg.rxCapacity 1, 0⟩
  initState := .ready
  env := quietEnv
  inputs := []
  response := none
  trace := []
  freeCount := 0

/-- The build that `State.reset` is for: the capacities of R301's example, the defaults of D14, D15 and
D18 (log entry 1). -/
def defaultConfig : Config where
  txCapacity := 48
  rxCapacity := 32
  cntW := 16
  txOverflowPolicy := .resetAll
  slotW := 8

/-- The machine right after reset (R55, R302). -/
def State.reset : State := State.resetOf defaultConfig

end Sys2Proof.Machine
end

