-- ==== Sys2Proof/Machine/Flags.lean ====
section
/-! DEFINITION. The conditions the operations test. None is stored: each is computed where it is needed (R35). -/

namespace Sys2Proof.Machine

/-- "Full": `used == capacity` (R35, R132). -/
def isFull (r : RingBuffer) : Bool := r.used == r.capacity

/-- "Empty": `used == 0` (R35, R133). -/
def isEmpty (r : RingBuffer) : Bool := r.used == 0

/-- "Frame queued": `used >= FRAME_BYTES` (R35, R193, D20). -/
def frameQueued (r : RingBuffer) : Bool := Config.frameBytes ≤ r.used

/-- `sat_inc` (R10, R152): one more, stopping at `2^CNT_W - 1`. -/
def satInc (cntW c : Nat) : Nat := if c < 2 ^ cntW - 1 then c + 1 else c

/-- A capacity that `init` accepts: nonzero and frame-aligned (R64, R131). -/
def legalCapacity (c : Nat) : Bool := c != 0 && c % Config.frameBytes == 0

/-- The overflow recovery of transmit-complete is due: `ResetAll` and a nonzero overflow count (R193, R194). -/
def recoveryDue (cfg : Config) (r : RingBuffer) : Bool :=
  cfg.txOverflowPolicy == .resetAll && r.overflowCount != 0

/-- `init_state == Ready` (R33). -/
def isReady (s : State) : Bool := s.initState == .ready

/-- Transmit-complete is to be serviced: its flag is set and the block is `Ready` (R248, R271). -/
def txCauseDue (s : State) : Bool := s.env.txCompletePending && isReady s

/-- Receive-complete is to be serviced: its flag is set and the block is `Ready` (R249, R271). -/
def rxCauseDue (s : State) : Bool := s.env.rxCompletePending && isReady s

end Sys2Proof.Machine
end

