-- ==== Sys2Proof/Machine/Operands.lean ====
section
/-! DEFINITION. Operand and response access: the slot field of a build (R7), the ring buffer a selector names (R100),
giving a response, and the response as the port fields of D2 and R101 show it. -/

namespace Sys2Proof.Machine

/-- A slot field of this build: its low `SLOT_W` bits (R7, R100); the port has no others, and in byte 4 of `SER16` they
are padding as R99 has it (DEDUCED, log entry 17). At the default width 8 it is the slot itself. -/
def fitSlot (cfg : Config) (slot : Slot) : Slot := (slot.setWidth cfg.slotW.val).setWidth 8

/-- A frame of this build: its `hardware_slot` has `SLOT_W` bits (R42, R47). -/
def fitFrame (cfg : Config) (f : CanFrame) : CanFrame := { f with hardwareSlot := fitSlot cfg f.hardwareSlot }

/-- The width of the `count` field (R100). -/
def countWidth (cfg : Config) : Nat := max cfg.cntW 16

/-- A counter value in a `count` field of `width` bits, zero-extended (R100). DESIGN CHOICE: a value the field cannot hold,
a `pending_count` above 65535 or a count after a failed `RB.INIT` (log entry 11), shows as a free value (log entry 18). -/
def countField (width n : Nat) : BitVec width :=
  if n < 2 ^ width then BitVec.ofNat width n else Config.oversizedCount width n

/-- The ring buffer the selector `q` names (R100). -/
def getBuffer (s : State) : QSel → RingBuffer
  | .tx => s.tx.rb
  | .rx => s.rx.rb

/-- `s` with the ring buffer that `q` names replaced; the other is untouched (R130). -/
def setBuffer (s : State) (q : QSel) (r : RingBuffer) : State :=
  match q with
  | .tx => { s with tx := { s.tx with rb := r } }
  | .rx => { s with rx := { s.rx with rb := r } }

/-- The response port takes a result code and its data (R100). -/
def respond (s : State) (st : Status) (d : ResultData) : State :=
  { s with response := some ⟨some st, d⟩ }

/-- The response port takes data that comes without a result code (R241, R267). -/
def respondData (s : State) (d : ResultData) : State :=
  { s with response := some ⟨none, d⟩ }

/-- The numbers of the result codes (R101). -/
def statusCode : Status → BitVec 3
  | .ok => 0
  | .empty => 1
  | .overflow => 2
  | .capacityError => 3
  | .spurious => 4
  | .notInitialised => 5
  | .illegalOp => 6

/-- `fg_status` of a response that has a result code (D2). -/
def statusPort (r : Response) : Option (BitVec 3) := r.status.map statusCode

/-- `fg_rframe` of a response that carries a frame: its `SER16` value as 128 bits (D2, R98). -/
def framePort (r : Response) : Option (BitVec 128) :=
  match r.data with
  | .frame f => some (ser16Port (serializeFrame f))
  | .serialized b => some (ser16Port b)
  | _ => none

/-- The response port takes the value of a counter in the `count` field of this build (R37, R100). -/
def respondCount (s : State) (n : Nat) : State :=
  respond s .ok (.count (countWidth s.cfg) (countField (countWidth s.cfg) n))

/-- `fg_rcount` of a response that carries a count: `max(CNT_W, 16)` bits (R37, R100). -/
def countPort (cfg : Config) (r : Response) : Option (BitVec (countWidth cfg)) :=
  match r.data with
  | .count _ value => some (value.setWidth (countWidth cfg))
  | _ => none

end Sys2Proof.Machine
end

