-- ==== Sys2Proof/Machine/Ops.lean ====
section
/-! DEFINITION. The named operations the meanings share: the sparse stores behind the storages and the message objects,
the five RingBuffer operations (R131 to R135), the whole-frame helpers (R137 to R140), the two primitives of ENV (R240,
R241), the queue operations that more than one row performs (R193, R220), and the entry to and return from an interrupt
(R276, R280). -/

namespace Sys2Proof.Machine

/-- The entry at key `a`, if something has been written there. -/
def storeRead {α : Type} : List (Nat × α) → Nat → Option α
  | [], _ => none
  | (k, v) :: rest, a => if k = a then some v else storeRead rest a

/-- Write at key `a`, keeping the keys strictly rising. -/
def storeWrite {α : Type} : List (Nat × α) → Nat → α → List (Nat × α)
  | [], a, v => [(a, v)]
  | (k, w) :: rest, a, v =>
    if a < k then (a, v) :: (k, w) :: rest
    else if a = k then (a, v) :: rest
    else (k, w) :: storeWrite rest a v

/-- The canonical form of a sparse store: keys strictly rising. An unlisted key reads as no entry at all, so no entry
equals what an unlisted key reads as (log entry 2). -/
abbrev storeWf {α : Type} (m : List (Nat × α)) : Prop := (m.map Prod.fst).Pairwise (· < ·)

/-- The canonical form of a storage. -/
abbrev Memory.wf (m : Memory) : Prop := storeWf m

/-- What byte `i` of the storage of `q` reads as: the byte last written, or, where nothing has written it since the last
initialisation, a free value (R26, U11, log entry 2). -/
def storageByte (q : QSel) (r : RingBuffer) (i : Nat) : Byte :=
  (storeRead r.storage i).getD (Config.unwrittenByte q r.storageEpoch i)

/-- `MemRead(q, i)`, for `0 <= i < q.capacity` (R10). -/
def memRead (q : QSel) (r : RingBuffer) (i : Nat) : Except Stop Byte :=
  if i < r.capacity then .ok (storageByte q r i) else .error (.fault .storageIndex)

/-- `MemWrite(q, i, b)`, for `0 <= i < q.capacity` (R10). -/
def memWrite (r : RingBuffer) (i : Nat) (b : Byte) : Except Stop RingBuffer :=
  if i < r.capacity then .ok { r with storage := storeWrite r.storage i b } else .error (.fault .storageIndex)

/-- Cursor advance modulo `capacity` (R150). -/
def advance (r : RingBuffer) (cursor : Nat) : Nat := (cursor + 1) % r.capacity

/-- A ring buffer no element of which is defined (R131, R55): every element a free value of the draw `k`, its storage
newly allocated with contents unspecified. -/
def undefinedBuffer (k element : Nat) (old : RingBuffer) : RingBuffer where
  capacity := Config.freeNat k element
  used := Config.freeNat k (element + 1)
  head := Config.freeNat k (element + 2)
  tail := Config.freeNat k (element + 3)
  overflowCount := Config.freeNat k (element + 4)
  storage := []
  storageEpoch := old.storageEpoch + 1

/-- `RB.INIT` (R131). The operand `k` numbers the draw of the free values that a `CapacityError` leaves. -/
def rbInit (k : Nat) (r : RingBuffer) (c : Nat) : Status × RingBuffer :=
  if legalCapacity c then (.ok, emptyBuffer c (r.storageEpoch + 1))
  else (.capacityError, undefinedBuffer k 0 r)

/-- `RB.WRITE_BYTE` (R132): refused and counted when full; else the byte is stored before `used` rises (R81). -/
def rbWriteByte (cntW : Nat) (r : RingBuffer) (b : Byte) : Except Stop (Status × RingBuffer) :=
  if isFull r then .ok (.overflow, { r with overflowCount := satInc cntW r.overflowCount })
  else
    match memWrite r r.tail b with
    | .ok r1 => .ok (.ok, { r1 with tail := advance r r.tail, used := r.used + 1 })
    | .error e => .error e

/-- `RB.READ_BYTE` (R133): no byte is `Empty`. The storage byte is not erased. -/
def rbReadByte (q : QSel) (r : RingBuffer) : Except Stop (Option Byte × RingBuffer) :=
  if isEmpty r then .ok (none, r)
  else
    match memRead q r r.head with
    | .ok b => .ok (some b, { r with head := advance r r.head, used := r.used - 1 })
    | .error e => .error e

/-- `m` bytes from offset `i` behind `head`, oldest first, each at `(head + i) mod capacity` (R134). -/
def peekFrom (q : QSel) (r : RingBuffer) : Nat → Nat → Except Stop (List Byte)
  | _, 0 => .ok []
  | i, m + 1 =>
    match memRead q r ((r.head + i) % r.capacity) with
    | .ok b =>
      match peekFrom q r (i + 1) m with
      | .ok bs => .ok (b :: bs)
      | .error e => .error e
    | .error e => .error e

/-- `RB.PEEK_MANY` (R134): `min(n, used)` bytes, no state written. -/
def rbPeekMany (q : QSel) (r : RingBuffer) (n : Nat) : Except Stop (List Byte) :=
  peekFrom q r 0 (min n r.used)

/-- `RB.RESET` (R135): cursors and counter to zero; capacity and storage bytes untouched. -/
def rbReset (r : RingBuffer) : RingBuffer :=
  { r with used := 0, head := 0, tail := 0, overflowCount := 0 }

/-- `rb_write_frame` (R137): byte by byte, stopping at the first refusal (D19). -/
def rbWriteFrame (cntW : Nat) : RingBuffer → List Byte → Except Stop (Status × RingBuffer)
  | r, [] => .ok (.ok, r)
  | r, b :: bs =>
    match rbWriteByte cntW r b with
    | .ok (.ok, r1) => rbWriteFrame cntW r1 bs
    | .ok (st, r1) => .ok (st, r1)
    | .error e => .error e

/-- `n` `RB.READ_BYTE` operations, the bytes in the order read; the precondition of R138 is that none is `Empty`. -/
def rbReadBytes (q : QSel) : Nat → RingBuffer → Except Stop (List Byte × RingBuffer)
  | 0, r => .ok ([], r)
  | n + 1, r =>
    match rbReadByte q r with
    | .ok (some b, r1) =>
      match rbReadBytes q n r1 with
      | .ok (bs, r2) => .ok (b :: bs, r2)
      | .error e => .error e
    | .ok (none, _) => .error (.refused .framePrecondition)
    | .error e => .error e

/-- `rb_read_frame` (R138). -/
def rbReadFrame (q : QSel) (r : RingBuffer) : Except Stop (Ser16 × RingBuffer) :=
  match rbReadBytes q Config.frameBytes r with
  | .ok (bs, r1) =>
    match takeSer16 bs with
    | some (b, _) => .ok (b, r1)
    | none => .error (.refused .framePrecondition)
  | .error e => .error e

/-- `rb_peek_frame` (R139). -/
def rbPeekFrame (q : QSel) (r : RingBuffer) : Except Stop Ser16 :=
  match rbPeekMany q r Config.frameBytes with
  | .ok bs =>
    match takeSer16 bs with
    | some (b, _) => .ok b
    | none => .error (.refused .framePrecondition)
  | .error e => .error e

/-- `n` `RB.READ_BYTE` operations whose bytes are not used, stopping at the first `Empty`. -/
def rbDropBytes (q : QSel) : Nat → RingBuffer → Except Stop RingBuffer
  | 0, r => .ok r
  | n + 1, r =>
    match rbReadByte q r with
    | .ok (some _, r1) => rbDropBytes q n r1
    | .ok (none, r1) => .ok r1
    | .error e => .error e

/-- `rb_drop_frame` (R140). -/
def rbDropFrame (q : QSel) (r : RingBuffer) : Except Stop RingBuffer :=
  rbDropBytes q Config.frameBytes r

/-- `call hardware_transmit(slot, words)` (R240): the output event; ENV's message object holds the words and a
transmission is outstanding. A second one while one is outstanding leaves the one bit set (log entry 14). -/
def hardwareTransmit (slot : Slot) (w : WireWords) (s : State) : State :=
  { s with
    env := { s.env with
      messageObjects := storeWrite s.env.messageObjects slot.toNat w
      txOutstanding := true }
    trace := s.trace ++ [.transmit slot w] }

/-- The words that `HW.RECEIVE_WORDS` of `slot` must answer: those of the completed reception, until the block clears its
flag (R246). A slot with no completed reception has none: its words are ENV's choice, any value (R241, U16). -/
def completedWords (e : Env) (slot : Slot) : Option WireWords :=
  if e.rxCompletePending = true ∧ slot = e.rxCompleteSlot then e.rxCompleteWords else none

/-- `hardware_receive_words(slot)` (R241): the call, and the words ENV answers: those of the completed reception, else any
value, a free one at each call (U16, log entry 3). -/
def hardwareReceiveWords (slot : Slot) (s : State) : WireWords × State :=
  match completedWords s.env slot with
  | some w => (w, { s with trace := s.trace ++ [.receiveWords slot] })
  | none =>
    (Config.freeWords s.freeCount,
      { s with trace := s.trace ++ [.receiveWords slot], freeCount := s.freeCount + 1 })

/-- Start the transmission of `f` (R195): its own slot, its encoded words. -/
def startTransmission (f : CanFrame) (s : State) : State :=
  hardwareTransmit f.hardwareSlot (encodeFrame f) s

/-- `TX.ENQUEUE` after its `init_state` test (R191): write, then read `tx_state`, then transmit if it was `Idle` (R81). -/
def enqueueFrame (f : CanFrame) (s : State) : Except Stop (Status × State) :=
  match rbWriteFrame s.cfg.cntW s.tx.rb (ser16Bytes (serializeFrame f)) with
  | .ok (.ok, r) =>
    match s.tx.txState with
    | .idle => .ok (.ok, startTransmission f { s with tx := ⟨r, .sending⟩ })
    | .sending => .ok (.ok, { s with tx := ⟨r, .sending⟩ })
  | .ok (st, r) => .ok (st, { s with tx := { s.tx with rb := r } })
  | .error e => .error e

/-- The overflow recovery of transmit-complete (R194): `RB.RESET` under `ResetAll` when the count is nonzero. -/
def recoverOverflow (cfg : Config) (r : RingBuffer) : RingBuffer :=
  if recoveryDue cfg r then rbReset r else r

/-- `TX.ON_COMPLETE` (R193): pop, then the overflow test, then the test for a queued frame. -/
def onHardwareComplete (s : State) : Except Stop (Status × State) :=
  match s.tx.txState with
  | .idle => .ok (.spurious, s)
  | .sending =>
    match rbDropFrame .tx s.tx.rb with
    | .ok r1 =>
      let r2 := recoverOverflow s.cfg r1
      if frameQueued r2 then
        match rbPeekFrame .tx r2 with
        | .ok b =>
          .ok (.ok, startTransmission (fitFrame s.cfg (deserializeFrame b)) { s with tx := ⟨r2, .sending⟩ })
        | .error e => .error e
      else .ok (.ok, { s with tx := ⟨r2, .idle⟩ })
    | .error e => .error e

/-- `RX.ON_FRAME` (R220): decode, serialize into the ring buffer, then count; a full buffer drops the new frame (R221).
DESIGN CHOICE: the count goes up by one on every stored frame, past `CAP_FRAMES` and past its width too, which only a test
bench that resets `rx.rb` beneath the queue can bring about (log entry 19). -/
def onFrameReceived (w : WireWords) (slot : Slot) (s : State) : Except Stop (Status × State) :=
  match rbWriteFrame s.cfg.cntW s.rx.rb (ser16Bytes (serializeFrame (decodeFrame w slot))) with
  | .ok (.ok, r) => .ok (.ok, { s with rx := ⟨r, s.rx.pendingCount + 1⟩ })
  | .ok (st, r) => .ok (st, { s with rx := { s.rx with rb := r } })
  | .error e => .error e

/-- `RX.DEQUEUE` after its tests (R222): the oldest frame out, then `pending_count` down by one. -/
def dequeueFrame (s : State) : Except Stop (CanFrame × State) :=
  match rbReadFrame .rx s.rx.rb with
  | .ok (b, r) => .ok (fitFrame s.cfg (deserializeFrame b), { s with rx := ⟨r, s.rx.pendingCount - 1⟩ })
  | .error e => .error e

/-- Return from the transmit-complete handler: the flag is cleared, last (R250, R280). -/
def clearTxFlag (s : State) : State :=
  { s with env := { s.env with txCompletePending := false } }

/-- Return from the receive-complete handler: the flag is cleared, last, which releases the message object (R246, R250,
R280). -/
def clearRxFlag (s : State) : State :=
  { s with env := { s.env with rxCompletePending := false, rxCompleteWords := none } }

/-- Entry to an interrupt (R271, R276): which adapter operation is due, transmit-complete first (R251). Nothing is saved
or switched on entry. -/
def interruptDue (s : State) : Option Instr :=
  if txCauseDue s then some (.iaTxIrq s.env.txCompleteSlot)
  else if rxCauseDue s then some (.iaRxIrq s.env.rxCompleteSlot)
  else none

/-- The state a failed initialisation leaves: `Failed`, every other element of the block unspecified (R55, U12). -/
def failedInit (s : State) : State :=
  { s with
    tx := ⟨undefinedBuffer s.freeCount 0 s.tx.rb, if Config.freeSending s.freeCount then .sending else .idle⟩
    rx := ⟨undefinedBuffer s.freeCount 5 s.rx.rb, Config.freeNat s.freeCount 10⟩
    initState := .failed
    freeCount := s.freeCount + 1 }

/-- `SYS.INIT` (R301): both ring buffers, the two wrappers, `init_state`; ENV is not touched (R303). -/
def initBlock (s : State) : Status × State :=
  match rbInit s.freeCount s.tx.rb s.cfg.txCapacity, rbInit s.freeCount s.rx.rb s.cfg.rxCapacity with
  | (.ok, r1), (.ok, r2) => (.ok, { s with tx := ⟨r1, .idle⟩, rx := ⟨r2, 0⟩, initState := .ready })
  | _, _ => (.capacityError, failedInit s)

/-- The block before its first reset, for the build `cfg` (R33, R300): `Uninit`, every other element of the block
unspecified. -/
def State.powerOn (cfg : Config) : State :=
  { failedInit (State.resetOf cfg) with initState := .uninit }

/-- What a step answers when an operation stops before its end. -/
def stopOutcome : Stop → Host.Outcome State Fault Refusal
  | .fault f => .fault f
  | .refused r => .refused r

/-- What a step answers when an operation ends in a state or stops. -/
def finish : Except Stop State → Host.Outcome State Fault Refusal
  | .ok s => .next s
  | .error e => stopOutcome e

/-- What a step answers when an operation ends in a state whose result code goes to the response port. -/
def finishStatus : Except Stop (Status × State) → Host.Outcome State Fault Refusal
  | .ok (st, s) => .next (respond s st .none)
  | .error e => stopOutcome e

end Sys2Proof.Machine
end

