-- ==== Sys2Proof/Machine/FrameCodec.lean ====
section
/-! DEFINITION. The FrameCodec family (R160): `FC.ENCODE`, `FC.DECODE`, `FC.SERIALIZE`, `FC.DESERIALIZE`. They read no
state; their result goes to the response port. -/

namespace Sys2Proof.Machine

/-- `FC.ENCODE` (R161). -/
def execFcEncode (frame : CanFrame) (s : State) : Host.Outcome State Fault Refusal :=
  .next (respond s .ok (.words (encodeFrame frame)))

/-- `FC.DECODE` (R165). -/
def execFcDecode (words : WireWords) (slot : Slot) (s : State) : Host.Outcome State Fault Refusal :=
  .next (respond s .ok (.frame (decodeFrame words (fitSlot s.cfg slot))))

/-- `FC.SERIALIZE` (R170). -/
def execFcSerialize (frame : CanFrame) (s : State) : Host.Outcome State Fault Refusal :=
  .next (respond s .ok (.serialized (serializeFrame (fitFrame s.cfg frame))))

/-- `FC.DESERIALIZE` (R171). -/
def execFcDeserialize (bytes : Ser16) (s : State) : Host.Outcome State Fault Refusal :=
  .next (respond s .ok (.frame (fitFrame s.cfg (deserializeFrame bytes))))

end Sys2Proof.Machine
end

