-- ==== Sys2Proof/Machine/InterruptAdapter.lean ====
section
/-! DEFINITION. The InterruptAdapter family: `IA.TX_IRQ` (R248) and `IA.RX_IRQ` (R249). Each performs its queue operation,
drops its result, and clears its cause's flag last (R250). A cause is serviced only when its flag is set and the block
is `Ready` (R271); otherwise nothing happens. -/

namespace Sys2Proof.Machine

/-- `IA.TX_IRQ` (R248): the delivered slot is not used (D22). -/
def execIaTxIrq (_slot : Slot) (s : State) : Host.Outcome State Fault Refusal :=
  if txCauseDue s then
    match onHardwareComplete s with
    | .ok (_, s1) => .next (clearTxFlag s1)
    | .error e => stopOutcome e
  else .next s

/-- `IA.RX_IRQ` (R249): the words of the delivered slot, `RX.ON_FRAME`, then the clear. -/
def execIaRxIrq (slot : Slot) (s : State) : Host.Outcome State Fault Refusal :=
  if rxCauseDue s then
    match onFrameReceived (hardwareReceiveWords (fitSlot s.cfg slot) s).1 (fitSlot s.cfg slot)
        (hardwareReceiveWords (fitSlot s.cfg slot) s).2 with
    | .ok (_, s1) => .next (clearRxFlag s1)
    | .error e => stopOutcome e
  else .next s

end Sys2Proof.Machine
end

