-- ==== Sys2Proof/Machine/ReceiveQueue.lean ====
section
/-! DEFINITION. The ReceiveQueue family: `RX.ON_FRAME` (R220), `RX.DEQUEUE` (R222), `RX.PENDING_COUNT` (R223),
`RX.OVERFLOW_COUNT` (R224). -/

namespace Sys2Proof.Machine

/-- `RX.ON_FRAME` (R220). -/
def execRxOnFrame (words : WireWords) (slot : Slot) (s : State) : Host.Outcome State Fault Refusal :=
  finishStatus (onFrameReceived words (fitSlot s.cfg slot) s)

/-- `RX.DEQUEUE`, API `receive` (R222): the emptiness test is on `pending_count`. -/
def execRxDequeue (s : State) : Host.Outcome State Fault Refusal :=
  if isReady s then
    if s.rx.pendingCount = 0 then .next (respond s .empty .none)
    else
      match dequeueFrame s with
      | .ok (f, s1) => .next (respond s1 .ok (.frame f))
      | .error e => stopOutcome e
  else .next (respond s .notInitialised .none)

/-- `RX.PENDING_COUNT` (R223). -/
def execRxPendingCount (s : State) : Host.Outcome State Fault Refusal :=
  if isReady s then .next (respondCount s s.rx.pendingCount)
  else .next (respond s .notInitialised .none)

/-- `RX.OVERFLOW_COUNT` (R224). -/
def execRxOverflowCount (s : State) : Host.Outcome State Fault Refusal :=
  if isReady s then .next (respondCount s s.rx.rb.overflowCount)
  else .next (respond s .notInitialised .none)

end Sys2Proof.Machine
end

