-- ==== Sys2Proof/Machine/RingBuffer.lean ====
section
/-! DEFINITION. The RingBuffer family as operations in their own right (R130): `RB.INIT`, `RB.WRITE_BYTE`,
`RB.READ_BYTE`, `RB.PEEK_MANY`, `RB.RESET`. Each touches the instance `q` alone. -/

namespace Sys2Proof.Machine

/-- `RB.INIT` (R131). A `CapacityError` leaves no element of `q` defined: they are drawn as free values. -/
def execRbInit (q : QSel) (capacity : Nat) (s : State) : Host.Outcome State Fault Refusal :=
  match rbInit s.freeCount (getBuffer s q) capacity with
  | (.ok, r) => .next (respond (setBuffer s q r) .ok .none)
  | (st, r) => .next (respond { setBuffer s q r with freeCount := s.freeCount + 1 } st .none)

/-- `RB.WRITE_BYTE` (R132). -/
def execRbWriteByte (q : QSel) (byte : Byte) (s : State) : Host.Outcome State Fault Refusal :=
  match rbWriteByte s.cfg.cntW (getBuffer s q) byte with
  | .ok (st, r) => .next (respond (setBuffer s q r) st .none)
  | .error e => stopOutcome e

/-- `RB.READ_BYTE` (R133). -/
def execRbReadByte (q : QSel) (s : State) : Host.Outcome State Fault Refusal :=
  match rbReadByte q (getBuffer s q) with
  | .ok (some b, r) => .next (respond (setBuffer s q r) .ok (.byte b))
  | .ok (none, r) => .next (respond (setBuffer s q r) .empty .none)
  | .error e => stopOutcome e

/-- `RB.PEEK_MANY` (R134). -/
def execRbPeekMany (q : QSel) (n : Nat) (s : State) : Host.Outcome State Fault Refusal :=
  match rbPeekMany q (getBuffer s q) n with
  | .ok bs => .next (respond s .ok (.bytes bs))
  | .error e => stopOutcome e

/-- `RB.RESET` (R135). -/
def execRbReset (q : QSel) (s : State) : Host.Outcome State Fault Refusal :=
  .next (respond (setBuffer s q (rbReset (getBuffer s q))) .ok .none)

end Sys2Proof.Machine
end

