-- ==== Sys2Proof/Machine/System.lean ====
section
/-! DEFINITION. `SYS.INIT` (R301) and the two primitives of ENV as operations: `HW.TRANSMIT` (R240) and
`HW.RECEIVE_WORDS` (R241). -/

namespace Sys2Proof.Machine

/-- `SYS.INIT` (R301). -/
def execSysInit (s : State) : Host.Outcome State Fault Refusal :=
  .next (respond (initBlock s).2 (initBlock s).1 .none)

/-- `HW.TRANSMIT` (R240): it returns nothing, so the response port keeps what it holds (R267). -/
def execHwTransmit (slot : Slot) (words : WireWords) (s : State) : Host.Outcome State Fault Refusal :=
  .next (hardwareTransmit (fitSlot s.cfg slot) words s)

/-- `HW.RECEIVE_WORDS` (R241): it returns the words and no result code (R267). -/
def execHwReceiveWords (slot : Slot) (s : State) : Host.Outcome State Fault Refusal :=
  .next (respondData (hardwareReceiveWords (fitSlot s.cfg slot) s).2
    (.words (hardwareReceiveWords (fitSlot s.cfg slot) s).1))

end Sys2Proof.Machine
end

