-- ==== Sys2Proof/Machine/TransmitQueue.lean ====
section
/-! DEFINITION. The TransmitQueue family: `TX.ENQUEUE` (R191), `TX.ON_COMPLETE` (R193), `TX.OVERFLOW_COUNT` (R200). -/

namespace Sys2Proof.Machine

/-- `TX.ENQUEUE`, API `transmit` (R191): `NotInitialised` before anything else (R274). -/
def execTxEnqueue (frame : CanFrame) (s : State) : Host.Outcome State Fault Refusal :=
  if isReady s then finishStatus (enqueueFrame (fitFrame s.cfg frame) s)
  else .next (respond s .notInitialised .none)

/-- `TX.ON_COMPLETE` (R193): it tests no `init_state` (R267). -/
def execTxOnComplete (s : State) : Host.Outcome State Fault Refusal :=
  finishStatus (onHardwareComplete s)

/-- `TX.OVERFLOW_COUNT` (R200). -/
def execTxOverflowCount (s : State) : Host.Outcome State Fault Refusal :=
  if isReady s then .next (respondCount s s.tx.rb.overflowCount)
  else .next (respond s .notInitialised .none)

end Sys2Proof.Machine
end

