-- ==== Sys2Proof/Machine/WireClasses.lean ====
section
/-! DEFINITION. The four wire frame classes (R97) as requests to the codec: the frame that `FC.DECODE` gives for words
of that class (R165), written class by class from the table of R97, with the slot that arrives beside the words (R108). -/

namespace Sys2Proof.Machine

/-- `WIRE.STD.DATA`: the identifier is SID, the data is B0 to B7 (R97, R106). -/
def execWireStdData (sid : BitVec 11) (dlc : BitVec 4) (data : Payload) (slot : Slot) (s : State) :
    Host.Outcome State Fault Refusal :=
  .next (respond s .ok (.frame ⟨sid.setWidth 29, .standard, .data, data, dlc, fitSlot s.cfg slot⟩))

/-- `WIRE.STD.RTR`: the identifier is SID; eight zero bytes whatever the payload words hold (R97, R169). -/
def execWireStdRtr (sid : BitVec 11) (dlc : BitVec 4) (_data : Payload) (slot : Slot) (s : State) :
    Host.Outcome State Fault Refusal :=
  .next (respond s .ok (.frame ⟨sid.setWidth 29, .standard, .remoteRequest, zeroPayload, dlc, fitSlot s.cfg slot⟩))

/-- `WIRE.EXT.DATA`: the identifier is SID, EID_MID, EID_LOW concatenated (R97, R105). -/
def execWireExtData (sid : BitVec 11) (mid : BitVec 12) (low : BitVec 6) (dlc : BitVec 4) (data : Payload) (slot : Slot)
    (s : State) : Host.Outcome State Fault Refusal :=
  .next (respond s .ok (.frame ⟨sid ++ mid ++ low, .extended, .data, data, dlc, fitSlot s.cfg slot⟩))

/-- `WIRE.EXT.RTR`: the identifier as for Extended Data; eight zero bytes whatever the payload words hold (R97, R169). -/
def execWireExtRtr (sid : BitVec 11) (mid : BitVec 12) (low : BitVec 6) (dlc : BitVec 4) (_data : Payload) (slot : Slot)
    (s : State) : Host.Outcome State Fault Refusal :=
  .next (respond s .ok (.frame ⟨sid ++ mid ++ low, .extended, .remoteRequest, zeroPayload, dlc, fitSlot s.cfg slot⟩))

end Sys2Proof.Machine
end

