-- ==== Sys2Proof/Machine/Dispatch.lean ====
section
/-! DEFINITION. One arm per row of the opcode table. -/

namespace Sys2Proof.Machine

def exec (i : Instr) (s : State) : Host.Outcome State Fault Refusal :=
  match i with
  | .sysInit => Sys2Proof.Machine.execSysInit s
  | .rbInit q capacity => Sys2Proof.Machine.execRbInit q capacity s
  | .rbWriteByte q byte => Sys2Proof.Machine.execRbWriteByte q byte s
  | .rbReadByte q => Sys2Proof.Machine.execRbReadByte q s
  | .rbPeekMany q n => Sys2Proof.Machine.execRbPeekMany q n s
  | .rbReset q => Sys2Proof.Machine.execRbReset q s
  | .fcEncode frame => Sys2Proof.Machine.execFcEncode frame s
  | .fcDecode words slot => Sys2Proof.Machine.execFcDecode words slot s
  | .fcSerialize frame => Sys2Proof.Machine.execFcSerialize frame s
  | .fcDeserialize bytes => Sys2Proof.Machine.execFcDeserialize bytes s
  | .txEnqueue frame => Sys2Proof.Machine.execTxEnqueue frame s
  | .txOnComplete => Sys2Proof.Machine.execTxOnComplete s
  | .txOverflowCount => Sys2Proof.Machine.execTxOverflowCount s
  | .rxOnFrame words slot => Sys2Proof.Machine.execRxOnFrame words slot s
  | .rxDequeue => Sys2Proof.Machine.execRxDequeue s
  | .rxPendingCount => Sys2Proof.Machine.execRxPendingCount s
  | .rxOverflowCount => Sys2Proof.Machine.execRxOverflowCount s
  | .iaTxIrq slot => Sys2Proof.Machine.execIaTxIrq slot s
  | .iaRxIrq slot => Sys2Proof.Machine.execIaRxIrq slot s
  | .hwTransmit slot words => Sys2Proof.Machine.execHwTransmit slot words s
  | .hwReceiveWords slot => Sys2Proof.Machine.execHwReceiveWords slot s
  | .wireStdData sid dlc data slot => Sys2Proof.Machine.execWireStdData sid dlc data slot s
  | .wireStdRtr sid dlc data slot => Sys2Proof.Machine.execWireStdRtr sid dlc data slot s
  | .wireExtData sid mid low dlc data slot => Sys2Proof.Machine.execWireExtData sid mid low dlc data slot s
  | .wireExtRtr sid mid low dlc data slot => Sys2Proof.Machine.execWireExtRtr sid mid low dlc data slot s

end Sys2Proof.Machine
end

