-- ==== Sys2Proof/Machine/Ports.lean ====
section
/-! DEFINITION. What one step takes from the input ports (D2, R13): an operation to run, or an input that is none
(ENV's events, the reset input, an illegal code). Step.lean only calls these. -/

namespace Sys2Proof.Machine

/-- `s` with the oldest input taken. -/
def takeInput (s : State) (rest : List Input) : State := { s with inputs := rest }

/-- An illegal code on the foreground port: answered `IllegalOp`, nothing else changes (R118, R266). -/
def illegalOp (s : State) : State := respond s .illegalOp .none

/-- The reset input (R300): it performs `SYS.INIT`; no request is being answered, so no response stands (log entry 9). -/
def resetInput (s : State) : State := { (initBlock s).2 with response := none }

/-- A transmission completes (R244, R245): the flag with its slot; nothing is owed any more (R53).
DESIGN CHOICE: that is so too when two transmissions are outstanding, after a `SYS.INIT` while `Sending` and a further
`TX.ENQUEUE` (R322): the one bit is cleared by the first completion (log entry 14). -/
def raiseTxDone (slot : Slot) (e : Env) : Env :=
  { e with txCompletePending := true, txCompleteSlot := slot, txOutstanding := false }

/-- A frame is received into message object `slot` (R246): the words, and the flag with its slot. -/
def raiseRxFrame (slot : Slot) (w : WireWords) (e : Env) : Env :=
  { e with
    rxCompletePending := true
    rxCompleteSlot := slot
    rxCompleteWords := some w
    messageObjects := storeWrite e.messageObjects slot.toNat w }

/-- ENV presents no second event of a cause whose flag is set (R244). -/
def servesSerially (event : EnvEvent) (e : Env) : Bool :=
  !(event.txDone.isSome && e.txCompletePending) && !(event.rxFrame.isSome && e.rxCompletePending)

/-- The transmit half of an event of ENV, on the slot port of the build (R36). -/
def applyTxDone (cfg : Config) : Option Slot → Env → Env
  | none, e => e
  | some slot, e => raiseTxDone (fitSlot cfg slot) e

/-- The receive half of an event of ENV, on the slot port of the build (R36). -/
def applyRxFrame (cfg : Config) : Option (Slot × WireWords) → Env → Env
  | none, e => e
  | some (slot, w), e => raiseRxFrame (fitSlot cfg slot) w e

/-- An event of ENV (R244 to R247): it changes ENV's state alone. Outside the contract it is refused (U15). -/
def envInput (event : EnvEvent) (s : State) : Host.Outcome State Fault Refusal :=
  if servesSerially event s.env then
    .next { s with env := applyRxFrame s.cfg event.rxFrame (applyTxDone s.cfg event.txDone s.env) }
  else .refused .eventWhilePending

/-- The operation the next step runs, where there is one: the adapter operation that is due, else the decoded request at
the head of the inputs, which is then taken. -/
def nextOperation (s : State) : Option (Instr × State) :=
  match interruptDue s with
  | some i => some (i, s)
  | none =>
    match s.inputs with
    | .foreground op frame :: rest => (decodeForeground op frame).map fun i => (i, takeInput s rest)
    | .bench format bytes :: rest =>
      match decode format bytes with
      | .ok (i, _) => some (i, takeInput s rest)
      | .error _ => none
    | _ => none

/-- A bench request that is no operation is refused with the decoder's reason. -/
def benchInput (format : Format) (bytes : List Byte) (s : State) : Host.Outcome State Fault Refusal :=
  match decode format bytes with
  | .ok _ => .next s
  | .error reason => .refused (.undecodable reason)

/-- The step when no operation is to be run: an ENV event, the reset input, an illegal code, or nothing at all, when an
idle block takes no step (R292). -/
def otherInput (s : State) : Host.Outcome State Fault Refusal :=
  match s.inputs with
  | [] => .next s
  | .foreground _ _ :: rest => .next (illegalOp (takeInput s rest))
  | .bench format bytes :: rest => benchInput format bytes (takeInput s rest)
  | .reset :: rest => .next (resetInput (takeInput s rest))
  | .env event :: rest => envInput event (takeInput s rest)

/-- Both flags clear, so that no cause is due (used to place a request for the very next step). -/
def withoutCauses (s : State) : State :=
  { s with env := { s.env with txCompletePending := false, rxCompletePending := false } }

/-- `s` with the transmit-complete cause pending: the next step, if the block is `Ready`, is `IA.TX_IRQ` (R248). -/
def placeTxCause (slot : Slot) (s : State) : State :=
  { s with env := { s.env with txCompletePending := true, txCompleteSlot := fitSlot s.cfg slot } }

/-- `s` with the receive-complete cause alone pending: the next step, if the block is `Ready`, is `IA.RX_IRQ` (R249). -/
def placeRxCause (slot : Slot) (s : State) : State :=
  { s with env := { s.env with
      txCompletePending := false, rxCompletePending := true, rxCompleteSlot := fitSlot s.cfg slot } }

/-- `s` with a request placed where its issuer presents it (R111): the six foreground codes on the foreground port, an
adapter operation by its cause, every other operation and the wire classes on the bench (log entry 6). -/
def placeRequest (format : Format) (bytes : List Byte) (s : State) : State :=
  match format, bytes with
  | .op, code :: operands =>
    if code ∈ foregroundCodes then
      match takeSer16 operands with
      | some (frame, _) => { withoutCauses s with inputs := .foreground code frame :: s.inputs }
      | none => { withoutCauses s with inputs := .bench format bytes :: s.inputs }
    else
      match decodeOp bytes with
      | .ok (.iaTxIrq slot, _) => placeTxCause slot s
      | .ok (.iaRxIrq slot, _) => placeRxCause slot s
      | _ => { withoutCauses s with inputs := .bench format bytes :: s.inputs }
  | _, _ => { withoutCauses s with inputs := .bench format bytes :: s.inputs }

end Sys2Proof.Machine
end

