-- ==== Sys2Proof/Machine/Step.lean ====
section
/-! DEFINITION. One step of the machine: one whole operation of one agent (R78). -/

namespace Sys2Proof.Machine

/-- The operation that is due or waits, else what else stands on the input ports (R78, R273). -/
def step (s : State) : Host.Outcome State Fault Refusal :=
  match nextOperation s with
  | some (i, s1) => exec i s1
  | none => otherInput s

/-- `s` with a table word placed where the next step takes its operation (host interface, log entry 6). -/
def State.withFetchWord (s : State) (nbits w : Nat) : State :=
  placeRequest (tableRequest nbits w).1 (tableRequest nbits w).2 s

end Sys2Proof.Machine
end

