-- ==== Sys2Proof/Safety.lean ====
section
/-! DEFINITION. What a sound state of the block is, in the terms the statements use: the invariants that R27, R28, R30,
R32 and R198 give, and the contract of ENV that R198 presumes (R245, R312). -/

namespace Sys2Proof.Machine

/-- Cursor invariant (R27): `used <= capacity`, `head` is an index, `tail == (head + used) mod capacity`. -/
abbrev CursorInv (r : RingBuffer) : Prop :=
  r.used ≤ r.capacity ∧ r.head < r.capacity ∧ r.tail = (r.head + r.used) % r.capacity

/-- Frame-alignment invariant (R28), over a legal capacity (R21). -/
abbrev FrameAligned (r : RingBuffer) : Prop :=
  legalCapacity r.capacity = true ∧ Config.frameBytes ∣ r.used ∧ Config.frameBytes ∣ r.head ∧ Config.frameBytes ∣ r.tail

/-- Every byte that could be read has been written since the last initialisation (R26). -/
abbrev UsedWritten (r : RingBuffer) : Prop :=
  ∀ k < r.used, (storeRead r.storage ((r.head + k) % r.capacity)).isSome

/-- Only bytes that exist are listed (R26). -/
abbrev StorageInRange (r : RingBuffer) : Prop :=
  ∀ cell ∈ r.storage, cell.1 < r.capacity

/-- The overflow count fits its width (R25, R152). -/
abbrev CountInv (cntW : Nat) (r : RingBuffer) : Prop :=
  r.overflowCount ≤ 2 ^ cntW - 1

/-- All that holds of a ring buffer as a queue uses it, at every operation boundary. -/
abbrev BufferInv (cntW : Nat) (r : RingBuffer) : Prop :=
  CursorInv r ∧ FrameAligned r ∧ UsedWritten r ∧ StorageInRange r ∧ CountInv cntW r

/-- TransmitQueue invariants (R30): (a) `Idle` exactly when empty, (b) `Sending` holds at least the frame in flight,
(d) under `ResetAll`, `Idle` has a zero overflow count. -/
abbrev TransmitInv (cfg : Config) (q : TransmitQueue) : Prop :=
  (q.txState = .idle ↔ q.rb.used = 0) ∧
  (q.txState = .sending → Config.frameBytes ≤ q.rb.used) ∧
  (cfg.txOverflowPolicy = .resetAll → q.txState = .idle → q.rb.overflowCount = 0)

/-- ReceiveQueue invariant (R32). -/
abbrev ReceiveInv (q : ReceiveQueue) : Prop :=
  q.rb.used = q.pendingCount * Config.frameBytes

/-- The canonical form of every sparse store of a state (log entries 2 and 3). -/
abbrev StoresWf (s : State) : Prop :=
  Memory.wf s.tx.rb.storage ∧ Memory.wf s.rx.rb.storage ∧ storeWf s.env.messageObjects

/-- An input that the block has outside a test bench (R112, R285). -/
def notBench : Input → Bool
  | .bench _ _ => false
  | _ => true

/-- No component-level request waits: the block is driven by FG, ENV and the reset input alone (R13, R285). -/
abbrev NoBench (s : State) : Prop := ∀ i ∈ s.inputs, notBench i = true

/-- The capacities of a `Ready` block are those of its build (R21, R55). -/
abbrev CapacityInv (s : State) : Prop :=
  s.tx.rb.capacity = s.cfg.txCapacity ∧ s.rx.rb.capacity = s.cfg.rxCapacity

/-- The invariant of the block at every operation boundary. In `Uninit` and `Failed` the block's elements are
unspecified (R55, U12), so only the form of the stores remains. -/
abbrev BlockInv (s : State) : Prop :=
  StoresWf s ∧ NoBench s ∧
  (s.initState = .ready →
    CapacityInv s ∧ BufferInv s.cfg.cntW s.tx.rb ∧ BufferInv s.cfg.cntW s.rx.rb ∧ TransmitInv s.cfg s.tx ∧
      ReceiveInv s.rx)

/-- ENV owes nothing and has nothing to report on the transmit side (R303, R312). -/
abbrev TransmitQuiet (s : State) : Prop :=
  s.env.txOutstanding = false ∧ s.env.txCompletePending = false

/-- `Sending` is exactly "one transmission outstanding, or its completion not yet processed", never both (R190, R198). -/
abbrev FlightInv (s : State) : Prop :=
  s.initState = .ready →
    (s.tx.txState = .sending ↔ (s.env.txOutstanding = true ∨ s.env.txCompletePending = true)) ∧
    ¬(s.env.txOutstanding = true ∧ s.env.txCompletePending = true)

/-- The contract on the input that is taken next: a completion only for an outstanding transmission (R245), and a
re-initialisation only while the peripheral is quiet (R312, R322). -/
abbrev EnvObeys (s : State) : Prop :=
  match interruptDue s, s.inputs with
  | none, .env event :: _ => event.txDone.isSome = true → s.env.txOutstanding = true
  | none, .reset :: _ => TransmitQuiet s
  | none, .foreground op _ :: _ => op = 0x00 → TransmitQuiet s
  | _, _ => True

/-- Is the call a `HW.TRANSMIT`? -/
def isTransmit : HwEvent → Bool
  | .transmit _ _ => true
  | .receiveWords _ => false

/-- How many `HW.TRANSMIT` calls the trace holds (R198). -/
def transmitCount (s : State) : Nat := s.trace.countP isTransmit

/-- The valid bytes of a ring buffer, oldest first: the `used` bytes from `head`, wrapping at `capacity` (R22, R73). -/
def contents (q : QSel) (r : RingBuffer) : List Byte :=
  (List.range r.used).map fun k => storageByte q r ((r.head + k) % r.capacity)

/-- A slot identifier has no bit above the `SLOT_W` of the build (R7, R100). -/
abbrev SlotFits (cfg : Config) (slot : Slot) : Prop := slot.toNat < 2 ^ cfg.slotW.val

/-- The slot operand of a call out of the block (R240, R241). -/
def callSlot : HwEvent → Slot
  | .transmit slot _ => slot
  | .receiveWords slot => slot

/-- The slots a response carries: that of its frame, or of its serialized frame (R98). -/
def responseSlots : Option Response → List Slot
  | some ⟨_, .frame f⟩ => [f.hardwareSlot]
  | some ⟨_, .serialized b⟩ => [b.b4]
  | _ => []

/-- Every slot of the state has `SLOT_W` bits (R7, R36, R47): those ENV delivers, those it holds objects for, those of the
calls out of the block and that of the last response. -/
abbrev SlotInv (s : State) : Prop :=
  SlotFits s.cfg s.env.txCompleteSlot ∧ SlotFits s.cfg s.env.rxCompleteSlot ∧
  (∀ object ∈ s.env.messageObjects, object.1 < 2 ^ s.cfg.slotW.val) ∧
  (∀ call ∈ s.trace, SlotFits s.cfg (callSlot call)) ∧
  (∀ slot ∈ responseSlots s.response, SlotFits s.cfg slot)

/-- The operations that construct the ring buffer `q` (R131, R301). -/
abbrev Constructs (q : QSel) (i : Instr) : Prop := i = .sysInit ∨ ∃ capacity, i = .rbInit q capacity

/-- The operations that process a transmit-complete (R193, R248). -/
abbrev ProcessesCompletion (i : Instr) : Prop := i = .txOnComplete ∨ ∃ slot, i = .iaTxIrq slot

/-- The operations that process a reception (R220, R249). -/
abbrev ProcessesReception (i : Instr) : Prop := (∃ w slot, i = .rxOnFrame w slot) ∨ ∃ slot, i = .iaRxIrq slot

/-- The frames of a byte sequence, sixteen bytes each (R98). -/
def framesOf : List Byte → List CanFrame
  | b0 :: b1 :: b2 :: b3 :: b4 :: b5 :: b6 :: b7 :: b8 :: b9 :: b10 :: b11 :: b12 :: b13 :: b14 :: b15 :: rest =>
    deserializeFrame ⟨b0, b1, b2, b3, b4, b5, b6, b7, b8, b9, b10, b11, b12, b13, b14, b15⟩ :: framesOf rest
  | _ => []

/-- The frames queued for transmission, the frame in flight first (R30, R80), each with the slot bits of the build. -/
def txFrames (s : State) : List CanFrame := (framesOf (contents .tx s.tx.rb)).map (fitFrame s.cfg)

/-- The received frames waiting for the consumer, oldest first (R80), each with the slot bits of the build. -/
def rxFrames (s : State) : List CanFrame := (framesOf (contents .rx s.rx.rb)).map (fitFrame s.cfg)

/-- Whole-frame writes of a list of frames, none of them refused (R153). -/
def writeFrames (cntW : Nat) : RingBuffer → List Ser16 → Option RingBuffer
  | r, [] => some r
  | r, f :: fs =>
    match rbWriteFrame cntW r (ser16Bytes f) with
    | .ok (.ok, r1) => writeFrames cntW r1 fs
    | _ => none

/-- `n` whole-frame reads, the frames in the order read (R153). -/
def readFrames (q : QSel) : Nat → RingBuffer → Option (List Ser16 × RingBuffer)
  | 0, r => some ([], r)
  | n + 1, r =>
    match rbReadFrame q r with
    | .ok (f, r1) => (readFrames q n r1).map fun p => (f :: p.1, p.2)
    | .error _ => none

/-- Does a response carry the result code `Ok`? -/
def answeredOk (s : State) : Bool := s.response.bind Response.status == some .ok

/-- `RX.ON_FRAME` for words and a slot, `RX.DEQUEUE` for none. -/
def receiveOp : Option (WireWords × Slot) → Instr
  | some (w, slot) => .rxOnFrame w slot
  | none => .rxDequeue

/-- Run receive-side operations in order: the state they end in, how many `RX.ON_FRAME` answered `Ok`, and how many
`RX.DEQUEUE` found a frame (R225); none if one of them stops. -/
def receiveRun : List (Option (WireWords × Slot)) → State → Option (State × Nat × Nat)
  | [], s => some (s, 0, 0)
  | op :: ops, s =>
    match exec (receiveOp op) s with
    | .next t =>
      (receiveRun ops t).map fun p =>
        (p.1, p.2.1 + (if op.isSome && answeredOk t then 1 else 0), p.2.2 + (if op.isNone && answeredOk t then 1 else 0))
    | _ => none

/-- The next step initialises the block again: the reset input or code 0x00 on the foreground port, with no cause due
(R300, R301). -/
abbrev Reinitialises (s : State) : Prop :=
  interruptDue s = none ∧
  ((∃ rest, s.inputs = .reset :: rest) ∨ (∃ frame rest, s.inputs = .foreground 0x00 frame :: rest))

/-- Two states that agree on everything but which free values their unwritten storage bytes hold (R26, U11). -/
abbrev SameButUnwritten (s s' : State) : Prop :=
  s' = { s with
    tx := { s.tx with rb := { s.tx.rb with storageEpoch := s'.tx.rb.storageEpoch } }
    rx := { s.rx with rb := { s.rx.rb with storageEpoch := s'.rx.rb.storageEpoch } } }

/-- What an `RB.*` operation on `q` leaves alone (R130): the other instance, the queues' own elements, ENV, the ports and
the calls. -/
abbrev OutsideBufferSame (q : QSel) (s t : State) : Prop :=
  (∀ p, p ≠ q → getBuffer t p = getBuffer s p) ∧ t.tx.txState = s.tx.txState ∧
  t.rx.pendingCount = s.rx.pendingCount ∧ t.initState = s.initState ∧ t.env = s.env ∧ t.inputs = s.inputs ∧
  t.trace = s.trace ∧ t.cfg = s.cfg

end Sys2Proof.Machine
end

