-- ==== Sys2Proof/Certificates/Slice0/Obligations.lean ====
section
/-! DEFINITION. The statements for the provers. Each docstring names the rule of the spec it formalises. -/

open Sys2Proof Sys2Proof.Machine

/-! ### Reset and initialisation -/

/-- R300, R301, R55: the reset input performs `SYS.INIT`, touches nothing of ENV and calls nothing; legal capacities
leave the values of R55, an illegal one leaves `Failed`. (That no response stands afterwards is log entry 9, not
stated here.) -/
def Obligations.ResetInputInitialises : Prop :=
  ∀ (s : State) (rest : List Input), s.inputs = .reset :: rest → interruptDue s = none →
    ∃ t, step s = .next t ∧ t.cfg = s.cfg ∧ t.env = s.env ∧ t.trace = s.trace ∧ t.inputs = rest ∧
      ((s.cfg.txCapacity ≠ 0 ∧ s.cfg.txCapacity % 16 = 0 ∧ s.cfg.rxCapacity ≠ 0 ∧ s.cfg.rxCapacity % 16 = 0 →
          t.tx.rb.capacity = s.cfg.txCapacity ∧ t.tx.rb.used = 0 ∧ t.tx.rb.head = 0 ∧ t.tx.rb.tail = 0 ∧
          t.tx.rb.overflowCount = 0 ∧ t.tx.txState = .idle ∧
          t.rx.rb.capacity = s.cfg.rxCapacity ∧ t.rx.rb.used = 0 ∧ t.rx.rb.head = 0 ∧ t.rx.rb.tail = 0 ∧
          t.rx.rb.overflowCount = 0 ∧ t.rx.pendingCount = 0 ∧ t.initState = .ready) ∧
        (¬(s.cfg.txCapacity ≠ 0 ∧ s.cfg.txCapacity % 16 = 0 ∧ s.cfg.rxCapacity ≠ 0 ∧ s.cfg.rxCapacity % 16 = 0) →
          t.initState = .failed))

/-- R301: `SYS.INIT` always completes, with `Ok` and the state of R55 when both capacities are legal, and with
`CapacityError` and `Failed` otherwise; it does not touch ENV and calls neither primitive. -/
def Obligations.SysInitConstructsBothQueues : Prop :=
  ∀ s : State,
    ∃ t, exec .sysInit s = .next t ∧ t.cfg = s.cfg ∧ t.env = s.env ∧ t.trace = s.trace ∧ t.inputs = s.inputs ∧
      ((s.cfg.txCapacity ≠ 0 ∧ s.cfg.txCapacity % 16 = 0 ∧ s.cfg.rxCapacity ≠ 0 ∧ s.cfg.rxCapacity % 16 = 0 →
          t.response = some ⟨some .ok, .none⟩ ∧
          t.tx.rb.capacity = s.cfg.txCapacity ∧ t.tx.rb.used = 0 ∧ t.tx.rb.head = 0 ∧ t.tx.rb.tail = 0 ∧
          t.tx.rb.overflowCount = 0 ∧ t.tx.txState = .idle ∧
          t.rx.rb.capacity = s.cfg.rxCapacity ∧ t.rx.rb.used = 0 ∧ t.rx.rb.head = 0 ∧ t.rx.rb.tail = 0 ∧
          t.rx.rb.overflowCount = 0 ∧ t.rx.pendingCount = 0 ∧ t.initState = .ready) ∧
        (¬(s.cfg.txCapacity ≠ 0 ∧ s.cfg.txCapacity % 16 = 0 ∧ s.cfg.rxCapacity ≠ 0 ∧ s.cfg.rxCapacity % 16 = 0) →
          t.response = some ⟨some .capacityError, .none⟩ ∧ t.initState = .failed))

/-- R302: the machine after reset, for any build with legal capacities: all cursors and counters 0, `Idle`, `pending_count`
0, `Ready`, no cause due. (An illegal capacity makes the reset fail: ResetInputInitialises.) -/
def Obligations.ResetStateValues : Prop :=
  ∀ cfg : Config, cfg.txCapacity ≠ 0 → cfg.txCapacity % 16 = 0 → cfg.rxCapacity ≠ 0 → cfg.rxCapacity % 16 = 0 →
    let s := State.resetOf cfg
    s.cfg = cfg ∧ s.tx.rb.capacity = cfg.txCapacity ∧ s.rx.rb.capacity = cfg.rxCapacity ∧
    s.tx.rb.used = 0 ∧ s.tx.rb.head = 0 ∧ s.tx.rb.tail = 0 ∧ s.tx.rb.overflowCount = 0 ∧ s.tx.txState = .idle ∧
    s.rx.rb.used = 0 ∧ s.rx.rb.head = 0 ∧ s.rx.rb.tail = 0 ∧ s.rx.rb.overflowCount = 0 ∧ s.rx.pendingCount = 0 ∧
    s.initState = .ready ∧ interruptDue s = none

/-! ### RingBuffer -/

/-- R131, R130: `RB.INIT` always completes: `Ok` and an empty buffer of that capacity, or `CapacityError` exactly when the
capacity is zero or not frame-aligned. Nothing outside `q` changes. -/
def Obligations.RbInitResult : Prop :=
  ∀ (q : QSel) (c : Nat) (s : State),
    ∃ t, exec (.rbInit q c) s = .next t ∧ OutsideBufferSame q s t ∧
      (c ≠ 0 ∧ c % 16 = 0 →
        t.response = some ⟨some .ok, .none⟩ ∧ (getBuffer t q).capacity = c ∧ (getBuffer t q).used = 0 ∧
        (getBuffer t q).head = 0 ∧ (getBuffer t q).tail = 0 ∧ (getBuffer t q).overflowCount = 0) ∧
      (¬(c ≠ 0 ∧ c % 16 = 0) → t.response = some ⟨some .capacityError, .none⟩)

/-- R132: `RB.WRITE_BYTE` on a full buffer answers `Overflow` and counts once, saturating; on any other it stores the byte
at `tail`, advances `tail` modulo `capacity` and increments `used`. Every other byte reads as before. -/
def Obligations.RbWriteByteResult : Prop :=
  ∀ (q : QSel) (b : Byte) (s : State),
    ((getBuffer s q).used = (getBuffer s q).capacity →
      ∃ t, exec (.rbWriteByte q b) s = .next t ∧ OutsideBufferSame q s t ∧
        t.response = some ⟨some .overflow, .none⟩ ∧
        getBuffer t q = { getBuffer s q with
          overflowCount := if (getBuffer s q).overflowCount < 2 ^ s.cfg.cntW - 1 then (getBuffer s q).overflowCount + 1
            else (getBuffer s q).overflowCount }) ∧
    ((getBuffer s q).used ≠ (getBuffer s q).capacity → (getBuffer s q).tail < (getBuffer s q).capacity →
      ∃ t, exec (.rbWriteByte q b) s = .next t ∧ OutsideBufferSame q s t ∧
        t.response = some ⟨some .ok, .none⟩ ∧
        (getBuffer t q).used = (getBuffer s q).used + 1 ∧
        (getBuffer t q).tail = ((getBuffer s q).tail + 1) % (getBuffer s q).capacity ∧
        (getBuffer t q).head = (getBuffer s q).head ∧ (getBuffer t q).capacity = (getBuffer s q).capacity ∧
        (getBuffer t q).overflowCount = (getBuffer s q).overflowCount ∧
        ∀ a, storageByte q (getBuffer t q) a =
          if a = (getBuffer s q).tail then b else storageByte q (getBuffer s q) a)

/-- R133: `RB.READ_BYTE` on an empty buffer answers `Empty` and changes nothing; on any other it returns the byte at `head`,
advances `head` modulo `capacity` and decrements `used`; no storage byte is erased. -/
def Obligations.RbReadByteResult : Prop :=
  ∀ (q : QSel) (s : State),
    ((getBuffer s q).used = 0 →
      ∃ t, exec (.rbReadByte q) s = .next t ∧ OutsideBufferSame q s t ∧ t.response = some ⟨some .empty, .none⟩ ∧
        getBuffer t q = getBuffer s q) ∧
    ((getBuffer s q).used ≠ 0 → (getBuffer s q).head < (getBuffer s q).capacity →
      ∃ t, exec (.rbReadByte q) s = .next t ∧ OutsideBufferSame q s t ∧
        t.response = some ⟨some .ok, .byte (storageByte q (getBuffer s q) (getBuffer s q).head)⟩ ∧
        getBuffer t q = { getBuffer s q with
          head := ((getBuffer s q).head + 1) % (getBuffer s q).capacity
          used := (getBuffer s q).used - 1 })

/-- R134: `RB.PEEK_MANY` returns `min(n, used)` bytes, oldest first, at `(head + i) mod capacity`, and writes no state. -/
def Obligations.RbPeekManyResult : Prop :=
  ∀ (q : QSel) (n : Nat) (s : State), (min n (getBuffer s q).used ≠ 0 → 0 < (getBuffer s q).capacity) →
    exec (.rbPeekMany q n) s = .next { s with
      response := some ⟨some .ok, .bytes ((List.range (min n (getBuffer s q).used)).map fun i =>
        storageByte q (getBuffer s q) (((getBuffer s q).head + i) % (getBuffer s q).capacity))⟩ }

/-- R135: `RB.RESET` zeroes `used`, `head`, `tail` and `overflow_count`; capacity and every storage byte stay. -/
def Obligations.RbResetResult : Prop :=
  ∀ (q : QSel) (s : State),
    ∃ t, exec (.rbReset q) s = .next t ∧ OutsideBufferSame q s t ∧
      (getBuffer t q).used = 0 ∧ (getBuffer t q).head = 0 ∧ (getBuffer t q).tail = 0 ∧
      (getBuffer t q).overflowCount = 0 ∧ (getBuffer t q).capacity = (getBuffer s q).capacity ∧
      ∀ a, storageByte q (getBuffer t q) a = storageByte q (getBuffer s q) a

/-- R10, R26: a storage index that does not exist is no location; a byte read, peeked or written there stops with the fault of
that name. (A stop of the model outside the cursor invariant R27, log entry 12.) -/
def Obligations.StorageIndexFault : Prop :=
  ∀ (q : QSel) (b : Byte) (n : Nat) (s : State),
    ((getBuffer s q).used ≠ 0 → (getBuffer s q).capacity ≤ (getBuffer s q).head →
      exec (.rbReadByte q) s = .fault .storageIndex) ∧
    ((getBuffer s q).used ≠ (getBuffer s q).capacity → (getBuffer s q).capacity ≤ (getBuffer s q).tail →
      exec (.rbWriteByte q b) s = .fault .storageIndex) ∧
    (min n (getBuffer s q).used ≠ 0 → (getBuffer s q).capacity = 0 →
      exec (.rbPeekMany q n) s = .fault .storageIndex)

/-- R134: a peek followed by as many `RB.READ_BYTE` operations returns the same bytes in the same order. -/
def Obligations.PeekThenReadAgree : Prop :=
  ∀ (q : QSel) (n : Nat) (r : RingBuffer), CursorInv r → n ≤ r.used →
    ∃ bs r', rbPeekMany q r n = .ok bs ∧ rbReadBytes q n r = .ok (bs, r') ∧ bs.length = n

/-- R137: in a queue, a whole-frame write is all or nothing: refused on a full buffer with one count and nothing stored,
else all sixteen bytes are appended to what the buffer holds, at `(tail + k) mod capacity`, and the invariants R26 to R28
stay. -/
def Obligations.FrameWriteAllOrNothing : Prop :=
  ∀ (q : QSel) (cntW : Nat) (r : RingBuffer) (f : Ser16), BufferInv cntW r →
    (r.used = r.capacity →
      rbWriteFrame cntW r (ser16Bytes f) = .ok (.overflow, { r with overflowCount := satInc cntW r.overflowCount })) ∧
    (r.used ≠ r.capacity →
      ∃ r', rbWriteFrame cntW r (ser16Bytes f) = .ok (.ok, r') ∧ BufferInv cntW r' ∧
        contents q r' = contents q r ++ ser16Bytes f ∧ r'.used = r.used + 16 ∧ r'.head = r.head ∧
        r'.capacity = r.capacity ∧ r'.overflowCount = r.overflowCount ∧
        ∀ a, (∀ k < 16, a ≠ (r.tail + k) % r.capacity) → storageByte q r' a = storageByte q r a)

/-- R153: the FIFO law. From an empty queue buffer, `N` whole-frame writes that fit are all accepted, and `N` reads then
return the same frames in the same order, byte-identical, and leave the buffer empty with both cursors `N` frames on,
modulo `capacity`. -/
def Obligations.FifoLaw : Prop :=
  ∀ (q : QSel) (cntW : Nat) (r : RingBuffer) (frames : List Ser16), BufferInv cntW r → r.used = 0 →
    frames.length * 16 ≤ r.capacity →
    ∃ r1 r2, writeFrames cntW r frames = some r1 ∧ readFrames q frames.length r1 = some (frames, r2) ∧
      r2.used = 0 ∧ r2.head = (r.head + frames.length * 16) % r.capacity ∧ r2.tail = r2.head

/-- R154: enqueuing onto a full buffer leaves `used`, `head`, `tail` and every storage byte as they were and increments
`overflow_count` by exactly 1 (below its maximum, R152). -/
def Obligations.OverflowLaw : Prop :=
  ∀ (q : QSel) (cntW : Nat) (r : RingBuffer) (f : Ser16), r.used = r.capacity →
    ∃ r', rbWriteFrame cntW r (ser16Bytes f) = .ok (.overflow, r') ∧ r'.used = r.used ∧ r'.head = r.head ∧
      r'.tail = r.tail ∧ (∀ a, storageByte q r' a = storageByte q r a) ∧
      (r.overflowCount < 2 ^ cntW - 1 → r'.overflowCount = r.overflowCount + 1)

/-! ### FrameCodec and wire frame classes -/

/-- R91, R161: `FC.ENCODE` completes with `Ok`, writes no state, and every bit of the seven words is what the field table
gives it: named fields in place, unnamed bits 0, the remote-request flag in `w0[1]` and `w2[9]` (R162). -/
def Obligations.EncodePlacesEveryField : Prop :=
  ∀ (f : CanFrame) (s : State),
    ∃ w : WireWords, exec (.fcEncode f) s = .next { s with response := some ⟨some .ok, .words w⟩ } ∧
      w.w0.getLsbD 0 = decide (f.frameKind = .extended) ∧
      w.w0.getLsbD 1 = decide (f.payloadKind = .remoteRequest) ∧
      w.w0.extractLsb' 2 11 =
        (if f.frameKind = .extended then f.identifier.extractLsb' 18 11 else f.identifier.extractLsb' 0 11) ∧
      w.w0.extractLsb' 13 3 = 0 ∧
      w.w1.extractLsb' 0 12 = (if f.frameKind = .extended then f.identifier.extractLsb' 6 12 else 0) ∧
      w.w1.extractLsb' 12 4 = 0 ∧
      w.w2.extractLsb' 0 4 = f.validLength ∧ w.w2.extractLsb' 4 5 = 0 ∧
      w.w2.getLsbD 9 = decide (f.payloadKind = .remoteRequest) ∧
      w.w2.extractLsb' 10 6 = (if f.frameKind = .extended then f.identifier.extractLsb' 0 6 else 0) ∧
      w.w3 = f.data.b1 ++ f.data.b0 ∧ w.w4 = f.data.b3 ++ f.data.b2 ∧
      w.w5 = f.data.b5 ++ f.data.b4 ∧ w.w6 = f.data.b7 ++ f.data.b6

/-- R165: `FC.DECODE` completes with `Ok` and writes no state; the frame is read from the words as the rule's pseudocode
says, branching on `w0[0]`, reading `valid_length` for both payload kinds, `w0[1]` for the payload kind, and giving a
RemoteRequest frame eight zero bytes. The slot operand is its `SLOT_W` bits (`fitSlot`). -/
def Obligations.DecodeReadsTheWords : Prop :=
  ∀ (w : WireWords) (slot : Slot) (s : State),
    exec (.fcDecode w slot) s = .next { s with
      response := some ⟨some .ok, .frame {
        frameKind := if w.w0.getLsbD 0 then .extended else .standard
        payloadKind := if w.w0.getLsbD 1 then .remoteRequest else .data
        identifier :=
          if w.w0.getLsbD 0 then w.w0.extractLsb' 2 11 ++ w.w1.extractLsb' 0 12 ++ w.w2.extractLsb' 10 6
          else (w.w0.extractLsb' 2 11).setWidth 29
        validLength := w.w2.extractLsb' 0 4
        data :=
          if w.w0.getLsbD 1 then ⟨0, 0, 0, 0, 0, 0, 0, 0⟩
          else ⟨w.w3.extractLsb' 0 8, w.w3.extractLsb' 8 8, w.w4.extractLsb' 0 8, w.w4.extractLsb' 8 8,
            w.w5.extractLsb' 0 8, w.w5.extractLsb' 8 8, w.w6.extractLsb' 0 8, w.w6.extractLsb' 8 8⟩
        hardwareSlot := fitSlot s.cfg slot }⟩ }

/-- R170, R98: `FC.SERIALIZE` completes with `Ok`, writes no state, and gives the sixteen bytes of the layout, as the 128
port bits show them: byte `i` in bits `8i+7 : 8i`. (R98 gives byte 4 for `SLOT_W = 8`; that in a build
whose `SLOT_W` is below 8 it holds those bits and zeros is log entry 17, DEDUCED.) -/
def Obligations.SerializeLayout : Prop :=
  ∀ (f : CanFrame) (s : State),
    ∃ b : Ser16, exec (.fcSerialize f) s = .next { s with response := some ⟨some .ok, .serialized b⟩ } ∧
      (ser16Port b).extractLsb' 0 29 = f.identifier ∧ (ser16Port b).extractLsb' 29 3 = 0 ∧
      (ser16Port b).extractLsb' 32 8 = fitSlot s.cfg f.hardwareSlot ∧
      (ser16Port b).getLsbD 40 = decide (f.payloadKind = .remoteRequest) ∧ (ser16Port b).extractLsb' 41 7 = 0 ∧
      (ser16Port b).getLsbD 48 = decide (f.frameKind = .extended) ∧ (ser16Port b).extractLsb' 49 7 = 0 ∧
      (ser16Port b).extractLsb' 56 64 =
        f.data.b7 ++ f.data.b6 ++ f.data.b5 ++ f.data.b4 ++ f.data.b3 ++ f.data.b2 ++ f.data.b1 ++ f.data.b0 ∧
      (ser16Port b).extractLsb' 120 4 = f.validLength ∧ (ser16Port b).extractLsb' 124 4 = 0

/-- R171, R99: `FC.DESERIALIZE` completes with `Ok`, writes no state, reads every field from its bits, ignores the padding
bits, and undoes `FC.SERIALIZE` in every field. (Byte 4 is read as its `SLOT_W` bits: log entry 17, DEDUCED; at
the default width that is all of it, as R171 has it.) -/
def Obligations.DeserializeInvertsSerialize : Prop :=
  (∀ (b : Ser16) (s : State),
    ∃ f : CanFrame, exec (.fcDeserialize b) s = .next { s with response := some ⟨some .ok, .frame f⟩ } ∧
      f.identifier = (ser16Port b).extractLsb' 0 29 ∧ f.hardwareSlot = fitSlot s.cfg b.b4 ∧
      f.payloadKind = (if b.b5.getLsbD 0 then .remoteRequest else .data) ∧
      f.frameKind = (if b.b6.getLsbD 0 then .extended else .standard) ∧
      f.data = ⟨b.b7, b.b8, b.b9, b.b10, b.b11, b.b12, b.b13, b.b14⟩ ∧ f.validLength = b.b15.extractLsb' 0 4) ∧
  (∀ f : CanFrame, deserializeFrame (serializeFrame f) = f) ∧
  (∀ (f : CanFrame) (s : State),
    exec (.fcDeserialize (serializeFrame f)) s =
      .next { s with response := some ⟨some .ok, .frame (fitFrame s.cfg f)⟩ })

/-- R172: the round-trip law: decoding what was encoded gives the frame back in all logical fields, for every well-formed
frame of any kind and any `valid_length` 0 to 15; the slot is the one given to decode; a Data frame's eight bytes all
return; a RemoteRequest frame's data is all zero. -/
def Obligations.RoundTripLaw : Prop :=
  ∀ (f : CanFrame) (slot : Slot), f.WellFormed →
    let g := decodeFrame (encodeFrame f) slot
    g.identifier = f.identifier ∧ g.frameKind = f.frameKind ∧ g.payloadKind = f.payloadKind ∧
    g.validLength = f.validLength ∧ (f.payloadKind = .data → g.data = f.data) ∧
    (f.payloadKind = .remoteRequest → g.data = ⟨0, 0, 0, 0, 0, 0, 0, 0⟩) ∧ g.hardwareSlot = slot

/-- R173: re-encoding decoded words clears the unnamed bits, copies `w0[1]` to `w2[9]`, and clears what a Standard or a
RemoteRequest frame does not carry; the words `FC.ENCODE` gives for a Data frame are fixed points. -/
def Obligations.ReencodeNormalises : Prop :=
  (∀ (w : WireWords) (slot : Slot),
    let v := encodeFrame (decodeFrame w slot)
    v.w0 = w.w0 &&& 0x1FFF ∧
    v.w1 = (if w.w0.getLsbD 0 then w.w1 &&& 0x0FFF else 0) ∧
    v.w2 = (if w.w0.getLsbD 0 then w.w2 &&& 0xFC0F else w.w2 &&& 0x000F) |||
      (if w.w0.getLsbD 1 then 0x0200 else 0) ∧
    (w.w0.getLsbD 1 = true → v.w3 = 0 ∧ v.w4 = 0 ∧ v.w5 = 0 ∧ v.w6 = 0) ∧
    (w.w0.getLsbD 1 = false → v.w3 = w.w3 ∧ v.w4 = w.w4 ∧ v.w5 = w.w5 ∧ v.w6 = w.w6)) ∧
  (∀ (f : CanFrame) (slot : Slot), f.payloadKind = .data →
    encodeFrame (decodeFrame (encodeFrame f) slot) = encodeFrame f)

/-- R97, R165: the four wire frame classes complete with `Ok`, write no state, and answer the frame that `FC.DECODE` gives
for the words the class stands for, with the slot beside them. (That a wire class by itself performs `FC.DECODE` of its
words is log entry 13, DEDUCED; R97 gives the classes, R165 the decode.) -/
def Obligations.WireClassesDecodeAsTheirWords : Prop :=
  ∀ (sid : BitVec 11) (mid : BitVec 12) (low : BitVec 6) (dlc : BitVec 4) (d : Payload) (slot : Slot) (s : State),
    exec (.wireStdData sid dlc d slot) s = exec (.fcDecode (packWire 0 0 sid 0 0 dlc d) slot) s ∧
    exec (.wireStdRtr sid dlc d slot) s = exec (.fcDecode (packWire 0 1 sid 0 0 dlc d) slot) s ∧
    exec (.wireExtData sid mid low dlc d slot) s = exec (.fcDecode (packWire 1 0 sid mid low dlc d) slot) s ∧
    exec (.wireExtRtr sid mid low dlc d slot) s = exec (.fcDecode (packWire 1 1 sid mid low dlc d) slot) s ∧
    (∃ t, exec (.wireStdData sid dlc d slot) s = .next t) ∧ (∃ t, exec (.wireStdRtr sid dlc d slot) s = .next t) ∧
    (∃ t, exec (.wireExtData sid mid low dlc d slot) s = .next t) ∧
    (∃ t, exec (.wireExtRtr sid mid low dlc d slot) s = .next t)

/-- R226: the slot a frame arrives with selects nothing. With another slot `RX.ON_FRAME` answers the same result code, leaves
the same cursors and counters, and the queued frames are the same in every field but `hardware_slot`. -/
def Obligations.SlotIsPassedThrough : Prop :=
  ∀ (w : WireWords) (a b : Slot) (s : State), BufferInv s.cfg.cntW s.rx.rb →
    ∃ t u, exec (.rxOnFrame w a) s = .next t ∧ exec (.rxOnFrame w b) s = .next u ∧ t.response = u.response ∧
      t.rx.pendingCount = u.rx.pendingCount ∧ t.rx.rb.used = u.rx.rb.used ∧ t.rx.rb.tail = u.rx.rb.tail ∧
      t.rx.rb.head = u.rx.rb.head ∧ t.rx.rb.overflowCount = u.rx.rb.overflowCount ∧
      (rxFrames t).map (fun f => { f with hardwareSlot := 0 }) = (rxFrames u).map (fun f => { f with hardwareSlot := 0 })

/-! ### TransmitQueue -/

/-- R191, R195, R197 rows 1 and 2: an accepted `transmit`. The frame goes to the end of the queue; from `Idle` it is handed
to the hardware at once, with its own slot and its encoded words; from `Sending` nothing is called. The sixteen bytes
stored are at `(tail + k) mod capacity`; nothing else changes. (The frame is the one its port carries, with `SLOT_W` bits of
slot: `fitFrame`.) -/
def Obligations.EnqueueAccepted : Prop :=
  ∀ (f : CanFrame) (s : State), s.initState = .ready → BufferInv s.cfg.cntW s.tx.rb →
    s.tx.rb.used ≠ s.tx.rb.capacity →
    ∃ t, exec (.txEnqueue f) s = .next t ∧ t.response = some ⟨some .ok, .none⟩ ∧ t.tx.txState = .sending ∧
      txFrames t = txFrames s ++ [fitFrame s.cfg f] ∧
      t.tx.rb.used = s.tx.rb.used + 16 ∧ t.tx.rb.tail = (s.tx.rb.tail + 16) % s.tx.rb.capacity ∧
      t.tx.rb.head = s.tx.rb.head ∧ t.tx.rb.capacity = s.tx.rb.capacity ∧
      t.tx.rb.overflowCount = s.tx.rb.overflowCount ∧
      (∀ a, (∀ k < 16, a ≠ (s.tx.rb.tail + k) % s.tx.rb.capacity) →
        storageByte .tx t.tx.rb a = storageByte .tx s.tx.rb a) ∧
      t.rx = s.rx ∧ t.initState = s.initState ∧ t.cfg = s.cfg ∧ t.inputs = s.inputs ∧
      (s.tx.txState = .sending → t.trace = s.trace ∧ t.env = s.env) ∧
      (s.tx.txState = .idle →
        t.trace = s.trace ++ [.transmit (fitSlot s.cfg f.hardwareSlot) (encodeFrame f)] ∧
        t.env = { s.env with messageObjects := t.env.messageObjects, txOutstanding := true } ∧
        ∀ a, storeRead t.env.messageObjects a =
          if a = (fitSlot s.cfg f.hardwareSlot).toNat then some (encodeFrame f) else storeRead s.env.messageObjects a)

/-- R192, R197 row 3: a `transmit` on a full queue answers `Overflow`, counts once and changes nothing else; the state is
then necessarily `Sending`. -/
def Obligations.EnqueueRefused : Prop :=
  ∀ (f : CanFrame) (s : State), s.initState = .ready → s.tx.rb.used = s.tx.rb.capacity →
    exec (.txEnqueue f) s = .next { s with
      tx := { s.tx with rb := { s.tx.rb with
        overflowCount := if s.tx.rb.overflowCount < 2 ^ s.cfg.cntW - 1 then s.tx.rb.overflowCount + 1
          else s.tx.rb.overflowCount } }
      response := some ⟨some .overflow, .none⟩ } ∧
    (s.tx.rb.capacity ≠ 0 → TransmitInv s.cfg s.tx → s.tx.txState = .sending)

/-- R196: a completion while `Idle` answers `Spurious`, changes nothing and makes no call. -/
def Obligations.CompletionWhileIdle : Prop :=
  ∀ s : State, s.tx.txState = .idle →
    exec .txOnComplete s = .next { s with response := some ⟨some .spurious, .none⟩ }

/-- R194, R197 row 4: under `ResetAll` a nonzero overflow count makes the completion reset the buffer: `Idle`, empty, the
count cleared, every queued frame gone, no call. The storage bytes stay. -/
def Obligations.CompletionRecovers : Prop :=
  ∀ s : State, s.tx.txState = .sending → BufferInv s.cfg.cntW s.tx.rb → 16 ≤ s.tx.rb.used →
    s.cfg.txOverflowPolicy = .resetAll → s.tx.rb.overflowCount ≠ 0 →
    exec .txOnComplete s = .next { s with
      tx := ⟨{ s.tx.rb with used := 0, head := 0, tail := 0, overflowCount := 0 }, .idle⟩
      response := some ⟨some .ok, .none⟩ }

/-- R193, R195, R197 row 5: with a further frame queued, and no recovery due, the completion retires the sent frame and
hands the next one, still queued, to the hardware; the state stays `Sending`. -/
def Obligations.CompletionChains : Prop :=
  ∀ s : State, s.tx.txState = .sending → BufferInv s.cfg.cntW s.tx.rb → 16 < s.tx.rb.used →
    ¬(s.cfg.txOverflowPolicy = .resetAll ∧ s.tx.rb.overflowCount ≠ 0) →
    ∃ t sent g later, exec .txOnComplete s = .next t ∧ t.response = some ⟨some .ok, .none⟩ ∧
      txFrames s = sent :: g :: later ∧ txFrames t = g :: later ∧
      t.trace = s.trace ++ [.transmit g.hardwareSlot (encodeFrame g)] ∧
      t.tx = ⟨{ s.tx.rb with
        head := (s.tx.rb.head + 16) % s.tx.rb.capacity
        used := s.tx.rb.used - 16 }, .sending⟩ ∧
      t.env = { s.env with messageObjects := t.env.messageObjects, txOutstanding := true } ∧
      (∀ a, storeRead t.env.messageObjects a =
        if a = g.hardwareSlot.toNat then some (encodeFrame g) else storeRead s.env.messageObjects a) ∧
      t.rx = s.rx ∧ t.initState = s.initState ∧ t.cfg = s.cfg ∧ t.inputs = s.inputs

/-- R193, R197 row 6: with no further frame queued, and no recovery due, the completion retires the sent frame and goes
`Idle`; no call. -/
def Obligations.CompletionEmpties : Prop :=
  ∀ s : State, s.tx.txState = .sending → BufferInv s.cfg.cntW s.tx.rb → s.tx.rb.used = 16 →
    ¬(s.cfg.txOverflowPolicy = .resetAll ∧ s.tx.rb.overflowCount ≠ 0) →
    exec .txOnComplete s = .next { s with
      tx := ⟨{ s.tx.rb with head := (s.tx.rb.head + 16) % s.tx.rb.capacity, used := 0 }, .idle⟩
      response := some ⟨some .ok, .none⟩ }

/-- R199: the chaining order. From an idle block with room for three frames, three enqueues and three completions call the
hardware with the first frame at once, the second after the first completion, the third after the second, and nothing
after the third, which leaves the queue `Idle`. -/
def Obligations.ChainingOrder : Prop :=
  ∀ (a b c : CanFrame) (s : State), s.initState = .ready → s.tx.txState = .idle → BufferInv s.cfg.cntW s.tx.rb →
    TransmitInv s.cfg s.tx → 48 ≤ s.tx.rb.capacity →
    ∃ s1 s2 s3 s4 s5 s6,
      exec (.txEnqueue a) s = .next s1 ∧ exec (.txEnqueue b) s1 = .next s2 ∧ exec (.txEnqueue c) s2 = .next s3 ∧
      exec .txOnComplete s3 = .next s4 ∧ exec .txOnComplete s4 = .next s5 ∧ exec .txOnComplete s5 = .next s6 ∧
      s1.trace = s.trace ++ [.transmit (fitSlot s.cfg a.hardwareSlot) (encodeFrame a)] ∧
      s2.trace = s1.trace ∧ s3.trace = s1.trace ∧
      s4.trace = s1.trace ++ [.transmit (fitSlot s.cfg b.hardwareSlot) (encodeFrame b)] ∧
      s5.trace = s4.trace ++ [.transmit (fitSlot s.cfg c.hardwareSlot) (encodeFrame c)] ∧ s6.trace = s5.trace ∧
      s3.tx.txState = .sending ∧ s5.tx.txState = .sending ∧ s6.tx.txState = .idle

/-- R200, R223, R224, R37, R100: the three status views answer the element as it is, zero-extended in the `count` field of
`max(CNT_W, 16)` bits, and write no state. An overflow count in its range always fits that field, a `pending_count` up to
65535 too. (What the field shows for a larger one is a free value, log entry 18, and not stated here.) -/
def Obligations.StatusViews : Prop :=
  ∀ s : State, s.initState = .ready →
    ∃ a b c : BitVec (max s.cfg.cntW 16),
      exec .txOverflowCount s = .next { s with response := some ⟨some .ok, .count (max s.cfg.cntW 16) a⟩ } ∧
      exec .rxPendingCount s = .next { s with response := some ⟨some .ok, .count (max s.cfg.cntW 16) b⟩ } ∧
      exec .rxOverflowCount s = .next { s with response := some ⟨some .ok, .count (max s.cfg.cntW 16) c⟩ } ∧
      (CountInv s.cfg.cntW s.tx.rb → a.toNat = s.tx.rb.overflowCount) ∧
      (s.rx.pendingCount < 2 ^ max s.cfg.cntW 16 → b.toNat = s.rx.pendingCount) ∧
      (CountInv s.cfg.cntW s.rx.rb → c.toNat = s.rx.rb.overflowCount)

/-- R265: every foreground operation other than `SYS.INIT` answers `NotInitialised` when the block is not `Ready`, and
changes no state. -/
def Obligations.NotInitialisedBeforeAnythingElse : Prop :=
  ∀ (i : Instr) (s : State), s.initState ≠ .ready →
    (∃ f, i = .txEnqueue f) ∨ i = .txOverflowCount ∨ i = .rxDequeue ∨ i = .rxPendingCount ∨ i = .rxOverflowCount →
    exec i s = .next { s with response := some ⟨some .notInitialised, .none⟩ }

/-! ### ReceiveQueue -/

/-- R220: a received frame that fits: decoded, stamped with the slot, appended to the queue, counted. The sixteen bytes are
at `(tail + k) mod capacity`; nothing else changes. (That the count goes up also where a test bench has broken R32 and it is at
the end of its range is log entry 19, DESIGN CHOICE.) -/
def Obligations.ReceivedFrameStored : Prop :=
  ∀ (w : WireWords) (slot : Slot) (s : State), BufferInv s.cfg.cntW s.rx.rb → s.rx.rb.used ≠ s.rx.rb.capacity →
    ∃ t, exec (.rxOnFrame w slot) s = .next t ∧ t.response = some ⟨some .ok, .none⟩ ∧
      rxFrames t = rxFrames s ++ [decodeFrame w (fitSlot s.cfg slot)] ∧ t.rx.pendingCount = s.rx.pendingCount + 1 ∧
      t.rx.rb.used = s.rx.rb.used + 16 ∧ t.rx.rb.tail = (s.rx.rb.tail + 16) % s.rx.rb.capacity ∧
      t.rx.rb.head = s.rx.rb.head ∧ t.rx.rb.capacity = s.rx.rb.capacity ∧
      t.rx.rb.overflowCount = s.rx.rb.overflowCount ∧
      (∀ a, (∀ k < 16, a ≠ (s.rx.rb.tail + k) % s.rx.rb.capacity) →
        storageByte .rx t.rx.rb a = storageByte .rx s.rx.rb a) ∧
      t.tx = s.tx ∧ t.initState = s.initState ∧ t.env = s.env ∧ t.cfg = s.cfg ∧ t.inputs = s.inputs ∧ t.trace = s.trace

/-- R221: a frame that arrives at a full queue is dropped and counted; the queued frames and `pending_count` stay, and
nothing else changes, under either policy. -/
def Obligations.ReceivedFrameDropped : Prop :=
  ∀ (w : WireWords) (slot : Slot) (s : State), s.rx.rb.used = s.rx.rb.capacity →
    exec (.rxOnFrame w slot) s = .next { s with
      rx := { s.rx with rb := { s.rx.rb with
        overflowCount := if s.rx.rb.overflowCount < 2 ^ s.cfg.cntW - 1 then s.rx.rb.overflowCount + 1
          else s.rx.rb.overflowCount } }
      response := some ⟨some .overflow, .none⟩ }

/-- R222: `receive` answers `Empty` and changes nothing exactly when `pending_count == 0`; else it returns the oldest frame,
which leaves the queue, and `pending_count` drops by one; no storage byte is erased and nothing else changes. -/
def Obligations.DequeueOldestFrame : Prop :=
  ∀ s : State, s.initState = .ready →
    (s.rx.pendingCount = 0 → exec .rxDequeue s = .next { s with response := some ⟨some .empty, .none⟩ }) ∧
    (s.rx.pendingCount ≠ 0 → BufferInv s.cfg.cntW s.rx.rb → ReceiveInv s.rx →
      ∃ t f, exec .rxDequeue s = .next t ∧ rxFrames s = f :: rxFrames t ∧
        t = { s with
          rx := ⟨{ s.rx.rb with
            head := (s.rx.rb.head + 16) % s.rx.rb.capacity
            used := s.rx.rb.used - 16 }, s.rx.pendingCount - 1⟩
          response := some ⟨some .ok, .frame f⟩ })

/-- R225: the counting law, for `RX.ON_FRAME` and `RX.DEQUEUE` operations in any order: none of them stops, and
`pending_count` moves by exactly the receptions that answered `Ok` less the dequeues that found a frame. -/
def Obligations.CountingLaw : Prop :=
  ∀ (ops : List (Option (WireWords × Slot))) (s : State), s.initState = .ready → BufferInv s.cfg.cntW s.rx.rb →
    ReceiveInv s.rx →
    ∃ t k j, receiveRun ops s = some (t, k, j) ∧ t.rx.pendingCount + j = s.rx.pendingCount + k

/-! ### InterruptAdapter and ENV -/

/-- R248, R250: `IA.TX_IRQ` on a pending cause is `TX.ON_COMPLETE`, its result dropped, then the flag cleared; the delivered
slot is not used. -/
def Obligations.TxIrqCompletesThenClears : Prop :=
  ∀ (slot : Slot) (s : State), s.env.txCompletePending = true → s.initState = .ready →
    BufferInv s.cfg.cntW s.tx.rb → TransmitInv s.cfg s.tx →
    ∃ t u, exec .txOnComplete s = .next u ∧ exec (.iaTxIrq slot) s = .next t ∧
      t = { u with response := s.response, env := { u.env with txCompletePending := false } }

/-- R249, R250: `IA.RX_IRQ` on a pending cause reads the words of the delivered slot, performs `RX.ON_FRAME` on them with that
slot, drops its result, then clears the flag, which releases the pending reception. -/
def Obligations.RxIrqStoresThenClears : Prop :=
  ∀ (slot : Slot) (s : State), s.env.rxCompletePending = true → s.initState = .ready →
    BufferInv s.cfg.cntW s.rx.rb →
    ∃ w p u t, exec (.hwReceiveWords slot) s = .next p ∧ p.response = some ⟨none, .words w⟩ ∧
      exec (.rxOnFrame w slot) p = .next u ∧ exec (.iaRxIrq slot) s = .next t ∧
      t = { u with
        response := s.response
        env := { u.env with rxCompletePending := false, rxCompleteWords := none } }

/-- R271, R33: a cause is not serviced when its flag is clear or the block is not `Ready`: nothing happens. (That the
adapter operation, presented by itself, then changes nothing is log entry 10.) -/
def Obligations.CauseNotServiced : Prop :=
  ∀ (slot : Slot) (s : State),
    (¬(s.env.txCompletePending = true ∧ s.initState = .ready) → exec (.iaTxIrq slot) s = .next s) ∧
    (¬(s.env.rxCompletePending = true ∧ s.initState = .ready) → exec (.iaRxIrq slot) s = .next s) ∧
    (s.initState ≠ .ready → interruptDue s = none)

/-- R240: `HW.TRANSMIT` puts the seven words into the message object, makes a transmission outstanding, and appends the call
to the trace; it returns nothing and changes nothing else. -/
def Obligations.HardwareTransmitEffect : Prop :=
  ∀ (slot : Slot) (w : WireWords) (s : State),
    ∃ t, exec (.hwTransmit slot w) s = .next t ∧ t.trace = s.trace ++ [.transmit (fitSlot s.cfg slot) w] ∧
      (∀ a, storeRead t.env.messageObjects a =
        if a = (fitSlot s.cfg slot).toNat then some w else storeRead s.env.messageObjects a) ∧
      t = { s with
        env := { s.env with messageObjects := t.env.messageObjects, txOutstanding := true }
        trace := t.trace }

/-- R241, R246: `HW.RECEIVE_WORDS` of the slot of a completed reception returns the words of that reception, as long as its
flag is set. For every other slot the words are ENV's choice, any value (U16): the model's free value, a new one at each
such call (log entry 3). It is free of side effects on the block (R69). -/
def Obligations.HardwareReceiveWordsAnswer : Prop :=
  ∀ (slot : Slot) (s : State),
    ∃ t w, exec (.hwReceiveWords slot) s = .next t ∧
      t = { s with
        trace := s.trace ++ [.receiveWords (fitSlot s.cfg slot)]
        response := some ⟨none, .words w⟩
        freeCount := t.freeCount } ∧
      (∀ v, s.env.rxCompletePending = true → fitSlot s.cfg slot = s.env.rxCompleteSlot →
        s.env.rxCompleteWords = some v → w = v ∧ t.freeCount = s.freeCount) ∧
      (¬(s.env.rxCompletePending = true ∧ fitSlot s.cfg slot = s.env.rxCompleteSlot ∧
          s.env.rxCompleteWords.isSome = true) →
        w = Config.freeWords s.freeCount ∧ t.freeCount = s.freeCount + 1)

/-! ### Steps and ports -/

/-- R78, R13: a step runs the operation that is due, else the decoded request at the head of the inputs, in the state
with that request taken. (That a due cause comes before a waiting reset input or event of ENV too, and that what waits is
taken in the order of the list `inputs`, is log entry 4, DESIGN CHOICE.) -/
def Obligations.StepRunsDecodedOperation : Prop :=
  (∀ (s : State) (i : Instr), interruptDue s = some i → step s = exec i s) ∧
  (∀ (s : State) (op : Byte) (frame : Ser16) (rest : List Input) (i : Instr), interruptDue s = none →
    s.inputs = .foreground op frame :: rest → decodeForeground op frame = some i →
    step s = exec i { s with inputs := rest }) ∧
  (∀ (s : State) (format : Format) (bytes : List Byte) (rest : List Input) (i : Instr) (left : List Byte),
    interruptDue s = none → s.inputs = .bench format bytes :: rest → decode format bytes = .ok (i, left) →
    step s = exec i { s with inputs := rest })

/-- R251, R271, R273: when the block is `Ready`, a pending transmit-complete is serviced first, then receive-complete, and
either before any waiting request. (R273 speaks of foreground operations; that a waiting reset input or event of ENV also comes
after, is log entry 4, DESIGN CHOICE.) -/
def Obligations.InterruptsBeforeRequests : Prop :=
  ∀ s : State, s.initState = .ready →
    (s.env.txCompletePending = true → step s = exec (.iaTxIrq s.env.txCompleteSlot) s) ∧
    (s.env.txCompletePending = false → s.env.rxCompletePending = true →
      step s = exec (.iaRxIrq s.env.rxCompleteSlot) s)

/-- R118: a code on the foreground port that is not one of the six of R112 is answered `IllegalOp` and changes no state. -/
def Obligations.IllegalForegroundCode : Prop :=
  ∀ (s : State) (op : Byte) (frame : Ser16) (rest : List Input), interruptDue s = none →
    s.inputs = .foreground op frame :: rest → op ∉ [0x00, 0x30, 0x32, 0x41, 0x42, 0x43] →
    step s = .next { s with inputs := rest, response := some ⟨some .illegalOp, .none⟩ }

/-- R244, R245, R246, R292: an event of ENV sets its flag and slot, a reception also the words, a completion also ends what
was owed, an event of both causes at once both, and nothing else changes; a second event of a cause whose flag is set is
refused (U15); with nothing to do there is no step to take. (That an event is taken in the order of the list `inputs` is
log entry 4; that one completion clears the one bit, whatever the number of transmissions outstanding, is log
entry 14, DESIGN CHOICE.) -/
def Obligations.EnvironmentInputs : Prop :=
  (∀ (s : State) (a : Slot) (rest : List Input), interruptDue s = none → s.inputs = .env ⟨some a, none⟩ :: rest →
    s.env.txCompletePending = false →
    step s = .next { s with
      inputs := rest
      env := { s.env with
        txCompletePending := true, txCompleteSlot := fitSlot s.cfg a, txOutstanding := false } }) ∧
  (∀ (s : State) (a : Slot) (w : WireWords) (rest : List Input), interruptDue s = none →
    s.inputs = .env ⟨none, some (a, w)⟩ :: rest → s.env.rxCompletePending = false →
    ∃ t, step s = .next t ∧
      (∀ b, storeRead t.env.messageObjects b =
        if b = (fitSlot s.cfg a).toNat then some w else storeRead s.env.messageObjects b) ∧
      t = { s with
        inputs := rest
        env := { s.env with
          rxCompletePending := true
          rxCompleteSlot := fitSlot s.cfg a
          rxCompleteWords := some w
          messageObjects := t.env.messageObjects } }) ∧
  (∀ (s : State) (a c : Slot) (w : WireWords) (rest : List Input), interruptDue s = none →
    s.inputs = .env ⟨some c, some (a, w)⟩ :: rest → s.env.txCompletePending = false →
    s.env.rxCompletePending = false →
    ∃ t, step s = .next t ∧
      (∀ b, storeRead t.env.messageObjects b =
        if b = (fitSlot s.cfg a).toNat then some w else storeRead s.env.messageObjects b) ∧
      t = { s with
        inputs := rest
        env := {
          txCompletePending := true
          txCompleteSlot := fitSlot s.cfg c
          txOutstanding := false
          rxCompletePending := true
          rxCompleteSlot := fitSlot s.cfg a
          rxCompleteWords := some w
          messageObjects := t.env.messageObjects } }) ∧
  (∀ (s : State) (event : EnvEvent) (rest : List Input), interruptDue s = none → s.inputs = .env event :: rest →
    (event.txDone.isSome = true ∧ s.env.txCompletePending = true) ∨
      (event.rxFrame.isSome = true ∧ s.env.rxCompletePending = true) →
    step s = .refused .eventWhilePending) ∧
  (∀ s : State, interruptDue s = none → s.inputs = [] → step s = .next s)

/-- Log entry 6: a table word placed by `withFetchWord` is the operation the very next step of a `Ready` block runs. (The
host interface of the model; no rule of the spec.) -/
def Obligations.FetchWordRunsNext : Prop :=
  ∀ (s : State) (nbits w : Nat) (i : Instr), s.initState = .ready → decodeTableWord nbits w = some i →
    ∃ s', step (s.withFetchWord nbits w) = exec i s' ∧ s'.tx = s.tx ∧ s'.rx = s.rx ∧ s'.initState = s.initState ∧
      s'.inputs = s.inputs ∧ s'.trace = s.trace ∧ s'.response = s.response ∧ s'.cfg = s.cfg

/-! ### Invariants and whole-machine rules -/

/-- R27, R28, R30, R32, R303: the invariant of the block, and "at most one frame in flight", hold after a reset with legal
capacities, and every slot then has `SLOT_W` bits (R36; the values of the flags' slots are log entry 7). -/
def Obligations.InvariantHoldsAtReset : Prop :=
  ∀ cfg : Config, cfg.txCapacity ≠ 0 → cfg.txCapacity % 16 = 0 → cfg.rxCapacity ≠ 0 → cfg.rxCapacity % 16 = 0 →
    BlockInv (State.resetOf cfg) ∧ FlightInv (State.resetOf cfg) ∧ SlotInv (State.resetOf cfg)

/-- R27, R28, R30, R32, R26, R152: every step of a block driven by its own ports keeps its invariant: the cursors, the frame
alignment, every readable byte written, the transmit state and the receive count in step with the bytes, the counters in
range, the stores in canonical form. -/
def Obligations.StepKeepsInvariant : Prop :=
  ∀ s t : State, BlockInv s → step s = .next t → BlockInv t

/-- R260, R282: a block that meets its invariant never stops: every step answers a next state, but for an event of ENV
outside its contract (R244). -/
def Obligations.StepNeverStops : Prop :=
  ∀ s : State, BlockInv s →
    (∃ t, step s = .next t) ∨
    (interruptDue s = none ∧ ∃ event rest, s.inputs = .env event :: rest ∧
      ((event.txDone.isSome = true ∧ s.env.txCompletePending = true) ∨
        (event.rxFrame.isSome = true ∧ s.env.rxCompletePending = true)))

/-- R198: at most one frame in flight. Under ENV's contract, every step keeps "`Sending` is exactly one outstanding call or
its unprocessed completion", and a step makes a `HW.TRANSMIT` call only when none is outstanding, and then one. -/
def Obligations.AtMostOneFrameInFlight : Prop :=
  ∀ s t : State, BlockInv s → FlightInv s → EnvObeys s → step s = .next t →
    FlightInv t ∧ transmitCount t ≤ transmitCount s + 1 ∧
    (transmitCount t ≠ transmitCount s → s.env.txOutstanding = false ∧ t.env.txOutstanding = true)

/-- Log entries 2 and 3, R26, R49: every step, of a test bench too, keeps the canonical form of both storages and of the
message objects. (The form is the model's; that equal memories are equal data rests on it.) -/
def Obligations.StepKeepsStoresCanonical : Prop :=
  ∀ s t : State, StoresWf s → step s = .next t → StoresWf t

/-- R7, R36, R100: slots are `SLOT_W` bits wide: every step, of a test bench too, keeps every slot within its width, those
ENV delivers and holds objects for, those of the calls out of the block and that of a response. (That `SLOT_W` is at most 8
and that the other bits of a slot byte are padding is log entry 17.) -/
def Obligations.SlotsKeepTheirWidth : Prop :=
  ∀ s t : State, SlotInv s → step s = .next t → SlotInv t

/-- R21, R7: the parameters are fixed for a build: no step changes them, and no step of a `Ready` block that stays `Ready`
changes a capacity. -/
def Obligations.ParametersNeverChange : Prop :=
  (∀ s t : State, step s = .next t → t.cfg = s.cfg) ∧
  (∀ s t : State, BlockInv s → s.initState = .ready → step s = .next t → t.initState = .ready →
    t.tx.rb.capacity = s.tx.rb.capacity ∧ t.rx.rb.capacity = s.rx.rb.capacity)

/-- R38, R22 to R26, R29, R31, R33: which operations write each element: whenever it changes, one of the operations the
spec names for that element did it. A transmit-complete moves `tail` only to zero, and changes the overflow count only to
zero, under `ResetAll`. (The `RB` operations and `TX.ON_COMPLETE`, `RX.ON_FRAME` by themselves are the test bench's.) -/
def Obligations.ElementsWrittenOnlyBy : Prop :=
  ∀ (i : Instr) (s t : State), exec i s = .next t →
    (t.initState ≠ s.initState → i = .sysInit) ∧
    (t.tx.txState ≠ s.tx.txState → i = .sysInit ∨ (∃ f, i = .txEnqueue f) ∨ ProcessesCompletion i) ∧
    (t.rx.pendingCount ≠ s.rx.pendingCount → i = .sysInit ∨ ProcessesReception i ∨ i = .rxDequeue) ∧
    (t.tx.rb.capacity ≠ s.tx.rb.capacity → Constructs .tx i) ∧
    (t.tx.rb.used ≠ s.tx.rb.used →
      Constructs .tx i ∨ (∃ b, i = .rbWriteByte .tx b) ∨ i = .rbReadByte .tx ∨ i = .rbReset .tx ∨
        (∃ f, i = .txEnqueue f) ∨ ProcessesCompletion i) ∧
    (t.tx.rb.head ≠ s.tx.rb.head →
      Constructs .tx i ∨ i = .rbReadByte .tx ∨ i = .rbReset .tx ∨ ProcessesCompletion i) ∧
    (t.tx.rb.tail ≠ s.tx.rb.tail →
      Constructs .tx i ∨ (∃ b, i = .rbWriteByte .tx b) ∨ i = .rbReset .tx ∨ (∃ f, i = .txEnqueue f) ∨
        (ProcessesCompletion i ∧ s.cfg.txOverflowPolicy = .resetAll ∧ t.tx.rb.tail = 0)) ∧
    (t.tx.rb.overflowCount ≠ s.tx.rb.overflowCount →
      Constructs .tx i ∨ (∃ b, i = .rbWriteByte .tx b) ∨ i = .rbReset .tx ∨ (∃ f, i = .txEnqueue f) ∨
        (ProcessesCompletion i ∧ s.cfg.txOverflowPolicy = .resetAll ∧ t.tx.rb.overflowCount = 0)) ∧
    ((∃ a, storageByte .tx t.tx.rb a ≠ storageByte .tx s.tx.rb a) →
      Constructs .tx i ∨ (∃ b, i = .rbWriteByte .tx b) ∨ ∃ f, i = .txEnqueue f) ∧
    (t.rx.rb.capacity ≠ s.rx.rb.capacity → Constructs .rx i) ∧
    (t.rx.rb.used ≠ s.rx.rb.used →
      Constructs .rx i ∨ (∃ b, i = .rbWriteByte .rx b) ∨ i = .rbReadByte .rx ∨ i = .rbReset .rx ∨
        ProcessesReception i ∨ i = .rxDequeue) ∧
    (t.rx.rb.head ≠ s.rx.rb.head → Constructs .rx i ∨ i = .rbReadByte .rx ∨ i = .rbReset .rx ∨ i = .rxDequeue) ∧
    (t.rx.rb.tail ≠ s.rx.rb.tail →
      Constructs .rx i ∨ (∃ b, i = .rbWriteByte .rx b) ∨ i = .rbReset .rx ∨ ProcessesReception i) ∧
    (t.rx.rb.overflowCount ≠ s.rx.rb.overflowCount →
      Constructs .rx i ∨ (∃ b, i = .rbWriteByte .rx b) ∨ i = .rbReset .rx ∨ ProcessesReception i) ∧
    ((∃ a, storageByte .rx t.rx.rb a ≠ storageByte .rx s.rx.rb a) →
      Constructs .rx i ∨ (∃ b, i = .rbWriteByte .rx b) ∨ ProcessesReception i) ∧
    (t.env.txCompletePending ≠ s.env.txCompletePending → ∃ slot, i = .iaTxIrq slot) ∧
    (t.env.rxCompletePending ≠ s.env.rxCompletePending → ∃ slot, i = .iaRxIrq slot) ∧
    (transmitCount t ≠ transmitCount s →
      (∃ f, i = .txEnqueue f) ∨ ProcessesCompletion i ∨ ∃ slot w, i = .hwTransmit slot w) ∧
    t.inputs = s.inputs

/-- R197, R53, R322: nothing but a completion, or a new initialisation, takes the block out of `Sending`. -/
def Obligations.OnlyCompletionLeavesSending : Prop :=
  ∀ s t : State, BlockInv s → s.initState = .ready → s.tx.txState = .sending → step s = .next t →
    t.tx.txState = .sending ∨ s.env.txCompletePending = true ∨ Reinitialises s

/-- R251: with both causes pending, the two handlers commute on the state of the block and of ENV: the order changes only the
trace. -/
def Obligations.HandlersCommute : Prop :=
  ∀ s : State, s.initState = .ready → s.env.txCompletePending = true → s.env.rxCompletePending = true →
    BufferInv s.cfg.cntW s.tx.rb → BufferInv s.cfg.cntW s.rx.rb → TransmitInv s.cfg s.tx →
    ∃ t1 t2 u1 u2,
      exec (.iaTxIrq s.env.txCompleteSlot) s = .next t1 ∧ exec (.iaRxIrq s.env.rxCompleteSlot) t1 = .next t2 ∧
      exec (.iaRxIrq s.env.rxCompleteSlot) s = .next u1 ∧ exec (.iaTxIrq s.env.txCompleteSlot) u1 = .next u2 ∧
      t2 = { u2 with trace := t2.trace } ∧ t2.trace.Perm u2.trace

/-- R25, R152: `overflow_count` is non-decreasing between two clears and rises by at most one a step: the receive count falls
only at a new initialisation, the transmit count also at a `ResetAll` recovery, which clears it. -/
def Obligations.OverflowCountsMonotone : Prop :=
  ∀ s t : State, BlockInv s → s.initState = .ready → step s = .next t →
    Reinitialises s ∨
    (s.rx.rb.overflowCount ≤ t.rx.rb.overflowCount ∧ t.rx.rb.overflowCount ≤ s.rx.rb.overflowCount + 1 ∧
      ((s.tx.rb.overflowCount ≤ t.tx.rb.overflowCount ∧ t.tx.rb.overflowCount ≤ s.tx.rb.overflowCount + 1) ∨
        (s.cfg.txOverflowPolicy = .resetAll ∧ s.env.txCompletePending = true ∧ t.tx.rb.overflowCount = 0)))

/-- R26, U11: no step of a block that meets its invariant observes a storage byte that has not been written: whatever the
unwritten bytes hold, the next state, its response and its calls are the same. -/
def Obligations.UnwrittenBytesNeverObserved : Prop :=
  ∀ s s' t : State, BlockInv s → SameButUnwritten s s' → step s = .next t →
    ∃ t', step s' = .next t' ∧ SameButUnwritten t t'

/-! ### Encodings -/

/-- R91, R98, R111, R113: decode and encode agree: the bytes of a well-formed operation, whatever follows them, decode to
that operation and leave what follows. (The places of operand bytes behind the code are log entry 5.) -/
def Obligations.DecodeEncodeRoundTrip : Prop :=
  ∀ (i : Instr), i.WellFormed → ∀ rest, decode (encode i).1 ((encode i).2 ++ rest) = .ok (i, rest)

/-- R111, R97, R98: words written out from the spec: the request of the spec's P1 step 2 and the wire words of its vectors
F1, F6, F3 and F13 decode to the operations they stand for; beside them two requests of the test bench, `RB.WRITE_BYTE` to
`rx.rb` and `IA.RX_IRQ` of slot 3. (The codes are R111's; that the selector, the byte and the slot stand behind the code, and
the slot byte behind the wire words, each in one byte, is log entry 5, DESIGN CHOICE.) -/
def Obligations.SpecWordsDecode : Prop :=
  decodeForeground 0x30 ⟨0x00, 0x01, 0, 0, 0, 0, 0, 0xA1, 0xA2, 0, 0, 0, 0, 0, 0, 0x02⟩ =
    some (.txEnqueue ⟨0x100, .standard, .data, ⟨0xA1, 0xA2, 0, 0, 0, 0, 0, 0⟩, 2, 0⟩) ∧
  decode .wire7 [0x08, 0x10, 0, 0, 0x06, 0, 0xAB, 0xCD, 0xEF, 0x12, 0x34, 0x56, 0, 0, 3] =
    .ok (.wireStdData 0x402 6 ⟨0xAB, 0xCD, 0xEF, 0x12, 0x34, 0x56, 0, 0⟩ 3, []) ∧
  decode .wire7 [0x8E, 0x04, 0, 0, 0x04, 0x02, 0, 0, 0, 0, 0, 0, 0, 0, 5] =
    .ok (.wireStdRtr 0x123 4 ⟨0, 0, 0, 0, 0, 0, 0, 0⟩ 5, []) ∧
  decode .wire7 [0xFD, 0x1F, 0xFF, 0x0F, 0x08, 0xFC, 1, 2, 3, 4, 5, 6, 7, 8, 2] =
    .ok (.wireExtData 0x7FF 0xFFF 0x3F 8 ⟨1, 2, 3, 4, 5, 6, 7, 8⟩ 2, []) ∧
  decode .wire7 [0xBF, 0x0A, 0x7B, 0x03, 0x08, 0xC6, 0, 0, 0, 0, 0, 0, 0, 0, 4] =
    .ok (.wireExtRtr 0x2AF 0x37B 0x31 8 ⟨0, 0, 0, 0, 0, 0, 0, 0⟩ 4, []) ∧
  decode .op [0x11, 1, 0x5A] = .ok (.rbWriteByte .rx 0x5A, []) ∧ decode .op [0x51, 3] = .ok (.iaRxIrq 3, [])

/-- R111, R118: a code the table does not assign is rejected by name, whatever follows it: no reserved encoding falls
through to a neighbour. -/
def Obligations.UnassignedCodesRejected : Prop :=
  ∀ (code : Byte) (bs : List Byte),
    code ∉ [0x00, 0x10, 0x11, 0x12, 0x13, 0x14, 0x20, 0x21, 0x22, 0x23, 0x30, 0x31, 0x32, 0x40, 0x41, 0x42, 0x43, 0x50,
      0x51, 0x60, 0x61] →
    decode .op (code :: bs) = .error (.unassignedCode code)

/-- R113: every row of the opcode table, its word alone with zeros above, is the operation of that row: the twenty-one `OP`
rows by their code, the four `WIRE7` rows by `w0[1:0]`. (That the format of a table word follows from its width is log
entry 6.) -/
def Obligations.TableRowsDecode : Prop :=
  [0x00, 0x10, 0x11, 0x12, 0x13, 0x14, 0x20, 0x21, 0x22, 0x23, 0x30, 0x31, 0x32, 0x40, 0x41, 0x42, 0x43, 0x50, 0x51, 0x60,
    0x61].map (decodeTableWord 8) =
  [some .sysInit, some (.rbInit .tx 0), some (.rbWriteByte .tx 0), some (.rbReadByte .tx), some (.rbPeekMany .tx 0),
    some (.rbReset .tx), some (.fcEncode default), some (.fcDecode default 0), some (.fcSerialize default),
    some (.fcDeserialize default), some (.txEnqueue default), some .txOnComplete, some .txOverflowCount,
    some (.rxOnFrame default 0), some .rxDequeue, some .rxPendingCount, some .rxOverflowCount, some (.iaTxIrq 0),
    some (.iaRxIrq 0), some (.hwTransmit 0 default), some (.hwReceiveWords 0)] ∧
  [0, 2, 1, 3].map (decodeTableWord 16) =
  [some (.wireStdData 0 0 default 0), some (.wireStdRtr 0 0 default 0), some (.wireExtData 0 0 0 0 default 0),
    some (.wireExtRtr 0 0 0 0 default 0)]
end

