-- ==== Sys2Proof/Laws/Store.lean ====
section
/-! SUPPORT. The sparse stores: a read after a write, and the canonical form that every write keeps. -/

namespace Sys2Proof.Machine

variable {α : Type}

theorem storeRead_storeWrite_same (m : List (Nat × α)) (a : Nat) (v : α) : storeRead (storeWrite m a v) a = some v := by
  induction m with
  | nil => simp [storeWrite, storeRead]
  | cons p rest ih =>
    obtain ⟨k, w⟩ := p
    simp only [storeWrite]
    split
    · simp [storeRead]
    · split
      · simp [storeRead]
      · next h => simp [storeRead, Ne.symm h, ih]

theorem storeRead_storeWrite_other (m : List (Nat × α)) {a b : Nat} (v : α) (h : b ≠ a) :
    storeRead (storeWrite m a v) b = storeRead m b := by
  induction m with
  | nil => simp [storeWrite, storeRead, h.symm]
  | cons p rest ih =>
    obtain ⟨k, w⟩ := p
    simp only [storeWrite]
    split
    · simp [storeRead, h.symm]
    · split
      · next hk => subst hk; simp [storeRead, h.symm]
      · simp [storeRead, ih]

theorem mem_storeWrite {m : List (Nat × α)} {a : Nat} {v : α} {c : Nat × α} (h : c ∈ storeWrite m a v) :
    c.1 = a ∨ c ∈ m := by
  induction m with
  | nil => simp_all [storeWrite]
  | cons p rest ih =>
    obtain ⟨k, w⟩ := p
    simp only [storeWrite] at h
    split at h
    · rcases List.mem_cons.mp h with rfl | h
      · exact .inl rfl
      · exact .inr h
    · split at h
      · rcases List.mem_cons.mp h with rfl | h
        · exact .inl rfl
        · exact .inr (List.mem_cons_of_mem _ h)
      · rcases List.mem_cons.mp h with rfl | h
        · exact .inr (List.mem_cons_self ..)
        · exact (ih h).imp_right (List.mem_cons_of_mem _)

theorem storeWf_cons {p : Nat × α} {m : List (Nat × α)} : storeWf (p :: m) ↔ (∀ c ∈ m, p.1 < c.1) ∧ storeWf m := by
  simp [storeWf]

/-- A write keeps the canonical form. -/
theorem storeWf_storeWrite {m : List (Nat × α)} (h : storeWf m) (a : Nat) (v : α) : storeWf (storeWrite m a v) := by
  induction m with
  | nil => simp [storeWrite, storeWf]
  | cons p rest ih =>
    obtain ⟨k, w⟩ := p
    obtain ⟨hk, hr⟩ := storeWf_cons.mp h
    simp only [storeWrite]
    split
    · next hlt =>
      refine storeWf_cons.mpr ⟨fun c hc => ?_, h⟩
      rcases List.mem_cons.mp hc with rfl | hc
      · exact hlt
      · exact hlt.trans (hk c hc)
    · split
      · next heq => subst heq; exact storeWf_cons.mpr ⟨hk, hr⟩
      · next h1 h2 =>
        refine storeWf_cons.mpr ⟨fun c hc => ?_, ih hr⟩
        rcases mem_storeWrite hc with hc | hc
        · simp only; omega
        · exact hk c hc

end Sys2Proof.Machine
end

