-- ==== Sys2Proof/Laws/Buffer.lean ====
section
/-! SUPPORT. What the RingBuffer operations do, said once: a byte or a frame written is appended to the contents, a byte
or a frame read is taken from their front, and the invariants of R26, R27 and R28 are kept. -/

namespace Sys2Proof.Machine

/-- Two offsets of a window no longer than the array are two places. -/
theorem wrap_ne {h c i j : Nat} (hij : i < j) (hj : j < i + c) : (h + i) % c ≠ (h + j) % c := by
  intro he
  have hd : (h + j - (h + i)) % c = 0 := Nat.sub_mod_eq_zero_of_mod_eq he.symm
  rw [show h + j - (h + i) = j - i by omega, Nat.mod_eq_of_lt (by omega)] at hd
  omega

theorem wrap_succ (h u c : Nat) : ((h + u) % c + 1) % c = (h + (u + 1)) % c := by
  rw [Nat.mod_add_mod, Nat.add_assoc]

theorem legalCapacity_iff (c : Nat) : legalCapacity c = true ↔ c ≠ 0 ∧ Config.frameBytes ∣ c := by
  simp [legalCapacity, Nat.dvd_iff_mod_eq_zero]

@[simp] theorem contents_length (q : QSel) (r : RingBuffer) : (contents q r).length = r.used := by simp [contents]

theorem contents_getElem (q : QSel) (r : RingBuffer) (k : Nat) (h : k < (contents q r).length) :
    (contents q r)[k] = storageByte q r ((r.head + k) % r.capacity) := by simp [contents]

/-- `r` with `b` stored at `tail` (R132). -/
def pushByte (r : RingBuffer) (b : Byte) : RingBuffer :=
  { r with storage := storeWrite r.storage r.tail b, tail := (r.tail + 1) % r.capacity, used := r.used + 1 }

/-- `r` with the byte at `head` taken (R133). -/
def popByte (r : RingBuffer) : RingBuffer :=
  { r with head := (r.head + 1) % r.capacity, used := r.used - 1 }

/-- `r` with the `n` bytes at `head` taken. -/
def popBytes (n : Nat) (r : RingBuffer) : RingBuffer :=
  { r with head := (r.head + n) % r.capacity, used := r.used - n }

/-- `r` with a refused write counted (R132). -/
def countRefusal (cntW : Nat) (r : RingBuffer) : RingBuffer :=
  { r with overflowCount := satInc cntW r.overflowCount }

@[simp] theorem pushByte_capacity (r : RingBuffer) (b : Byte) : (pushByte r b).capacity = r.capacity := rfl
@[simp] theorem pushByte_used (r : RingBuffer) (b : Byte) : (pushByte r b).used = r.used + 1 := rfl
@[simp] theorem pushByte_head (r : RingBuffer) (b : Byte) : (pushByte r b).head = r.head := rfl
@[simp] theorem pushByte_tail (r : RingBuffer) (b : Byte) : (pushByte r b).tail = (r.tail + 1) % r.capacity := rfl
@[simp] theorem pushByte_overflowCount (r : RingBuffer) (b : Byte) : (pushByte r b).overflowCount = r.overflowCount := rfl
@[simp] theorem pushByte_storageEpoch (r : RingBuffer) (b : Byte) : (pushByte r b).storageEpoch = r.storageEpoch := rfl
@[simp] theorem popBytes_capacity (n : Nat) (r : RingBuffer) : (popBytes n r).capacity = r.capacity := rfl
@[simp] theorem popBytes_used (n : Nat) (r : RingBuffer) : (popBytes n r).used = r.used - n := rfl
@[simp] theorem popBytes_head (n : Nat) (r : RingBuffer) : (popBytes n r).head = (r.head + n) % r.capacity := rfl
@[simp] theorem popBytes_tail (n : Nat) (r : RingBuffer) : (popBytes n r).tail = r.tail := rfl
@[simp] theorem popBytes_overflowCount (n : Nat) (r : RingBuffer) :
    (popBytes n r).overflowCount = r.overflowCount := rfl
@[simp] theorem popBytes_storage (n : Nat) (r : RingBuffer) : (popBytes n r).storage = r.storage := rfl
@[simp] theorem popBytes_storageEpoch (n : Nat) (r : RingBuffer) : (popBytes n r).storageEpoch = r.storageEpoch := rfl

/-- `RB.WRITE_BYTE` on a full buffer (R132). -/
theorem rbWriteByte_full {cntW : Nat} {r : RingBuffer} (h : r.used = r.capacity) (b : Byte) :
    rbWriteByte cntW r b = .ok (.overflow, countRefusal cntW r) := by
  simp [rbWriteByte, isFull, h, countRefusal]

/-- `RB.WRITE_BYTE` on a buffer with room (R132). -/
theorem rbWriteByte_room {cntW : Nat} {r : RingBuffer} (h : r.used ≠ r.capacity) (ht : r.tail < r.capacity) (b : Byte) :
    rbWriteByte cntW r b = .ok (.ok, pushByte r b) := by
  simp [rbWriteByte, isFull, h, memWrite, ht, pushByte, advance]

/-- `RB.READ_BYTE` on an empty buffer (R133). -/
theorem rbReadByte_empty {q : QSel} {r : RingBuffer} (h : r.used = 0) : rbReadByte q r = .ok (none, r) := by
  simp [rbReadByte, isEmpty, h]

/-- `RB.READ_BYTE` on a buffer that holds a byte (R133). -/
theorem rbReadByte_some {q : QSel} {r : RingBuffer} (h : r.used ≠ 0) (hh : r.head < r.capacity) :
    rbReadByte q r = .ok (some (storageByte q r r.head), popBytes 1 r) := by
  simp [rbReadByte, isEmpty, h, memRead, hh, popBytes, advance]

theorem CursorInv.capacity_pos {r : RingBuffer} (h : CursorInv r) : 0 < r.capacity := by
  have := h.2.1; omega

theorem CursorInv.tail_lt {r : RingBuffer} (h : CursorInv r) : r.tail < r.capacity := by
  rw [h.2.2]; exact Nat.mod_lt _ h.capacity_pos

theorem CursorInv.push {r : RingBuffer} (h : CursorInv r) (hu : r.used < r.capacity) (b : Byte) :
    CursorInv (pushByte r b) := by
  refine ⟨hu, h.2.1, ?_⟩
  simp only [pushByte_tail, pushByte_head, pushByte_used, pushByte_capacity, h.2.2, wrap_succ]

theorem CursorInv.pop {r : RingBuffer} (h : CursorInv r) {n : Nat} (hn : n ≤ r.used) : CursorInv (popBytes n r) := by
  refine ⟨(Nat.sub_le ..).trans h.1, Nat.mod_lt _ h.capacity_pos, ?_⟩
  simp only [popBytes_tail, popBytes_head, popBytes_used, popBytes_capacity, h.2.2, Nat.mod_add_mod]
  congr 1
  omega

/-- A byte written is read back, and every other place reads as before (R71). -/
theorem storageByte_pushByte (q : QSel) (r : RingBuffer) (b : Byte) (i : Nat) :
    storageByte q (pushByte r b) i = if i = r.tail then b else storageByte q r i := by
  by_cases h : i = r.tail
  · subst h
    simp [storageByte, pushByte, storeRead_storeWrite_same]
  · simp [storageByte, pushByte, storeRead_storeWrite_other _ _ h, h]

@[simp] theorem storageByte_popBytes (q : QSel) (n : Nat) (r : RingBuffer) (i : Nat) :
    storageByte q (popBytes n r) i = storageByte q r i := rfl

/-- A byte written goes to the end of the contents (R132, R153). -/
theorem contents_pushByte {q : QSel} {r : RingBuffer} (h : CursorInv r) (hu : r.used < r.capacity) (b : Byte) :
    contents q (pushByte r b) = contents q r ++ [b] := by
  simp only [contents, pushByte_used, List.range_succ, List.map_append, List.map_cons, List.map_nil, pushByte_head,
    pushByte_capacity, storageByte_pushByte, h.2.2, if_true]
  congr 1
  refine List.map_congr_left fun k hk => ?_
  rw [if_neg (wrap_ne (List.mem_range.mp hk) (by omega))]

/-- Bytes taken leave the contents from the front (R133, R153). -/
theorem contents_popBytes {q : QSel} {r : RingBuffer} {n : Nat} :
    contents q (popBytes n r) = (contents q r).drop n := by
  apply List.ext_getElem
  · simp
  · intro i h1 h2
    rw [List.getElem_drop, contents_getElem, contents_getElem, storageByte_popBytes]
    simp only [popBytes_head, popBytes_capacity, Nat.mod_add_mod]
    congr 2
    omega

theorem UsedWritten.push {r : RingBuffer} (hc : CursorInv r) (h : UsedWritten r) (hu : r.used < r.capacity) (b : Byte) :
    UsedWritten (pushByte r b) := by
  intro k hk
  simp only [pushByte_head, pushByte_capacity, pushByte_used] at hk ⊢
  rcases Nat.lt_succ_iff_lt_or_eq.mp hk with hk | rfl
  · simp only [pushByte]
    rw [hc.2.2, storeRead_storeWrite_other _ _ (wrap_ne hk (by omega))]
    exact h k hk
  · simp only [pushByte]
    rw [hc.2.2, storeRead_storeWrite_same]
    rfl

theorem UsedWritten.pop {r : RingBuffer} (h : UsedWritten r) (n : Nat) : UsedWritten (popBytes n r) := by
  intro k hk
  simp only [popBytes_head, popBytes_capacity, popBytes_used, popBytes_storage, Nat.mod_add_mod] at hk ⊢
  rw [Nat.add_assoc]
  exact h (n + k) (by omega)

theorem StorageInRange.push {r : RingBuffer} (hc : CursorInv r) (h : StorageInRange r) (b : Byte) :
    StorageInRange (pushByte r b) := by
  intro c hm
  rcases mem_storeWrite hm with hm | hm
  · simp only [pushByte_capacity, hm]; exact hc.tail_lt
  · exact h c hm

/-- `r` with `bs` stored from `tail` on. Irreducible: its lemmas say all there is, and no check should run the stores. -/
@[irreducible] def pushBytes (r : RingBuffer) (bs : List Byte) : RingBuffer := bs.foldl pushByte r

@[simp] theorem pushBytes_nil (r : RingBuffer) : pushBytes r [] = r := by unfold pushBytes; rfl
@[simp] theorem pushBytes_cons (r : RingBuffer) (b : Byte) (bs : List Byte) :
    pushBytes r (b :: bs) = pushBytes (pushByte r b) bs := by unfold pushBytes; rfl

@[simp] theorem pushBytes_capacity (bs : List Byte) : ∀ r, (pushBytes r bs).capacity = r.capacity := by
  induction bs with
  | nil => intro r; simp
  | cons b bs ih => intro r; simp [ih]

@[simp] theorem pushBytes_head (bs : List Byte) : ∀ r, (pushBytes r bs).head = r.head := by
  induction bs with
  | nil => intro r; simp
  | cons b bs ih => intro r; simp [ih]

@[simp] theorem pushBytes_overflowCount (bs : List Byte) : ∀ r, (pushBytes r bs).overflowCount = r.overflowCount := by
  induction bs with
  | nil => intro r; simp
  | cons b bs ih => intro r; simp [ih]

@[simp] theorem pushBytes_storageEpoch (bs : List Byte) : ∀ r, (pushBytes r bs).storageEpoch = r.storageEpoch := by
  induction bs with
  | nil => intro r; simp
  | cons b bs ih => intro r; simp [ih]

@[simp] theorem pushBytes_used (bs : List Byte) : ∀ r, (pushBytes r bs).used = r.used + bs.length := by
  induction bs with
  | nil => intro r; simp
  | cons b bs ih => intro r; simp [ih]; omega

/-- Everything that holds of a ring buffer with `bs` stored in its free room (R27, R26). -/
structure Pushed (q : QSel) (r r' : RingBuffer) (bs : List Byte) : Prop where
  cursors : CursorInv r'
  contents : contents q r' = contents q r ++ bs
  written : UsedWritten r → UsedWritten r'
  inRange : StorageInRange r → StorageInRange r'
  stored : Memory.wf r.storage → Memory.wf r'.storage
  elsewhere : ∀ a, (∀ k < bs.length, a ≠ (r.tail + k) % r.capacity) → storageByte q r' a = storageByte q r a

theorem pushBytes_spec (q : QSel) (bs : List Byte) :
    ∀ r, CursorInv r → r.used + bs.length ≤ r.capacity → Pushed q r (pushBytes r bs) bs := by
  induction bs with
  | nil => intro r h _; rw [pushBytes_nil]; exact ⟨h, by simp, id, id, id, fun _ _ => rfl⟩
  | cons b bs ih =>
    intro r h hu
    rw [List.length_cons] at hu
    have hp := ih (pushByte r b) (h.push (by omega) b) (by simp only [pushByte_used, pushByte_capacity]; omega)
    rw [pushBytes_cons]
    refine ⟨hp.cursors, ?_, fun hw => hp.written (UsedWritten.push h hw (by omega) b),
      fun hw => hp.inRange (StorageInRange.push h hw b), fun hw => hp.stored (storeWf_storeWrite hw _ _), ?_⟩
    · rw [hp.contents, contents_pushByte h (by omega)]; simp
    · intro a ha
      rw [hp.elsewhere, storageByte_pushByte, if_neg]
      · have := ha 0 (by simp)
        rwa [Nat.add_zero, Nat.mod_eq_of_lt h.tail_lt] at this
      · intro k hk
        have := ha (k + 1) (by simp; omega)
        simpa [Nat.mod_add_mod, Nat.add_assoc, Nat.add_comm 1] using this

/-- `rb_write_frame` into a buffer with room for all bytes (R137). -/
theorem rbWriteFrame_room {cntW : Nat} (bs : List Byte) :
    ∀ r, CursorInv r → r.used + bs.length ≤ r.capacity → rbWriteFrame cntW r bs = .ok (.ok, pushBytes r bs) := by
  induction bs with
  | nil => intro r _ _; rw [pushBytes_nil]; rfl
  | cons b bs ih =>
    intro r h hu
    rw [List.length_cons] at hu
    rw [rbWriteFrame, rbWriteByte_room (by omega) h.tail_lt, pushBytes_cons]
    exact ih _ (h.push (by omega) b) (by simp only [pushByte_used, pushByte_capacity]; omega)

/-- `rb_write_frame` into a full buffer stops at the first byte (R137, R154). -/
theorem rbWriteFrame_full {cntW : Nat} {r : RingBuffer} (h : r.used = r.capacity) (b : Byte) (bs : List Byte) :
    rbWriteFrame cntW r (b :: bs) = .ok (.overflow, countRefusal cntW r) := by
  rw [rbWriteFrame, rbWriteByte_full h]

theorem popBytes_zero {r : RingBuffer} (h : r.head < r.capacity) : popBytes 0 r = r := by
  obtain ⟨c, u, hd, t, o, st, e⟩ := r
  simp only [popBytes, Nat.add_zero, Nat.sub_zero, RingBuffer.mk.injEq, true_and, and_true]
  exact Nat.mod_eq_of_lt h

theorem popBytes_succ (n : Nat) (r : RingBuffer) : popBytes n (popBytes 1 r) = popBytes (n + 1) r := by
  obtain ⟨c, u, hd, t, o, st, e⟩ := r
  simp only [popBytes, Nat.mod_add_mod, RingBuffer.mk.injEq, true_and, and_true]
  exact ⟨by omega, by congr 1; omega⟩

/-- `n` reads of a buffer that holds `n` bytes (R138). -/
theorem rbReadBytes_spec (q : QSel) (n : Nat) :
    ∀ r, CursorInv r → n ≤ r.used → rbReadBytes q n r = .ok ((contents q r).take n, popBytes n r) := by
  induction n with
  | zero => intro r h _; rw [rbReadBytes, popBytes_zero h.2.1, List.take_zero]
  | succ n ih =>
    intro r h hn
    have hc : contents q r = storageByte q r r.head :: contents q (popBytes 1 r) := by
      have h0 : 0 < (contents q r).length := by simp; omega
      have hd := List.drop_eq_getElem_cons h0
      rw [List.drop_zero, contents_getElem, Nat.add_zero, Nat.mod_eq_of_lt h.2.1] at hd
      rw [contents_popBytes, ← hd]
    rw [rbReadBytes, rbReadByte_some (by omega) h.2.1]
    simp only [ih _ (h.pop (n := 1) (by omega)) (by simp only [popBytes_used]; omega)]
    rw [hc, List.take_succ_cons, popBytes_succ]

/-- `rb_drop_frame` of a buffer that holds the bytes (R140). -/
theorem rbDropBytes_spec (q : QSel) (n : Nat) :
    ∀ r, CursorInv r → n ≤ r.used → rbDropBytes q n r = .ok (popBytes n r) := by
  induction n with
  | zero => intro r h _; rw [rbDropBytes, popBytes_zero h.2.1]
  | succ n ih =>
    intro r h hn
    rw [rbDropBytes, rbReadByte_some (by omega) h.2.1]
    simp only [ih _ (h.pop (n := 1) (by omega)) (by simp only [popBytes_used]; omega), popBytes_succ]

theorem peekFrom_spec (q : QSel) (r : RingBuffer) (h : 0 < r.capacity) (m : Nat) :
    ∀ i, i + m ≤ r.used → peekFrom q r i m = .ok (((contents q r).drop i).take m) := by
  induction m with
  | zero => intro i _; simp [peekFrom]
  | succ m ih =>
    intro i hi
    have hlt : i < (contents q r).length := by simp; omega
    rw [peekFrom, memRead, if_pos (Nat.mod_lt _ h)]
    simp only [ih (i + 1) (by omega)]
    rw [List.drop_eq_getElem_cons hlt, List.take_succ_cons, contents_getElem]

/-- `RB.PEEK_MANY` gives the first `min(n, used)` bytes of the contents (R134). -/
theorem rbPeekMany_spec (q : QSel) (r : RingBuffer) (h : 0 < r.capacity) (n : Nat) :
    rbPeekMany q r n = .ok ((contents q r).take n) := by
  rw [rbPeekMany, peekFrom_spec q r h _ 0 (by omega), List.drop_zero]
  congr 1
  by_cases hn : n ≤ r.used
  · rw [Nat.min_eq_left hn]
  · rw [Nat.min_eq_right (by omega), List.take_of_length_le (by simp), List.take_of_length_le (by simp; omega)]

/-- A `SER16` value is at the front of any sixteen bytes, and its bytes are those. -/
theorem takeSer16_of_length (bs : List Byte) (h : Config.frameBytes ≤ bs.length) :
    ∃ b, takeSer16 bs = some (b, bs.drop Config.frameBytes) ∧ bs.take Config.frameBytes = ser16Bytes b := by
  match bs, h with
  | b0 :: b1 :: b2 :: b3 :: b4 :: b5 :: b6 :: b7 :: b8 :: b9 :: b10 :: b11 :: b12 :: b13 :: b14 :: b15 :: rest, _ =>
    exact ⟨⟨b0, b1, b2, b3, b4, b5, b6, b7, b8, b9, b10, b11, b12, b13, b14, b15⟩, rfl, rfl⟩

/-- The bytes of one frame, then the rest, are one frame, then the rest (R98). -/
theorem framesOf_ser16Bytes (b : Ser16) (rest : List Byte) :
    framesOf (ser16Bytes b ++ rest) = deserializeFrame b :: framesOf rest := rfl

/-- `rb_read_frame` of a buffer that holds a frame (R138): the oldest frame, and the buffer without it. -/
theorem rbReadFrame_spec (q : QSel) (r : RingBuffer) (h : CursorInv r) (hn : Config.frameBytes ≤ r.used) :
    ∃ b, rbReadFrame q r = .ok (b, popBytes Config.frameBytes r) ∧
      contents q r = ser16Bytes b ++ contents q (popBytes Config.frameBytes r) := by
  obtain ⟨b, hb, ht⟩ := takeSer16_of_length ((contents q r).take Config.frameBytes) (by simp [hn])
  rw [List.take_take, Nat.min_self] at ht
  refine ⟨b, ?_, ?_⟩
  · rw [rbReadFrame, rbReadBytes_spec q _ r h hn]
    simp only [hb]
  · rw [contents_popBytes, ← ht, List.take_append_drop]

/-- `rb_peek_frame` of a buffer that holds a frame (R139): the oldest frame. -/
theorem rbPeekFrame_spec (q : QSel) (r : RingBuffer) (h : CursorInv r) (hn : Config.frameBytes ≤ r.used) :
    ∃ b, rbPeekFrame q r = .ok b ∧ contents q r = ser16Bytes b ++ (contents q r).drop Config.frameBytes := by
  obtain ⟨b, hb, ht⟩ := takeSer16_of_length ((contents q r).take Config.frameBytes) (by simp [hn])
  rw [List.take_take, Nat.min_self] at ht
  refine ⟨b, ?_, ?_⟩
  · rw [rbPeekFrame, rbPeekMany_spec q r h.capacity_pos]
    simp only [hb]
  · rw [← ht, List.take_append_drop]

/-- `rb_drop_frame` of a buffer that holds a frame (R140). -/
theorem rbDropFrame_spec (q : QSel) (r : RingBuffer) (h : CursorInv r) (hn : Config.frameBytes ≤ r.used) :
    rbDropFrame q r = .ok (popBytes Config.frameBytes r) :=
  rbDropBytes_spec q _ r h hn

end Sys2Proof.Machine
end

