-- ==== Sys2Proof/Laws/Codec.lean ====
section
/-! SUPPORT. What the codec's byte and field views say of each other, once. -/

namespace Sys2Proof

@[simp] theorem frameKindOf_bit (k : FrameKind) : frameKindOf (frameKindBit k) = k := by cases k <;> decide

@[simp] theorem payloadKindOf_bit (k : PayloadKind) : payloadKindOf (payloadKindBit k) = k := by cases k <;> decide

/-- A value widened and cut back is itself. -/
theorem extract_setWidth_self {n m : Nat} (x : BitVec n) (h : n ≤ m) : (x.setWidth m).extractLsb' 0 n = x := by
  ext i hi
  simp [BitVec.getLsbD_eq_getElem, hi, show i < m by omega]

theorem laneLow_packLane (lo hi : Byte) : laneLow (packLane lo hi) = lo := by
  ext i hi
  simp [laneLow, packLane, hi, show i < 16 by omega]

theorem laneHigh_packLane (lo hi : Byte) : laneHigh (packLane lo hi) = hi := by
  ext i hi
  simp [laneHigh, packLane, hi, show 8 + i < 16 by omega]

theorem packLane_lanes (w : Word) : packLane (laneLow w) (laneHigh w) = w := by
  ext i hi
  by_cases h : i < 8
  · simp [packLane, laneLow, laneHigh, h, BitVec.getLsbD_eq_getElem, hi]
  · have : i - 8 < 8 := by omega
    simp [packLane, laneLow, laneHigh, h, this, BitVec.getLsbD_eq_getElem, hi, show 8 + (i - 8) = i by omega]

section packWire

variable (ide rtr : BitVec 1) (sid : BitVec 11) (mid : BitVec 12) (low : BitVec 6) (dlc : BitVec 4) (d : Payload)

theorem wireIde_packWire : wireIde (packWire ide rtr sid mid low dlc d) = ide := by
  ext i hi
  obtain rfl : i = 0 := by omega
  simp [wireIde, packWire]

theorem wireRtr_packWire : wireRtr (packWire ide rtr sid mid low dlc d) = rtr := by
  ext i hi
  obtain rfl : i = 0 := by omega
  simp [wireRtr, packWire]

theorem wireSid_packWire : wireSid (packWire ide rtr sid mid low dlc d) = sid := by
  ext i hi
  simp [wireSid, packWire, hi, show 2 + i < 16 by omega, show ¬ (2 + i ≤ 1) by omega,
    BitVec.getLsbD_of_ge ide (2 + i) (by omega)]

theorem wireMid_packWire : wireMid (packWire ide rtr sid mid low dlc d) = mid :=
  extract_setWidth_self mid (by omega)

theorem wireLow_packWire : wireLow (packWire ide rtr sid mid low dlc d) = low := by
  ext i hi
  simp [wireLow, packWire, hi, show 10 + i < 16 by omega, show ¬ (10 + i < 9) by omega,
    BitVec.getLsbD_of_ge rtr (10 + i - 9) (by omega), BitVec.getLsbD_of_ge dlc (10 + i) (by omega)]

theorem wireDlc_packWire : wireDlc (packWire ide rtr sid mid low dlc d) = dlc := by
  ext i hi
  simp [wireDlc, packWire, hi, show i < 16 by omega, show i < 10 by omega, show i < 9 by omega]

theorem wireData_packWire : wireData (packWire ide rtr sid mid low dlc d) = d := by
  simp [wireData, packWire, laneLow_packLane, laneHigh_packLane]

end packWire

/-- The bytes of a `SER16` value are read back as the value (R98). -/
theorem takeSer16_ser16Bytes (b : Ser16) (rest : List Byte) : takeSer16 (ser16Bytes b ++ rest) = some (b, rest) := rfl

/-- The bytes of a `WIRE7` value are read back as the value (R100). -/
theorem takeWire_wireBytes (w : WireWords) (rest : List Byte) : takeWire (wireBytes w ++ rest) = some (w, rest) := by
  simp [wireBytes, takeWire, packLane_lanes]

/-- The bytes of a byte count are read back as the count. -/
theorem takeCount_countBytes (n : Nat) (h : n < 2 ^ 32) (rest : List Byte) :
    takeCount (countBytes n ++ rest) = some (n, rest) := by
  simp [countBytes, takeCount]
  omega

/-- `FC.DESERIALIZE` undoes `FC.SERIALIZE` in every field (R171). -/
theorem deserializeFrame_serializeFrame (f : CanFrame) : deserializeFrame (serializeFrame f) = f := by
  obtain ⟨id, fk, pk, d, len, slot⟩ := f
  simp only [deserializeFrame, serializeFrame, extract_setWidth_self _ (show 1 ≤ 8 by omega),
    extract_setWidth_self _ (show 4 ≤ 8 by omega), frameKindOf_bit, payloadKindOf_bit, CanFrame.mk.injEq, and_true]
  ext i hi
  rw [BitVec.getElem_extractLsb', BitVec.getLsbD_append, BitVec.getLsbD_append, BitVec.getLsbD_append]
  simp only [Nat.zero_add, BitVec.getLsbD_extractLsb', BitVec.getLsbD_setWidth]
  rw [← BitVec.getLsbD_eq_getElem hi]
  split
  · simp [*]
  · split
    · simp [*, show 8 + (i - 8) = i by omega]
    · split
      · simp [*, show 16 + (i - 8 - 8) = i by omega]
      · simp [*, show 24 + (i - 8 - 8 - 8) = i by omega, show i - 8 - 8 - 8 < 5 by omega, show i - 8 - 8 - 8 < 8 by omega]

end Sys2Proof
end

