-- ==== Sys2Proof/Laws/State.lean ====
section
/-! SUPPORT. One lemma per field per state update, true by computation, so that no proof unfolds an update. -/

namespace Sys2Proof.Machine

/-! The slot field and the count field of a build (R7, R100). -/

/-- The value of a slot field: the low `SLOT_W` bits. -/
theorem fitSlot_toNat (cfg : Config) (slot : Slot) : (fitSlot cfg slot).toNat = slot.toNat % 2 ^ cfg.slotW.val := by
  have h : slot.toNat % 2 ^ cfg.slotW.val < 2 ^ 8 := lt_of_le_of_lt (Nat.mod_le _ _) slot.isLt
  simpa [fitSlot] using h

theorem fitSlot_lt (cfg : Config) (slot : Slot) : (fitSlot cfg slot).toNat < 2 ^ cfg.slotW.val := by
  rw [fitSlot_toNat]; exact Nat.mod_lt _ (Nat.two_pow_pos _)

/-- A slot that has only `SLOT_W` bits is carried as it is. -/
theorem fitSlot_of_lt {cfg : Config} {slot : Slot} (h : slot.toNat < 2 ^ cfg.slotW.val) : fitSlot cfg slot = slot :=
  BitVec.eq_of_toNat_eq (by rw [fitSlot_toNat, Nat.mod_eq_of_lt h])

@[simp] theorem fitSlot_fitSlot (cfg : Config) (slot : Slot) : fitSlot cfg (fitSlot cfg slot) = fitSlot cfg slot :=
  fitSlot_of_lt (fitSlot_lt cfg slot)

/-- At the default width every slot is carried as it is (D14). -/
theorem fitSlot_default {cfg : Config} (h : cfg.slotW = 8) (slot : Slot) : fitSlot cfg slot = slot :=
  fitSlot_of_lt (by rw [h]; exact slot.isLt)

@[simp] theorem fitFrame_identifier (cfg : Config) (f : CanFrame) : (fitFrame cfg f).identifier = f.identifier := rfl
@[simp] theorem fitFrame_frameKind (cfg : Config) (f : CanFrame) : (fitFrame cfg f).frameKind = f.frameKind := rfl
@[simp] theorem fitFrame_payloadKind (cfg : Config) (f : CanFrame) : (fitFrame cfg f).payloadKind = f.payloadKind := rfl
@[simp] theorem fitFrame_data (cfg : Config) (f : CanFrame) : (fitFrame cfg f).data = f.data := rfl
@[simp] theorem fitFrame_validLength (cfg : Config) (f : CanFrame) : (fitFrame cfg f).validLength = f.validLength := rfl
@[simp] theorem fitFrame_hardwareSlot (cfg : Config) (f : CanFrame) :
    (fitFrame cfg f).hardwareSlot = fitSlot cfg f.hardwareSlot := rfl

@[simp] theorem fitFrame_fitFrame (cfg : Config) (f : CanFrame) : fitFrame cfg (fitFrame cfg f) = fitFrame cfg f := by
  simp [fitFrame]

/-- The wire words carry no slot (R47). -/
@[simp] theorem encodeFrame_fitFrame (cfg : Config) (f : CanFrame) : encodeFrame (fitFrame cfg f) = encodeFrame f := rfl

@[simp] theorem fitFrame_decodeFrame (cfg : Config) (w : WireWords) (slot : Slot) :
    fitFrame cfg (decodeFrame w slot) = decodeFrame w (fitSlot cfg slot) := rfl

/-- A counter value that the field can hold is shown zero-extended (R100). -/
theorem countField_toNat {width n : Nat} (h : n < 2 ^ width) : (countField width n).toNat = n := by
  simp [countField, h, Nat.mod_eq_of_lt h]

/-- An overflow count always fits its field (R25, R100). -/
theorem countInv_fits {cfg : Config} {r : RingBuffer} (h : r.overflowCount ≤ 2 ^ cfg.cntW - 1) :
    r.overflowCount < 2 ^ countWidth cfg :=
  lt_of_lt_of_le (Nat.lt_of_le_sub_one (Nat.two_pow_pos _) h)
    (Nat.pow_le_pow_right (by decide) (Nat.le_max_left _ _))

/-! The updates of State. -/

@[simp] theorem respond_cfg (s : State) (st : Status) (d : ResultData) : (respond s st d).cfg = s.cfg := rfl
@[simp] theorem respond_tx (s : State) (st : Status) (d : ResultData) : (respond s st d).tx = s.tx := rfl
@[simp] theorem respond_rx (s : State) (st : Status) (d : ResultData) : (respond s st d).rx = s.rx := rfl
@[simp] theorem respond_initState (s : State) (st : Status) (d : ResultData) : (respond s st d).initState = s.initState := rfl
@[simp] theorem respond_env (s : State) (st : Status) (d : ResultData) : (respond s st d).env = s.env := rfl
@[simp] theorem respond_inputs (s : State) (st : Status) (d : ResultData) : (respond s st d).inputs = s.inputs := rfl
@[simp] theorem respond_response (s : State) (st : Status) (d : ResultData) : (respond s st d).response = some ⟨some st, d⟩ := rfl
@[simp] theorem respond_trace (s : State) (st : Status) (d : ResultData) : (respond s st d).trace = s.trace := rfl
@[simp] theorem respond_freeCount (s : State) (st : Status) (d : ResultData) : (respond s st d).freeCount = s.freeCount := rfl

@[simp] theorem respondCount_cfg (s : State) (n : Nat) : (respondCount s n).cfg = s.cfg := rfl
@[simp] theorem respondCount_tx (s : State) (n : Nat) : (respondCount s n).tx = s.tx := rfl
@[simp] theorem respondCount_rx (s : State) (n : Nat) : (respondCount s n).rx = s.rx := rfl
@[simp] theorem respondCount_initState (s : State) (n : Nat) : (respondCount s n).initState = s.initState := rfl
@[simp] theorem respondCount_env (s : State) (n : Nat) : (respondCount s n).env = s.env := rfl
@[simp] theorem respondCount_inputs (s : State) (n : Nat) : (respondCount s n).inputs = s.inputs := rfl
@[simp] theorem respondCount_response (s : State) (n : Nat) : (respondCount s n).response = some ⟨some .ok, .count (countWidth s.cfg) (countField (countWidth s.cfg) n)⟩ := rfl
@[simp] theorem respondCount_trace (s : State) (n : Nat) : (respondCount s n).trace = s.trace := rfl
@[simp] theorem respondCount_freeCount (s : State) (n : Nat) : (respondCount s n).freeCount = s.freeCount := rfl

@[simp] theorem respondData_cfg (s : State) (d : ResultData) : (respondData s d).cfg = s.cfg := rfl
@[simp] theorem respondData_tx (s : State) (d : ResultData) : (respondData s d).tx = s.tx := rfl
@[simp] theorem respondData_rx (s : State) (d : ResultData) : (respondData s d).rx = s.rx := rfl
@[simp] theorem respondData_initState (s : State) (d : ResultData) : (respondData s d).initState = s.initState := rfl
@[simp] theorem respondData_env (s : State) (d : ResultData) : (respondData s d).env = s.env := rfl
@[simp] theorem respondData_inputs (s : State) (d : ResultData) : (respondData s d).inputs = s.inputs := rfl
@[simp] theorem respondData_response (s : State) (d : ResultData) : (respondData s d).response = some ⟨none, d⟩ := rfl
@[simp] theorem respondData_trace (s : State) (d : ResultData) : (respondData s d).trace = s.trace := rfl
@[simp] theorem respondData_freeCount (s : State) (d : ResultData) : (respondData s d).freeCount = s.freeCount := rfl

@[simp] theorem takeInput_cfg (s : State) (rest : List Input) : (takeInput s rest).cfg = s.cfg := rfl
@[simp] theorem takeInput_tx (s : State) (rest : List Input) : (takeInput s rest).tx = s.tx := rfl
@[simp] theorem takeInput_rx (s : State) (rest : List Input) : (takeInput s rest).rx = s.rx := rfl
@[simp] theorem takeInput_initState (s : State) (rest : List Input) : (takeInput s rest).initState = s.initState := rfl
@[simp] theorem takeInput_env (s : State) (rest : List Input) : (takeInput s rest).env = s.env := rfl
@[simp] theorem takeInput_inputs (s : State) (rest : List Input) : (takeInput s rest).inputs = rest := rfl
@[simp] theorem takeInput_response (s : State) (rest : List Input) : (takeInput s rest).response = s.response := rfl
@[simp] theorem takeInput_trace (s : State) (rest : List Input) : (takeInput s rest).trace = s.trace := rfl
@[simp] theorem takeInput_freeCount (s : State) (rest : List Input) : (takeInput s rest).freeCount = s.freeCount := rfl

@[simp] theorem clearTxFlag_cfg (s : State) : (clearTxFlag s).cfg = s.cfg := rfl
@[simp] theorem clearTxFlag_tx (s : State) : (clearTxFlag s).tx = s.tx := rfl
@[simp] theorem clearTxFlag_rx (s : State) : (clearTxFlag s).rx = s.rx := rfl
@[simp] theorem clearTxFlag_initState (s : State) : (clearTxFlag s).initState = s.initState := rfl
@[simp] theorem clearTxFlag_env (s : State) : (clearTxFlag s).env = { s.env with txCompletePending := false } := rfl
@[simp] theorem clearTxFlag_inputs (s : State) : (clearTxFlag s).inputs = s.inputs := rfl
@[simp] theorem clearTxFlag_response (s : State) : (clearTxFlag s).response = s.response := rfl
@[simp] theorem clearTxFlag_trace (s : State) : (clearTxFlag s).trace = s.trace := rfl
@[simp] theorem clearTxFlag_freeCount (s : State) : (clearTxFlag s).freeCount = s.freeCount := rfl

@[simp] theorem clearRxFlag_cfg (s : State) : (clearRxFlag s).cfg = s.cfg := rfl
@[simp] theorem clearRxFlag_tx (s : State) : (clearRxFlag s).tx = s.tx := rfl
@[simp] theorem clearRxFlag_rx (s : State) : (clearRxFlag s).rx = s.rx := rfl
@[simp] theorem clearRxFlag_initState (s : State) : (clearRxFlag s).initState = s.initState := rfl
@[simp] theorem clearRxFlag_env (s : State) : (clearRxFlag s).env = { s.env with rxCompletePending := false, rxCompleteWords := none } := rfl
@[simp] theorem clearRxFlag_inputs (s : State) : (clearRxFlag s).inputs = s.inputs := rfl
@[simp] theorem clearRxFlag_response (s : State) : (clearRxFlag s).response = s.response := rfl
@[simp] theorem clearRxFlag_trace (s : State) : (clearRxFlag s).trace = s.trace := rfl
@[simp] theorem clearRxFlag_freeCount (s : State) : (clearRxFlag s).freeCount = s.freeCount := rfl

@[simp] theorem hardwareTransmit_cfg (slot : Slot) (w : WireWords) (s : State) : (hardwareTransmit slot w s).cfg = s.cfg := rfl
@[simp] theorem hardwareTransmit_tx (slot : Slot) (w : WireWords) (s : State) : (hardwareTransmit slot w s).tx = s.tx := rfl
@[simp] theorem hardwareTransmit_rx (slot : Slot) (w : WireWords) (s : State) : (hardwareTransmit slot w s).rx = s.rx := rfl
@[simp] theorem hardwareTransmit_initState (slot : Slot) (w : WireWords) (s : State) : (hardwareTransmit slot w s).initState = s.initState := rfl
@[simp] theorem hardwareTransmit_env (slot : Slot) (w : WireWords) (s : State) : (hardwareTransmit slot w s).env = { s.env with messageObjects := storeWrite s.env.messageObjects slot.toNat w, txOutstanding := true } := rfl
@[simp] theorem hardwareTransmit_inputs (slot : Slot) (w : WireWords) (s : State) : (hardwareTransmit slot w s).inputs = s.inputs := rfl
@[simp] theorem hardwareTransmit_response (slot : Slot) (w : WireWords) (s : State) : (hardwareTransmit slot w s).response = s.response := rfl
@[simp] theorem hardwareTransmit_trace (slot : Slot) (w : WireWords) (s : State) : (hardwareTransmit slot w s).trace = s.trace ++ [.transmit slot w] := rfl
@[simp] theorem hardwareTransmit_freeCount (slot : Slot) (w : WireWords) (s : State) : (hardwareTransmit slot w s).freeCount = s.freeCount := rfl

@[simp] theorem startTransmission_cfg (f : CanFrame) (s : State) : (startTransmission f s).cfg = s.cfg := rfl
@[simp] theorem startTransmission_tx (f : CanFrame) (s : State) : (startTransmission f s).tx = s.tx := rfl
@[simp] theorem startTransmission_rx (f : CanFrame) (s : State) : (startTransmission f s).rx = s.rx := rfl
@[simp] theorem startTransmission_initState (f : CanFrame) (s : State) : (startTransmission f s).initState = s.initState := rfl
@[simp] theorem startTransmission_env (f : CanFrame) (s : State) : (startTransmission f s).env = { s.env with messageObjects := storeWrite s.env.messageObjects f.hardwareSlot.toNat (encodeFrame f), txOutstanding := true } := rfl
@[simp] theorem startTransmission_inputs (f : CanFrame) (s : State) : (startTransmission f s).inputs = s.inputs := rfl
@[simp] theorem startTransmission_response (f : CanFrame) (s : State) : (startTransmission f s).response = s.response := rfl
@[simp] theorem startTransmission_trace (f : CanFrame) (s : State) : (startTransmission f s).trace = s.trace ++ [.transmit f.hardwareSlot (encodeFrame f)] := rfl
@[simp] theorem startTransmission_freeCount (f : CanFrame) (s : State) : (startTransmission f s).freeCount = s.freeCount := rfl

@[simp] theorem illegalOp_cfg (s : State) : (illegalOp s).cfg = s.cfg := rfl
@[simp] theorem illegalOp_tx (s : State) : (illegalOp s).tx = s.tx := rfl
@[simp] theorem illegalOp_rx (s : State) : (illegalOp s).rx = s.rx := rfl
@[simp] theorem illegalOp_initState (s : State) : (illegalOp s).initState = s.initState := rfl
@[simp] theorem illegalOp_env (s : State) : (illegalOp s).env = s.env := rfl
@[simp] theorem illegalOp_inputs (s : State) : (illegalOp s).inputs = s.inputs := rfl
@[simp] theorem illegalOp_response (s : State) : (illegalOp s).response = some ⟨some .illegalOp, .none⟩ := rfl
@[simp] theorem illegalOp_trace (s : State) : (illegalOp s).trace = s.trace := rfl
@[simp] theorem illegalOp_freeCount (s : State) : (illegalOp s).freeCount = s.freeCount := rfl

@[simp] theorem withoutCauses_cfg (s : State) : (withoutCauses s).cfg = s.cfg := rfl
@[simp] theorem withoutCauses_tx (s : State) : (withoutCauses s).tx = s.tx := rfl
@[simp] theorem withoutCauses_rx (s : State) : (withoutCauses s).rx = s.rx := rfl
@[simp] theorem withoutCauses_initState (s : State) : (withoutCauses s).initState = s.initState := rfl
@[simp] theorem withoutCauses_env (s : State) : (withoutCauses s).env = { s.env with txCompletePending := false, rxCompletePending := false } := rfl
@[simp] theorem withoutCauses_inputs (s : State) : (withoutCauses s).inputs = s.inputs := rfl
@[simp] theorem withoutCauses_response (s : State) : (withoutCauses s).response = s.response := rfl
@[simp] theorem withoutCauses_trace (s : State) : (withoutCauses s).trace = s.trace := rfl
@[simp] theorem withoutCauses_freeCount (s : State) : (withoutCauses s).freeCount = s.freeCount := rfl

@[simp] theorem failedInit_cfg (s : State) : (failedInit s).cfg = s.cfg := rfl
@[simp] theorem failedInit_initState (s : State) : (failedInit s).initState = .failed := rfl
@[simp] theorem failedInit_env (s : State) : (failedInit s).env = s.env := rfl
@[simp] theorem failedInit_inputs (s : State) : (failedInit s).inputs = s.inputs := rfl
@[simp] theorem failedInit_response (s : State) : (failedInit s).response = s.response := rfl
@[simp] theorem failedInit_trace (s : State) : (failedInit s).trace = s.trace := rfl
@[simp] theorem failedInit_freeCount (s : State) : (failedInit s).freeCount = s.freeCount + 1 := rfl

@[simp] theorem setBuffer_cfg (s : State) (q : QSel) (r : RingBuffer) : (setBuffer s q r).cfg = s.cfg := by cases q <;> rfl
@[simp] theorem setBuffer_initState (s : State) (q : QSel) (r : RingBuffer) : (setBuffer s q r).initState = s.initState := by cases q <;> rfl
@[simp] theorem setBuffer_env (s : State) (q : QSel) (r : RingBuffer) : (setBuffer s q r).env = s.env := by cases q <;> rfl
@[simp] theorem setBuffer_inputs (s : State) (q : QSel) (r : RingBuffer) : (setBuffer s q r).inputs = s.inputs := by cases q <;> rfl
@[simp] theorem setBuffer_response (s : State) (q : QSel) (r : RingBuffer) : (setBuffer s q r).response = s.response := by cases q <;> rfl
@[simp] theorem setBuffer_trace (s : State) (q : QSel) (r : RingBuffer) : (setBuffer s q r).trace = s.trace := by cases q <;> rfl
@[simp] theorem setBuffer_freeCount (s : State) (q : QSel) (r : RingBuffer) : (setBuffer s q r).freeCount = s.freeCount := by cases q <;> rfl
@[simp] theorem setBuffer_txState (s : State) (q : QSel) (r : RingBuffer) :
    (setBuffer s q r).tx.txState = s.tx.txState := by cases q <;> rfl
@[simp] theorem setBuffer_pendingCount (s : State) (q : QSel) (r : RingBuffer) :
    (setBuffer s q r).rx.pendingCount = s.rx.pendingCount := by cases q <;> rfl
@[simp] theorem getBuffer_setBuffer_same (s : State) (q : QSel) (r : RingBuffer) :
    getBuffer (setBuffer s q r) q = r := by cases q <;> rfl
theorem getBuffer_setBuffer_other (s : State) {p q : QSel} (r : RingBuffer) (h : p ≠ q) :
    getBuffer (setBuffer s q r) p = getBuffer s p := by cases p <;> cases q <;> first | rfl | exact absurd rfl h
@[simp] theorem getBuffer_respond (s : State) (st : Status) (d : ResultData) (q : QSel) :
    getBuffer (respond s st d) q = getBuffer s q := by cases q <;> rfl

/-- `HW.RECEIVE_WORDS` changes the trace and the draw counter alone (R69, R241). -/
theorem hardwareReceiveWords_state (slot : Slot) (s : State) :
    (hardwareReceiveWords slot s).2 =
      { s with
        trace := s.trace ++ [.receiveWords slot]
        freeCount := (hardwareReceiveWords slot s).2.freeCount } := by
  unfold hardwareReceiveWords
  split <;> rfl

/-- The two ways a `SYS.INIT` ends (R301). -/
theorem initBlock_cases (s : State) :
    (legalCapacity s.cfg.txCapacity = true ∧ legalCapacity s.cfg.rxCapacity = true ∧
      initBlock s = (.ok,
        { s with
          tx := ⟨emptyBuffer s.cfg.txCapacity (s.tx.rb.storageEpoch + 1), .idle⟩
          rx := ⟨emptyBuffer s.cfg.rxCapacity (s.rx.rb.storageEpoch + 1), 0⟩
          initState := .ready })) ∨
    (¬(legalCapacity s.cfg.txCapacity = true ∧ legalCapacity s.cfg.rxCapacity = true) ∧
      initBlock s = (.capacityError, failedInit s)) := by
  unfold initBlock rbInit
  cases h1 : legalCapacity s.cfg.txCapacity <;> cases h2 : legalCapacity s.cfg.rxCapacity <;> simp

end Sys2Proof.Machine
end

