-- ==== Sys2Proof/Laws/Memory.lean ====
section
/-! SUPPORT. Every memory operation keeps the canonical form of the stores it touches, from any state: a write keeps it,
a read leaves the storage as it is (log entries 2 and 3). -/

namespace Sys2Proof.Machine

theorem memWrite_wf {r r1 : RingBuffer} {i : Nat} {b : Byte} (h : Memory.wf r.storage) (he : memWrite r i b = .ok r1) :
    Memory.wf r1.storage := by
  unfold memWrite at he
  split at he
  · cases he; exact storeWf_storeWrite h _ _
  · exact absurd he (by simp)

theorem rbWriteByte_wf {cntW : Nat} {r r1 : RingBuffer} {b : Byte} {st : Status} (h : Memory.wf r.storage)
    (he : rbWriteByte cntW r b = .ok (st, r1)) : Memory.wf r1.storage := by
  unfold rbWriteByte at he
  split at he
  · cases he; exact h
  · split at he
    · next hm =>
      have := memWrite_wf h hm
      cases he; exact this
    · exact absurd he (by simp)

theorem rbWriteFrame_wf {cntW : Nat} (bs : List Byte) :
    ∀ {r r1 : RingBuffer} {st : Status}, Memory.wf r.storage → rbWriteFrame cntW r bs = .ok (st, r1) →
      Memory.wf r1.storage := by
  induction bs with
  | nil => intro r r1 st h he; cases he; exact h
  | cons b bs ih =>
    intro r r1 st h he
    rw [rbWriteFrame] at he
    split at he
    · next hw => exact ih (rbWriteByte_wf h hw) he
    · next hw =>
      have := rbWriteByte_wf h hw
      cases he; exact this
    · exact absurd he (by simp)

/-- A read erases no storage byte (R133). -/
theorem rbReadByte_storage {q : QSel} {r r1 : RingBuffer} {o : Option Byte} (he : rbReadByte q r = .ok (o, r1)) :
    r1.storage = r.storage := by
  unfold rbReadByte at he
  split at he
  · cases he; rfl
  · split at he
    · cases he; rfl
    · exact absurd he (by simp)

theorem rbReadBytes_storage {q : QSel} (n : Nat) :
    ∀ {r r1 : RingBuffer} {bs : List Byte}, rbReadBytes q n r = .ok (bs, r1) → r1.storage = r.storage := by
  induction n with
  | zero => intro r r1 bs he; cases he; rfl
  | succ n ih =>
    intro r r1 bs he
    rw [rbReadBytes] at he
    split at he
    · next h1 =>
      split at he
      · next h2 =>
        have := ih h2
        cases he; rw [this, rbReadByte_storage h1]
      · exact absurd he (by simp)
    · exact absurd he (by simp)
    · exact absurd he (by simp)

theorem rbReadFrame_storage {q : QSel} {r r1 : RingBuffer} {b : Ser16} (he : rbReadFrame q r = .ok (b, r1)) :
    r1.storage = r.storage := by
  unfold rbReadFrame at he
  split at he
  · next h =>
    split at he
    · have := rbReadBytes_storage _ h
      cases he; exact this
    · exact absurd he (by simp)
  · exact absurd he (by simp)

theorem rbDropBytes_storage {q : QSel} (n : Nat) :
    ∀ {r r1 : RingBuffer}, rbDropBytes q n r = .ok r1 → r1.storage = r.storage := by
  induction n with
  | zero => intro r r1 he; cases he; rfl
  | succ n ih =>
    intro r r1 he
    rw [rbDropBytes] at he
    split at he
    · next h1 => rw [ih he, rbReadByte_storage h1]
    · next h1 =>
      have := rbReadByte_storage h1
      cases he; exact this
    · exact absurd he (by simp)

theorem recoverOverflow_storage (cfg : Config) (r : RingBuffer) : (recoverOverflow cfg r).storage = r.storage := by
  unfold recoverOverflow
  split <;> rfl

/-- Initialisation leaves storages with nothing written (R131). -/
theorem rbInit_wf (k : Nat) (r : RingBuffer) (c : Nat) : Memory.wf (rbInit k r c).2.storage := by
  unfold rbInit
  split <;> exact List.Pairwise.nil

/-- The state after reset lists nothing (R302). -/
theorem resetOf_wf (cfg : Config) :
    Memory.wf (State.resetOf cfg).tx.rb.storage ∧ Memory.wf (State.resetOf cfg).rx.rb.storage ∧
      storeWf (State.resetOf cfg).env.messageObjects :=
  ⟨List.Pairwise.nil, List.Pairwise.nil, List.Pairwise.nil⟩

theorem hardwareTransmit_wf {s : State} (h : storeWf s.env.messageObjects) (slot : Slot) (w : WireWords) :
    storeWf (hardwareTransmit slot w s).env.messageObjects := storeWf_storeWrite h _ _

end Sys2Proof.Machine
end

