-- ==== Sys2Proof/Laws/PerInstr.lean ====
section
/-! SUPPORT. For every operation, one lemma: the decoder reads back what the encoder wrote, and leaves what follows. -/

namespace Sys2Proof.Laws.RoundTrip

/-- The bytes the encoder gives a well-formed operation, whatever follows them, decode to it. -/
def Statement (i : Instr) : Prop :=
  i.WellFormed → ∀ rest, decode (encode i).1 ((encode i).2 ++ rest) = .ok (i, rest)

/-- A selector byte is read back as the selector (R100). -/
theorem takeSelector_selectorByte (code : Byte) (q : QSel) (rest : List Byte) :
    takeSelector code (selectorByte q :: rest) = .ok (q, rest) := by
  cases q <;> rfl

theorem takeWire_words_slot (w : WireWords) (slot : Slot) (rest : List Byte) :
    takeWire (wireBytes w ++ slot :: rest) = some (w, slot :: rest) :=
  takeWire_wireBytes w (slot :: rest)

theorem sysInit : Statement .sysInit :=
  fun _ _ => rfl

theorem rbInit (q : QSel) (n : Nat) : Statement (.rbInit q n) := by
  intro h rest
  have hc := takeCount_countBytes n h rest
  simp [decode, encode, decodeOp, decodeSelectorCount, takeSelector_selectorByte, hc, needOperand]

theorem rbWriteByte (q : QSel) (b : Byte) : Statement (.rbWriteByte q b) :=
  fun _ _ => by cases q <;> rfl

theorem rbReadByte (q : QSel) : Statement (.rbReadByte q) :=
  fun _ _ => by cases q <;> rfl

theorem rbPeekMany (q : QSel) (n : Nat) : Statement (.rbPeekMany q n) := by
  intro h rest
  have hc := takeCount_countBytes n h rest
  simp [decode, encode, decodeOp, decodeSelectorCount, takeSelector_selectorByte, hc, needOperand]

theorem rbReset (q : QSel) : Statement (.rbReset q) :=
  fun _ _ => by cases q <;> rfl

theorem fcEncode (f : CanFrame) : Statement (.fcEncode f) := by
  intro _ rest
  simp [decode, encode, decodeOp, decodeFrameOperand, takeSer16_ser16Bytes, needOperand,
    deserializeFrame_serializeFrame]

theorem fcDecode (w : WireWords) (slot : Slot) : Statement (.fcDecode w slot) := by
  intro _ rest
  simp [decode, encode, decodeOp, decodeWordsSlot, takeWire_words_slot, needOperand, takeByte]

theorem fcSerialize (f : CanFrame) : Statement (.fcSerialize f) := by
  intro _ rest
  simp [decode, encode, decodeOp, decodeFrameOperand, takeSer16_ser16Bytes, needOperand,
    deserializeFrame_serializeFrame]

theorem fcDeserialize (b : Ser16) : Statement (.fcDeserialize b) :=
  fun _ _ => rfl

theorem txEnqueue (f : CanFrame) : Statement (.txEnqueue f) := by
  intro _ rest
  simp [decode, encode, decodeOp, decodeFrameOperand, takeSer16_ser16Bytes, needOperand,
    deserializeFrame_serializeFrame]

theorem txOnComplete : Statement .txOnComplete :=
  fun _ _ => rfl

theorem txOverflowCount : Statement .txOverflowCount :=
  fun _ _ => rfl

theorem rxOnFrame (w : WireWords) (slot : Slot) : Statement (.rxOnFrame w slot) := by
  intro _ rest
  simp [decode, encode, decodeOp, decodeWordsSlot, takeWire_words_slot, needOperand, takeByte]

theorem rxDequeue : Statement .rxDequeue :=
  fun _ _ => rfl

theorem rxPendingCount : Statement .rxPendingCount :=
  fun _ _ => rfl

theorem rxOverflowCount : Statement .rxOverflowCount :=
  fun _ _ => rfl

theorem iaTxIrq (slot : Slot) : Statement (.iaTxIrq slot) :=
  fun _ _ => rfl

theorem iaRxIrq (slot : Slot) : Statement (.iaRxIrq slot) :=
  fun _ _ => rfl

theorem hwTransmit (slot : Slot) (w : WireWords) : Statement (.hwTransmit slot w) := by
  intro _ rest
  simp [decode, encode, decodeOp, decodeSlotWords, takeWire_wireBytes, needOperand, takeByte]

theorem hwReceiveWords (slot : Slot) : Statement (.hwReceiveWords slot) :=
  fun _ _ => rfl

theorem wireStdData (sid : BitVec 11) (dlc : BitVec 4) (d : Payload) (slot : Slot) : Statement (.wireStdData sid dlc d slot) := by
  intro _ rest
  simp [decode, encode, decodeWire, takeWire_words_slot, wireClass, wireIde_packWire, wireRtr_packWire, wireSid_packWire,
    wireDlc_packWire, wireData_packWire]

theorem wireStdRtr (sid : BitVec 11) (dlc : BitVec 4) (d : Payload) (slot : Slot) : Statement (.wireStdRtr sid dlc d slot) := by
  intro _ rest
  simp [decode, encode, decodeWire, takeWire_words_slot, wireClass, wireIde_packWire, wireRtr_packWire, wireSid_packWire,
    wireDlc_packWire, wireData_packWire]

theorem wireExtData (sid : BitVec 11) (mid : BitVec 12) (low : BitVec 6) (dlc : BitVec 4) (d : Payload) (slot : Slot) : Statement (.wireExtData sid mid low dlc d slot) := by
  intro _ rest
  simp [decode, encode, decodeWire, takeWire_words_slot, wireClass, wireIde_packWire, wireRtr_packWire, wireSid_packWire,
    wireDlc_packWire, wireData_packWire, wireMid_packWire, wireLow_packWire]

theorem wireExtRtr (sid : BitVec 11) (mid : BitVec 12) (low : BitVec 6) (dlc : BitVec 4) (d : Payload) (slot : Slot) : Statement (.wireExtRtr sid mid low dlc d slot) := by
  intro _ rest
  simp [decode, encode, decodeWire, takeWire_words_slot, wireClass, wireIde_packWire, wireRtr_packWire, wireSid_packWire,
    wireDlc_packWire, wireData_packWire, wireMid_packWire, wireLow_packWire]

end Sys2Proof.Laws.RoundTrip
end

