-- ==== Sys2Proof/Laws/Queues.lean ====
section
/-! SUPPORT. The invariants of a ring buffer in a queue are kept by whole-frame operations, and each queue operation has
exactly the outcomes listed here (the rows of R197, R220, R222). -/

namespace Sys2Proof.Machine

theorem satInc_le (cntW c : Nat) (h : c ≤ 2 ^ cntW - 1) : satInc cntW c ≤ 2 ^ cntW - 1 := by
  unfold satInc; split <;> omega

theorem le_satInc (cntW c : Nat) : c ≤ satInc cntW c := by
  unfold satInc; split <;> omega

@[simp] theorem ser16Bytes_length (b : Ser16) : (ser16Bytes b).length = 16 := rfl

/-- A cursor that wraps at a frame-aligned capacity stays frame-aligned (R28). -/
theorem frame_dvd_wrap {a c : Nat} (ha : Config.frameBytes ∣ a) (hc : Config.frameBytes ∣ c) :
    Config.frameBytes ∣ a % c := (Nat.dvd_mod_iff hc).mpr ha

namespace BufferInv

variable {cntW : Nat} {r : RingBuffer}

theorem room (h : BufferInv cntW r) (hu : r.used ≠ r.capacity) : r.used + Config.frameBytes ≤ r.capacity := by
  obtain ⟨hc, ⟨hl, hd, -, -⟩, -⟩ := h
  have h1 := hc.1
  obtain ⟨-, a, ha⟩ := (legalCapacity_iff _).mp hl
  obtain ⟨b, hb⟩ := hd
  simp only [Config.frameBytes] at *
  omega

theorem push (h : BufferInv cntW r) (hu : r.used ≠ r.capacity) (b : Ser16) :
    BufferInv cntW (pushBytes r (ser16Bytes b)) := by
  have hr := h.room hu
  obtain ⟨hc, ⟨hl, hd, hh, -⟩, hw, hs, hn⟩ := h
  have hp := pushBytes_spec .tx (ser16Bytes b) r hc (by simpa using hr)
  have hu' : Config.frameBytes ∣ (pushBytes r (ser16Bytes b)).used := by
    simp only [pushBytes_used, ser16Bytes_length]; exact hd.add (Nat.dvd_refl _)
  refine ⟨hp.cursors, ⟨by simpa using hl, hu', by simpa using hh, ?_⟩, hp.written hw, hp.inRange hs, by simpa using hn⟩
  rw [hp.cursors.2.2, pushBytes_head, pushBytes_capacity]
  exact frame_dvd_wrap (hh.add hu') ((legalCapacity_iff _).mp hl).2

theorem pop (h : BufferInv cntW r) (hu : Config.frameBytes ≤ r.used) : BufferInv cntW (popBytes Config.frameBytes r) := by
  obtain ⟨hc, ⟨hl, hd, hh, ht⟩, hw, hs, hn⟩ := h
  exact ⟨hc.pop hu, ⟨hl, Nat.dvd_sub hd (Nat.dvd_refl _),
    frame_dvd_wrap (hh.add (Nat.dvd_refl _)) ((legalCapacity_iff _).mp hl).2, ht⟩, UsedWritten.pop hw _, hs, hn⟩

theorem refuse (h : BufferInv cntW r) : BufferInv cntW (countRefusal cntW r) := by
  obtain ⟨hc, ha, hw, hs, hn⟩ := h
  exact ⟨hc, ha, hw, hs, satInc_le _ _ hn⟩

theorem reset (h : BufferInv cntW r) : BufferInv cntW (rbReset r) := by
  obtain ⟨hc, ⟨hl, -, -, -⟩, -, hs, -⟩ := h
  refine ⟨⟨Nat.zero_le _, hc.capacity_pos, by simp [rbReset]⟩, ⟨hl, ?_, ?_, ?_⟩, ?_, hs, Nat.zero_le _⟩
  · exact Nat.dvd_zero _
  · exact Nat.dvd_zero _
  · exact Nat.dvd_zero _
  · intro k hk; exact absurd hk (Nat.not_lt_zero _)

theorem recover (h : BufferInv cntW r) (cfg : Config) : BufferInv cntW (recoverOverflow cfg r) := by
  unfold recoverOverflow; split
  · exact h.reset
  · exact h

theorem empty {c : Nat} (hl : legalCapacity c = true) (epoch : Nat) : BufferInv cntW (emptyBuffer c epoch) := by
  have h0 := ((legalCapacity_iff c).mp hl).1
  refine ⟨⟨Nat.zero_le _, Nat.pos_of_ne_zero h0, by simp [emptyBuffer]⟩, ⟨hl, ?_, ?_, ?_⟩, ?_, ?_, Nat.zero_le _⟩
  · exact Nat.dvd_zero _
  · exact Nat.dvd_zero _
  · exact Nat.dvd_zero _
  · intro k hk; exact absurd hk (Nat.not_lt_zero _)
  · intro c hc; exact absurd hc (List.not_mem_nil)

end BufferInv

/-- `rb_write_frame` in a queue is all or nothing (R137). -/
theorem rbWriteFrame_cases {cntW : Nat} {r : RingBuffer} (h : BufferInv cntW r) (b : Ser16) :
    (r.used = r.capacity ∧ rbWriteFrame cntW r (ser16Bytes b) = .ok (.overflow, countRefusal cntW r)) ∨
    (r.used ≠ r.capacity ∧ rbWriteFrame cntW r (ser16Bytes b) = .ok (.ok, pushBytes r (ser16Bytes b))) := by
  by_cases hu : r.used = r.capacity
  · exact .inl ⟨hu, rbWriteFrame_full hu _ _⟩
  · exact .inr ⟨hu, rbWriteFrame_room _ r h.1 (h.room hu)⟩

/-- The outcomes of `TX.ENQUEUE` (R191, R197). -/
theorem enqueueFrame_cases {s : State} (h : BufferInv s.cfg.cntW s.tx.rb) (f : CanFrame) :
    (s.tx.rb.used = s.tx.rb.capacity ∧
      enqueueFrame f s = .ok (.overflow, { s with tx := { s.tx with rb := countRefusal s.cfg.cntW s.tx.rb } })) ∨
    (s.tx.rb.used ≠ s.tx.rb.capacity ∧ s.tx.txState = .idle ∧
      enqueueFrame f s =
        .ok (.ok, startTransmission f
          { s with tx := ⟨pushBytes s.tx.rb (ser16Bytes (serializeFrame f)), .sending⟩ })) ∨
    (s.tx.rb.used ≠ s.tx.rb.capacity ∧ s.tx.txState = .sending ∧
      enqueueFrame f s = .ok (.ok, { s with tx := ⟨pushBytes s.tx.rb (ser16Bytes (serializeFrame f)), .sending⟩ })) := by
  rcases rbWriteFrame_cases h (serializeFrame f) with ⟨hu, hw⟩ | ⟨hu, hw⟩
  · exact .inl ⟨hu, by rw [enqueueFrame, hw]⟩
  · cases ht : s.tx.txState
    · exact .inr (.inl ⟨hu, rfl, by rw [enqueueFrame, hw, ht]⟩)
    · exact .inr (.inr ⟨hu, rfl, by rw [enqueueFrame, hw, ht]⟩)

/-- The ring buffer of the transmit queue after the pop and the overflow recovery of a transmit-complete (R193). -/
def afterComplete (s : State) : RingBuffer := recoverOverflow s.cfg (popBytes Config.frameBytes s.tx.rb)

theorem frameQueued_iff (r : RingBuffer) : frameQueued r = true ↔ Config.frameBytes ≤ r.used := by simp [frameQueued]

/-- The outcomes of `TX.ON_COMPLETE` (R193, R197). -/
theorem onHardwareComplete_cases {s : State} (h : BufferInv s.cfg.cntW s.tx.rb)
    (hs : s.tx.txState = .sending → Config.frameBytes ≤ s.tx.rb.used) :
    (s.tx.txState = .idle ∧ onHardwareComplete s = .ok (.spurious, s)) ∨
    (s.tx.txState = .sending ∧ Config.frameBytes ≤ (afterComplete s).used ∧
      ∃ b, contents .tx (afterComplete s) = ser16Bytes b ++ (contents .tx (afterComplete s)).drop Config.frameBytes ∧
        onHardwareComplete s =
          .ok (.ok, startTransmission (fitFrame s.cfg (deserializeFrame b))
            { s with tx := ⟨afterComplete s, .sending⟩ })) ∨
    (s.tx.txState = .sending ∧ ¬ Config.frameBytes ≤ (afterComplete s).used ∧
      onHardwareComplete s = .ok (.ok, { s with tx := ⟨afterComplete s, .idle⟩ })) := by
  cases ht : s.tx.txState with
  | idle => exact .inl ⟨rfl, by rw [onHardwareComplete, ht]⟩
  | sending =>
    have hd := rbDropFrame_spec .tx _ h.1 (hs ht)
    have hb : BufferInv s.cfg.cntW (afterComplete s) := (h.pop (hs ht)).recover _
    by_cases hq : Config.frameBytes ≤ (afterComplete s).used
    · obtain ⟨b, hp, hc⟩ := rbPeekFrame_spec .tx _ hb.1 hq
      refine .inr (.inl ⟨rfl, hq, b, hc, ?_⟩)
      rw [onHardwareComplete, ht]
      simp only [hd]
      rw [← afterComplete, if_pos ((frameQueued_iff _).mpr hq)]
      simp only [hp]
    · refine .inr (.inr ⟨rfl, hq, ?_⟩)
      rw [onHardwareComplete, ht]
      simp only [hd]
      rw [← afterComplete, if_neg (mt (frameQueued_iff _).mp hq)]

/-- The outcomes of `RX.ON_FRAME` (R220, R221). -/
theorem onFrameReceived_cases {s : State} (h : BufferInv s.cfg.cntW s.rx.rb) (w : WireWords) (slot : Slot) :
    (s.rx.rb.used = s.rx.rb.capacity ∧ onFrameReceived w slot s =
      .ok (.overflow, { s with rx := { s.rx with rb := countRefusal s.cfg.cntW s.rx.rb } })) ∨
    (s.rx.rb.used ≠ s.rx.rb.capacity ∧ onFrameReceived w slot s =
      .ok (.ok, { s with
        rx := ⟨pushBytes s.rx.rb (ser16Bytes (serializeFrame (decodeFrame w slot))), s.rx.pendingCount + 1⟩ })) := by
  rcases rbWriteFrame_cases h (serializeFrame (decodeFrame w slot)) with ⟨hu, hw⟩ | ⟨hu, hw⟩
  · exact .inl ⟨hu, by rw [onFrameReceived, hw]⟩
  · exact .inr ⟨hu, by rw [onFrameReceived, hw]⟩

/-- `RX.DEQUEUE` of a queue that holds a frame (R222). -/
theorem dequeueFrame_spec {s : State} (h : CursorInv s.rx.rb) (hu : Config.frameBytes ≤ s.rx.rb.used) :
    ∃ b, contents .rx s.rx.rb = ser16Bytes b ++ contents .rx (popBytes Config.frameBytes s.rx.rb) ∧
      dequeueFrame s = .ok (fitFrame s.cfg (deserializeFrame b),
        { s with rx := ⟨popBytes Config.frameBytes s.rx.rb, s.rx.pendingCount - 1⟩ }) := by
  obtain ⟨b, hb, hc⟩ := rbReadFrame_spec .rx _ h hu
  exact ⟨b, hc, by rw [dequeueFrame, hb]⟩

/-- Bytes of whole frames, then one frame more, are the frames, then that one. -/
theorem framesOf_append_frame (f : CanFrame) :
    ∀ (n : Nat) (bs : List Byte), bs.length = n * Config.frameBytes →
      framesOf (bs ++ ser16Bytes (serializeFrame f)) = framesOf bs ++ [f] := by
  intro n
  induction n with
  | zero =>
    intro bs h
    obtain rfl : bs = [] := List.length_eq_zero_iff.mp (by simpa using h)
    rw [List.nil_append, ← List.append_nil (ser16Bytes _), framesOf_ser16Bytes, deserializeFrame_serializeFrame]
    rfl
  | succ n ih =>
    intro bs h
    obtain ⟨b, -, hb⟩ := takeSer16_of_length bs (by rw [h, Nat.succ_mul]; omega)
    have hs : bs = ser16Bytes b ++ bs.drop Config.frameBytes := by rw [← hb, List.take_append_drop]
    rw [hs, List.append_assoc, framesOf_ser16Bytes, framesOf_ser16Bytes, ih]
    · rfl
    · rw [List.length_drop, h, Nat.succ_mul]; omega

/-- The contents of a queue's ring buffer are whole frames (R28). -/
theorem BufferInv.frames {cntW : Nat} {r : RingBuffer} (h : BufferInv cntW r) (q : QSel) :
    ∃ n, (contents q r).length = n * Config.frameBytes := by
  obtain ⟨n, hn⟩ := h.2.1.2.1
  exact ⟨n, by rw [contents_length, hn, Nat.mul_comm]⟩

/-- A frame written into a queue's ring buffer is its last frame (R153). -/
theorem framesOf_contents_push {cntW : Nat} {r : RingBuffer} (h : BufferInv cntW r) (hu : r.used ≠ r.capacity) (q : QSel)
    (f : CanFrame) :
    framesOf (contents q (pushBytes r (ser16Bytes (serializeFrame f)))) = framesOf (contents q r) ++ [f] := by
  obtain ⟨n, hn⟩ := h.frames q
  rw [(pushBytes_spec q _ r h.1 (by simpa using h.room hu)).contents, framesOf_append_frame f n _ hn]

/-- The write cursor is one frame on after a whole-frame write (R132). -/
theorem BufferInv.push_tail {cntW : Nat} {r : RingBuffer} (h : BufferInv cntW r) (hu : r.used ≠ r.capacity) (b : Ser16) :
    (pushBytes r (ser16Bytes b)).tail = (r.tail + Config.frameBytes) % r.capacity := by
  rw [(h.push hu b).1.2.2, h.1.2.2]
  simp [Nat.add_assoc]

/-- Without a recovery due, a transmit-complete only pops the frame that was sent (R193). -/
theorem afterComplete_pop {s : State} (h : recoveryDue s.cfg s.tx.rb = false) :
    afterComplete s = popBytes Config.frameBytes s.tx.rb := by
  unfold afterComplete recoverOverflow
  rw [if_neg]
  exact Bool.eq_false_iff.mp h

end Sys2Proof.Machine
end

