-- ==== Sys2Proof/Laws/Step.lean ====
section
/-! SUPPORT. What a step can be: the operation that is due or waits, or an input that is none; and which operations the
foreground port can present. -/

namespace Sys2Proof.Machine

theorem step_of_operation {s s1 : State} {i : Instr} (h : nextOperation s = some (i, s1)) : step s = exec i s1 := by
  simp only [step, h]

theorem step_of_none {s : State} (h : nextOperation s = none) : step s = otherInput s := by
  simp only [step, h]

/-- The operations of the foreground port (R112): the one a code selects, and only that. -/
theorem decodeForeground_cases {op : Byte} {frame : Ser16} {i : Instr} (h : decodeForeground op frame = some i) :
    (op = 0x00 ∧ i = .sysInit) ∨ (op = 0x30 ∧ i = .txEnqueue (deserializeFrame frame)) ∨
    (op = 0x32 ∧ i = .txOverflowCount) ∨ (op = 0x41 ∧ i = .rxDequeue) ∨ (op = 0x42 ∧ i = .rxPendingCount) ∨
    (op = 0x43 ∧ i = .rxOverflowCount) := by
  unfold decodeForeground at h
  split at h
  · next hm =>
    simp only [foregroundCodes, List.mem_cons, List.not_mem_nil, or_false] at hm
    rcases hm with rfl | rfl | rfl | rfl | rfl | rfl <;>
      simp_all [decodeOp, decodeFrameOperand, needOperand, takeSer16, ser16Bytes]
  · exact absurd h (by simp)

/-- The two adapter operations that can be due (R248, R249, R251). -/
theorem interruptDue_cases (s : State) :
    (txCauseDue s = true ∧ interruptDue s = some (.iaTxIrq s.env.txCompleteSlot)) ∨
    (txCauseDue s = false ∧ rxCauseDue s = true ∧ interruptDue s = some (.iaRxIrq s.env.rxCompleteSlot)) ∨
    (txCauseDue s = false ∧ rxCauseDue s = false ∧ interruptDue s = none) := by
  unfold interruptDue
  cases txCauseDue s <;> cases rxCauseDue s <;> simp

theorem isReady_iff (s : State) : isReady s = true ↔ s.initState = .ready := by simp [isReady]

theorem txCauseDue_iff (s : State) : txCauseDue s = true ↔ s.env.txCompletePending = true ∧ s.initState = .ready := by
  simp [txCauseDue, isReady]

theorem rxCauseDue_iff (s : State) : rxCauseDue s = true ↔ s.env.rxCompletePending = true ∧ s.initState = .ready := by
  simp [rxCauseDue, isReady]

/-- The two outcomes of an event of ENV (R244). -/
theorem envInput_cases (event : EnvEvent) (s : State) :
    (servesSerially event s.env = true ∧
      envInput event s = .next { s with env := applyRxFrame s.cfg event.rxFrame (applyTxDone s.cfg event.txDone s.env) }) ∨
    (((event.txDone.isSome = true ∧ s.env.txCompletePending = true) ∨
        (event.rxFrame.isSome = true ∧ s.env.rxCompletePending = true)) ∧
      envInput event s = .refused .eventWhilePending) := by
  cases h : servesSerially event s.env
  · refine .inr ⟨?_, by simp [envInput, h]⟩
    unfold servesSerially at h
    revert h
    cases event.txDone.isSome <;> cases s.env.txCompletePending <;> cases event.rxFrame.isSome <;>
      cases s.env.rxCompletePending <;> simp
  · exact .inl ⟨rfl, by simp [envInput, h]⟩

/-- Every step of a block that no test bench drives (R13, R78): an adapter operation, a foreground operation, or an
input that is no operation. -/
theorem step_cases {s : State} (hb : NoBench s) :
    (∃ i, interruptDue s = some i ∧ step s = exec i s) ∨
    (interruptDue s = none ∧
      ((s.inputs = [] ∧ step s = .next s) ∨
      (∃ op frame rest i, s.inputs = .foreground op frame :: rest ∧ decodeForeground op frame = some i ∧
        step s = exec i (takeInput s rest)) ∨
      (∃ op frame rest, s.inputs = .foreground op frame :: rest ∧ decodeForeground op frame = none ∧
        step s = .next (illegalOp (takeInput s rest))) ∨
      (∃ rest, s.inputs = .reset :: rest ∧ step s = .next (resetInput (takeInput s rest))) ∨
      (∃ event rest, s.inputs = .env event :: rest ∧ step s = envInput event (takeInput s rest)))) := by
  cases hd : interruptDue s with
  | some i => exact .inl ⟨i, rfl, step_of_operation (by simp [nextOperation, hd])⟩
  | none =>
    refine .inr ⟨rfl, ?_⟩
    match hi : s.inputs with
    | [] => exact .inl ⟨rfl, by rw [step_of_none (by simp [nextOperation, hd, hi])]; simp [otherInput, hi]⟩
    | .foreground op frame :: rest =>
      cases hf : decodeForeground op frame with
      | some i =>
        exact .inr (.inl ⟨op, frame, rest, i, rfl, hf, step_of_operation (by simp [nextOperation, hd, hi, hf])⟩)
      | none =>
        refine .inr (.inr (.inl ⟨op, frame, rest, rfl, hf, ?_⟩))
        rw [step_of_none (by simp [nextOperation, hd, hi, hf])]
        simp [otherInput, hi]
    | .bench format bytes :: rest =>
      exact absurd (hb (.bench format bytes) (by simp [hi])) (by simp [notBench])
    | .reset :: rest =>
      refine .inr (.inr (.inr (.inl ⟨rest, rfl, ?_⟩)))
      rw [step_of_none (by simp [nextOperation, hd, hi])]
      simp [otherInput, hi]
    | .env event :: rest =>
      refine .inr (.inr (.inr (.inr ⟨event, rest, rfl, ?_⟩)))
      rw [step_of_none (by simp [nextOperation, hd, hi])]
      simp [otherInput, hi]

/-- What is left of the inputs after a step holds no bench request either. -/
theorem NoBench.takeInput {s : State} (h : NoBench s) {i : Input} {rest : List Input} (hi : s.inputs = i :: rest) :
    NoBench (takeInput s rest) := fun j hj => h j (by rw [hi]; exact List.mem_cons_of_mem _ hj)

end Sys2Proof.Machine
end

