-- ==== Sys2Proof/Tests/Slice0.lean ====
section
/-! SUPPORT. The model's own tests. Expected results are those of the spec's vectors, named in each comment, or follow by
hand from the rule named there. After the tests, one theorem per statement with hypotheses shows a state that meets
them. -/

namespace Sys2Proof.Tests

open Sys2Proof Sys2Proof.Machine

/-! ### Helpers: frames and words of the vectors, and small states -/

/-- Frame A of the programs (F16). -/
def frameA : CanFrame := ⟨0x100, .standard, .data, ⟨0xA1, 0xA2, 0, 0, 0, 0, 0, 0⟩, 2, 0⟩
/-- Frame B of the programs (F17). -/
def frameB : CanFrame := ⟨0x18DAF110, .extended, .data, ⟨0x02, 0x10, 0x03, 0, 0, 0, 0, 0⟩, 3, 1⟩
/-- Frame C of the programs (F18). -/
def frameC : CanFrame := ⟨0x7DF, .standard, .remoteRequest, ⟨0, 0, 0, 0, 0, 0, 0, 0⟩, 8, 2⟩
/-- F13. -/
def frame13 : CanFrame := ⟨0x0ABCDEF1, .extended, .remoteRequest, ⟨0, 0, 0, 0, 0, 0, 0, 0⟩, 8, 4⟩
/-- An ill-formed frame: a Standard identifier of 12 bits (F11). -/
def frame11 : CanFrame := ⟨0xFFF, .standard, .data, ⟨0, 0, 0, 0, 0, 0, 0, 0⟩, 1, 0⟩

def wordsA : WireWords := ⟨0x0400, 0x0000, 0x0002, 0xA2A1, 0x0000, 0x0000, 0x0000⟩
def wordsB : WireWords := ⟨0x18D9, 0x0BC4, 0x4003, 0x1002, 0x0003, 0x0000, 0x0000⟩
/-- W1 of the vectors (F1). -/
def words1 : WireWords := ⟨0x1008, 0x0000, 0x0006, 0xCDAB, 0x12EF, 0x5634, 0x0000⟩
/-- The frame of W1 as slot 3 receives it (Q2). -/
def frame1 : CanFrame := ⟨0x402, .standard, .data, ⟨0xAB, 0xCD, 0xEF, 0x12, 0x34, 0x56, 0, 0⟩, 6, 3⟩

/-- The state an operation leaves, or the state before it where it stops. -/
def after (i : Instr) (s : State) : State :=
  match exec i s with
  | .next t => t
  | _ => s

/-- The state a step leaves, or none where it stops. -/
def stepTo (s : State) : Option State :=
  match step s with
  | .next t => some t
  | _ => none

/-- `used head tail ovf`, the state line of the vectors. -/
def line (r : RingBuffer) : List Nat := [r.used, r.head, r.tail, r.overflowCount]

/-- A ring buffer whose storage holds `bytes` from index 0 on. -/
def ring (capacity used head tail overflowCount : Nat) (bytes : List Byte) : RingBuffer :=
  ⟨capacity, used, head, tail, overflowCount, bytes.zipIdx.map fun p => (p.2, p.1), 1⟩

/-- The block after a reset with 32 bytes each way, the build of the vectors T and Q. -/
def small (policy : OverflowPolicy) : State := State.resetOf ⟨32, 32, 16, policy, 8⟩

/-- `small` with another transmit ring buffer. -/
def withTx (r : RingBuffer) (st : TxState) : State := { small .resetAll with tx := ⟨r, st⟩ }

/-- The bytes 00 to 0F. -/
def ramp : List Byte := [0, 1, 2, 3, 4, 5, 6, 7, 8, 9, 10, 11, 12, 13, 14, 15]

/-- Frames A and B queued, A in flight: T2's end state. -/
def queuedAB (overflow : Nat) (policy : OverflowPolicy) : State :=
  { small policy with
    tx := ⟨ring 32 32 0 0 overflow (ser16Bytes (serializeFrame frameA) ++ ser16Bytes (serializeFrame frameB)), .sending⟩
    env := { quietEnv with messageObjects := [(0, wordsA)], txOutstanding := true }
    trace := [.transmit 0 wordsA] }

/-- Frame B alone queued and in flight: T4's end state. -/
def queuedB : State :=
  { queuedAB 0 .resetAll with
    tx := ⟨{ (queuedAB 0 .resetAll).tx.rb with used := 16, head := 16 }, .sending⟩
    env := { quietEnv with messageObjects := [(0, wordsA), (1, wordsB)], txOutstanding := true }
    trace := [.transmit 0 wordsA, .transmit 1 wordsB] }

/-- One received frame waits: Q1's end state. -/
def received1 : State :=
  { small .resetAll with rx := ⟨ring 32 16 0 16 0 (ser16Bytes (serializeFrame frame1)), 1⟩ }

/-- Two received frames wait, the buffer is full: Q4's start. -/
def received2 : State :=
  { small .resetAll with
    rx := ⟨ring 32 32 0 0 0 (ser16Bytes (serializeFrame frame1) ++ ser16Bytes (serializeFrame frameC)), 2⟩ }

/-- `s` with both causes as given: transmit-complete of slot 0, and a reception of W1 in slot 3. -/
def withCauses (s : State) (txDone rxDone : Bool) : State :=
  { s with env := { s.env with
      txCompletePending := txDone
      txOutstanding := s.env.txOutstanding && !txDone
      rxCompletePending := rxDone
      rxCompleteSlot := 3
      rxCompleteWords := if rxDone then some words1 else none
      messageObjects := if rxDone then storeWrite s.env.messageObjects 3 words1 else s.env.messageObjects } }

/-- `s` with one waiting input. -/
def withInput (s : State) (i : Input) : State := { s with inputs := [i] }

/-- A block that is not initialised. -/
def uninit : State := { small .resetAll with initState := .uninit }

/-! ### Well-formedness: what the checks refuse -/

/-- A byte count that its four bytes cannot hold (log entry 5). -/
theorem test_wellFormed_refuses_capacity : ¬ Instr.WellFormed (.rbInit .tx (2 ^ 32)) := by decide
theorem test_wellFormed_refuses_count : ¬ Instr.WellFormed (.rbPeekMany .rx (2 ^ 32)) := by decide
theorem test_wellFormed_largest_count : Instr.WellFormed (.rbPeekMany .rx (2 ^ 32 - 1)) := by decide
/-- F11: a Standard identifier above 11 bits. -/
theorem test_wellFormed_refuses_identifier : ¬ frame11.WellFormed := by decide
/-- R313: a length above eight is allowed by the codec and not by the producer's duties (F12). -/
theorem test_dutiful_refuses_length : ¬ ({ frameA with validLength := 15 } : CanFrame).Dutiful := by decide
theorem test_wellFormed_frames : frameA.WellFormed ∧ frameB.WellFormed ∧ frameC.Dutiful := by decide

/-! ### Decoding: words written out from R111, R98, R91 -/

theorem test_decode_system :
    decode .op [0x00] = .ok (.sysInit, []) ∧
    decode .op [0x60, 1, 0xD9, 0x18, 0xC4, 0x0B, 0x03, 0x40, 0x02, 0x10, 0x03, 0, 0, 0, 0, 0] =
      .ok (.hwTransmit 1 wordsB, []) ∧
    decode .op [0x61, 3] = .ok (.hwReceiveWords 3, []) := by decide

/-- The byte counts are little-endian (log entry 5): 0x10100 is 65792. -/
theorem test_decode_ringBuffer :
    decode .op [0x10, 0, 0x00, 0x01, 0x01, 0x00] = .ok (.rbInit .tx 65792, []) ∧
    decode .op [0x11, 1, 0x5A] = .ok (.rbWriteByte .rx 0x5A, []) ∧
    decode .op [0x12, 0] = .ok (.rbReadByte .tx, []) ∧
    decode .op [0x13, 1, 20, 0, 0, 0] = .ok (.rbPeekMany .rx 20, []) ∧
    decode .op [0x14, 1] = .ok (.rbReset .rx, []) := by decide

/-- F17 as `SER16`, W1 as words. -/
theorem test_decode_codec :
    decode .op [0x20, 0x10, 0xF1, 0xDA, 0x18, 0x01, 0, 0x01, 0x02, 0x10, 0x03, 0, 0, 0, 0, 0, 0x03] =
      .ok (.fcEncode frameB, []) ∧
    decode .op [0x21, 0x08, 0x10, 0, 0, 0x06, 0, 0xAB, 0xCD, 0xEF, 0x12, 0x34, 0x56, 0, 0, 3] =
      .ok (.fcDecode words1 3, []) ∧
    decode .op [0x22, 0xDF, 0x07, 0, 0, 0x02, 0x01, 0, 0, 0, 0, 0, 0, 0, 0, 0, 0x08] = .ok (.fcSerialize frameC, []) ∧
    decode .op [0x23, 0xDF, 0x07, 0, 0, 0x02, 0x01, 0, 0, 0, 0, 0, 0, 0, 0, 0, 0x08] =
      .ok (.fcDeserialize ⟨0xDF, 0x07, 0, 0, 0x02, 0x01, 0, 0, 0, 0, 0, 0, 0, 0, 0, 0x08⟩, []) := by decide

theorem test_decode_queues :
    decode .op [0x30, 0x00, 0x01, 0, 0, 0, 0, 0, 0xA1, 0xA2, 0, 0, 0, 0, 0, 0, 0x02] = .ok (.txEnqueue frameA, []) ∧
    decode .op [0x31] = .ok (.txOnComplete, []) ∧ decode .op [0x32] = .ok (.txOverflowCount, []) ∧
    decode .op [0x40, 0x08, 0x10, 0, 0, 0x06, 0, 0xAB, 0xCD, 0xEF, 0x12, 0x34, 0x56, 0, 0, 3] =
      .ok (.rxOnFrame words1 3, []) ∧
    decode .op [0x41] = .ok (.rxDequeue, []) ∧ decode .op [0x42] = .ok (.rxPendingCount, []) ∧
    decode .op [0x43] = .ok (.rxOverflowCount, []) := by decide

theorem test_decode_adapter :
    decode .op [0x50, 7] = .ok (.iaTxIrq 7, []) ∧ decode .op [0x51, 3] = .ok (.iaRxIrq 3, []) := by decide

/-- The four classes by `w0[1:0]` (R97), the words of F1, F6, F3 and F13. -/
theorem test_decode_wire :
    decode .wire7 [0x08, 0x10, 0, 0, 0x06, 0, 0xAB, 0xCD, 0xEF, 0x12, 0x34, 0x56, 0, 0, 3] =
      .ok (.wireStdData 0x402 6 ⟨0xAB, 0xCD, 0xEF, 0x12, 0x34, 0x56, 0, 0⟩ 3, []) ∧
    decode .wire7 [0x8E, 0x04, 0, 0, 0x04, 0x02, 0, 0, 0, 0, 0, 0, 0, 0, 5] =
      .ok (.wireStdRtr 0x123 4 ⟨0, 0, 0, 0, 0, 0, 0, 0⟩ 5, []) ∧
    decode .wire7 [0xFD, 0x1F, 0xFF, 0x0F, 0x08, 0xFC, 1, 2, 3, 4, 5, 6, 7, 8, 2] =
      .ok (.wireExtData 0x7FF 0xFFF 0x3F 8 ⟨1, 2, 3, 4, 5, 6, 7, 8⟩ 2, []) ∧
    decode .wire7 [0xBF, 0x0A, 0x7B, 0x03, 0x08, 0xC6, 0, 0, 0, 0, 0, 0, 0, 0, 4] =
      .ok (.wireExtRtr 0x2AF 0x37B 0x31 8 ⟨0, 0, 0, 0, 0, 0, 0, 0⟩ 4, []) := by decide

/-- Byte lists that are no request, each rejected by name. -/
theorem test_decode_rejects :
    decode .op [] = .error .noRequest ∧ decode .op [0x7F] = .error (.unassignedCode 0x7F) ∧
    decode .op [0x12] = .error (.shortOperands 0x12) ∧ decode .op [0x12, 2] = .error (.badSelector 2) ∧
    decode .op [0x30, 1, 2, 3] = .error (.shortOperands 0x30) ∧ decode .wire7 [1, 2, 3] = .error .shortWords := by decide

/-- E5: the codes the foreground port does not have. -/
theorem test_decodeForeground_illegal :
    decodeForeground 0x31 default = none ∧ decodeForeground 0x11 default = none ∧ decodeForeground 0x7F default = none := by
  decide

/-! ### One operation each -/

/-- E1. -/
theorem test_sysInit :
    let t := after .sysInit uninit
    t.response = some ⟨some .ok, .none⟩ ∧ t.initState = .ready ∧ line t.tx.rb = [0, 0, 0, 0] ∧ t.tx.txState = .idle := by
  decide

/-- E2. -/
theorem test_sysInit_capacity :
    let t := after .sysInit { uninit with cfg := ⟨40, 32, 16, .resetAll, 8⟩ }
    t.response = some ⟨some .capacityError, .none⟩ ∧ t.initState = .failed := by decide

/-- B1. -/
theorem test_rbInit :
    let t := after (.rbInit .tx 16) (small .resetAll)
    t.response = some ⟨some .ok, .none⟩ ∧ line t.tx.rb = [0, 0, 0, 0] ∧ t.tx.rb.capacity = 16 := by decide

theorem test_rbInit_capacity :
    (after (.rbInit .rx 24) (small .resetAll)).response = some ⟨some .capacityError, .none⟩ ∧
    (after (.rbInit .rx 0) (small .resetAll)).response = some ⟨some .capacityError, .none⟩ := by decide

/-- B2. -/
theorem test_rbWriteByte_full :
    let t := after (.rbWriteByte .tx 0x5A) (withTx (ring 16 16 0 0 0 ramp) .idle)
    t.response = some ⟨some .overflow, .none⟩ ∧ t.tx.rb = ring 16 16 0 0 1 ramp := by decide

/-- B4: the write lands at the wrapped tail. -/
theorem test_rbWriteByte :
    let t := after (.rbWriteByte .tx 0xAA) (withTx (ring 16 13 3 0 1 ramp) .idle)
    t.response = some ⟨some .ok, .none⟩ ∧ line t.tx.rb = [14, 3, 1, 1] ∧ storeRead t.tx.rb.storage 0 = some 0xAA := by
  decide

/-- B3, third read. -/
theorem test_rbReadByte :
    let t := after (.rbReadByte .tx) (withTx (ring 16 14 2 0 1 ramp) .idle)
    t.response = some ⟨some .ok, .byte 0x02⟩ ∧ line t.tx.rb = [13, 3, 0, 1] := by decide

/-- B10, last read. -/
theorem test_rbReadByte_empty :
    let t := after (.rbReadByte .tx) (withTx (ring 16 0 1 1 0 ramp) .idle)
    t.response = some ⟨some .empty, .none⟩ ∧ line t.tx.rb = [0, 1, 1, 0] := by decide

/-- B5: the peek wraps from index 15 to 0. -/
theorem test_rbPeekMany :
    (after (.rbPeekMany .tx 20) (withTx (ring 16 14 3 1 1 (0xAA :: ramp.tail)) .idle)).response =
      some ⟨some .ok, .bytes [3, 4, 5, 6, 7, 8, 9, 10, 11, 12, 13, 14, 15, 0xAA]⟩ := by decide

/-- B9. -/
theorem test_rbReset :
    let t := after (.rbReset .tx) (withTx (ring 16 16 3 3 2 ramp) .idle)
    t.tx.rb = ring 16 0 0 0 0 ramp := by decide

/-- F17. -/
theorem test_fcEncode : (after (.fcEncode frameB) uninit).response = some ⟨some .ok, .words wordsB⟩ := by decide

/-- F20: a RemoteRequest frame's bytes are packed, and both flag bits are set. -/
theorem test_fcEncode_rtr :
    (after (.fcEncode ⟨0x123, .standard, .remoteRequest, ⟨1, 2, 0, 0, 0, 0, 0, 0⟩, 2, 0⟩) uninit).response =
      some ⟨some .ok, .words ⟨0x048E, 0, 0x0202, 0x0201, 0, 0, 0⟩⟩ := by decide

/-- G3. -/
theorem test_fcDecode :
    (after (.fcDecode ⟨0xE007, 0xF001, 0x05FF, 0xAAAA, 0xBBBB, 0xCCCC, 0xDDDD⟩ 0) uninit).response =
      some ⟨some .ok, .frame ⟨0x40041, .extended, .remoteRequest, ⟨0, 0, 0, 0, 0, 0, 0, 0⟩, 15, 0⟩⟩ := by decide

/-- G1. -/
theorem test_fcDecode_standard :
    (after (.fcDecode ⟨0xFFFC, 0xFFFF, 0xFDF8, 0x2211, 0x4433, 0x6655, 0x8877⟩ 9) uninit).response =
      some ⟨some .ok,
        .frame ⟨0x7FF, .standard, .data, ⟨0x11, 0x22, 0x33, 0x44, 0x55, 0x66, 0x77, 0x88⟩, 8, 9⟩⟩ := by decide

/-- F7. -/
theorem test_fcSerialize :
    (after (.fcSerialize ⟨0x12345678, .extended, .data, ⟨0xDE, 0xAD, 0xBE, 0, 0, 0, 0, 0⟩, 3, 7⟩) uninit).response =
      some ⟨some .ok,
        .serialized ⟨0x78, 0x56, 0x34, 0x12, 7, 0, 1, 0xDE, 0xAD, 0xBE, 0, 0, 0, 0, 0, 3⟩⟩ := by decide

/-- F13, with every padding bit set (R99). -/
theorem test_fcDeserialize_padding :
    (after (.fcDeserialize ⟨0xF1, 0xDE, 0xBC, 0xEA, 4, 0xFF, 0xFF, 0, 0, 0, 0, 0, 0, 0, 0, 0xF8⟩) uninit).response =
      some ⟨some .ok, .frame frame13⟩ := by decide

/-- T1. -/
theorem test_txEnqueue_idle :
    let t := after (.txEnqueue frameA) (small .resetAll)
    line t.tx.rb = [16, 0, 16, 0] ∧ t.tx.txState = .sending ∧ t.trace = [.transmit 0 wordsA] := by decide

/-- T3. -/
theorem test_txEnqueue_full :
    let t := after (.txEnqueue frameC) (queuedAB 0 .resetAll)
    t.response = some ⟨some .overflow, .none⟩ ∧ line t.tx.rb = [32, 0, 0, 1] ∧ t.trace = [.transmit 0 wordsA] := by decide

/-- T7: `ResetAll`. -/
theorem test_txOnComplete_resetAll :
    let t := after .txOnComplete (queuedAB 1 .resetAll)
    line t.tx.rb = [0, 0, 0, 0] ∧ t.tx.txState = .idle ∧ t.trace = [.transmit 0 wordsA] := by decide

/-- T8: `DropNewest`. -/
theorem test_txOnComplete_dropNewest :
    let t := after .txOnComplete (queuedAB 1 .dropNewest)
    line t.tx.rb = [16, 16, 0, 1] ∧ t.tx.txState = .sending ∧ t.trace = [.transmit 0 wordsA, .transmit 1 wordsB] := by
  decide

/-- T9, E4. -/
theorem test_txOverflowCount :
    (after .txOverflowCount (queuedAB 1 .resetAll)).response = some ⟨some .ok, .count 16 1⟩ ∧
    (after .txOverflowCount uninit).response = some ⟨some .notInitialised, .none⟩ := by decide

/-- Q1. -/
theorem test_rxOnFrame :
    let t := after (.rxOnFrame words1 3) (small .resetAll)
    line t.rx.rb = [16, 0, 16, 0] ∧ t.rx.pendingCount = 1 ∧
    t.rx.rb.storage.map Prod.snd = [0x02, 0x04, 0, 0, 3, 0, 0, 0xAB, 0xCD, 0xEF, 0x12, 0x34, 0x56, 0, 0, 6] := by decide

/-- Q4. -/
theorem test_rxOnFrame_full :
    let t := after (.rxOnFrame words1 3) received2
    t.response = some ⟨some .overflow, .none⟩ ∧ line t.rx.rb = [32, 0, 0, 1] ∧ t.rx.pendingCount = 2 := by decide

/-- Q2. -/
theorem test_rxDequeue :
    let t := after .rxDequeue received1
    t.response = some ⟨some .ok, .frame frame1⟩ ∧ line t.rx.rb = [0, 16, 16, 0] ∧ t.rx.pendingCount = 0 := by decide

/-- Q3. -/
theorem test_rxDequeue_empty :
    (after .rxDequeue (small .resetAll)).response = some ⟨some .empty, .none⟩ := by decide

/-- R100: with a counter of 20 bits the count field has 20, and a count at the field's end is shown whole. -/
theorem test_countPort :
    let s := { received1 with cfg := ⟨32, 32, 20, .resetAll, 8⟩, rx := { received1.rx with pendingCount := 0xFFFFF } }
    ((after .rxPendingCount s).response.bind (countPort s.cfg)).map BitVec.toNat = some 0xFFFFF ∧
    countWidth s.cfg = 20 := by decide

/-- Log entry 17: a build with five slot bits decodes, serializes and calls with those bits alone. -/
theorem test_slotWidth :
    let s := { small .resetAll with cfg := ⟨32, 32, 16, .resetAll, 5⟩ }
    (after (.fcDecode words1 0xE3) s).response = some ⟨some .ok, .frame frame1⟩ ∧
    (after (.fcSerialize { frame1 with hardwareSlot := 0xE3 }) s).response =
      some ⟨some .ok, .serialized (serializeFrame frame1)⟩ ∧
    (after (.hwReceiveWords 0xE3) s).trace = [.receiveWords 3] := by decide

/-- P3, lines 4 and 8. -/
theorem test_rxPendingCount : (after .rxPendingCount received1).response = some ⟨some .ok, .count 16 1⟩ := by decide
theorem test_rxOverflowCount :
    (after .rxOverflowCount { received2 with rx := { received2.rx with rb := ring 32 32 0 0 1 [] } }).response =
      some ⟨some .ok, .count 16 1⟩ := by decide

/-- Q7, the transmit half. -/
theorem test_iaTxIrq :
    let t := after (.iaTxIrq 9) (withCauses (queuedAB 0 .resetAll) true false)
    line t.tx.rb = [16, 16, 0, 0] ∧ t.tx.txState = .sending ∧ t.env.txCompletePending = false ∧
    t.trace = [.transmit 0 wordsA, .transmit 1 wordsB] := by decide

/-- Q8: `Spurious` is absorbed and the flag cleared. -/
theorem test_iaTxIrq_spurious :
    let t := after (.iaTxIrq 0) (withCauses (small .resetAll) true false)
    t.tx = (small .resetAll).tx ∧ t.env.txCompletePending = false ∧ t.response = none := by decide

/-- Q5. -/
theorem test_iaRxIrq :
    let t := after (.iaRxIrq 3) (withCauses (small .resetAll) false true)
    line t.rx.rb = [16, 0, 16, 0] ∧ t.rx.pendingCount = 1 ∧ t.env.rxCompletePending = false ∧ t.trace = [.receiveWords 3] :=
  by decide

/-- Q6. -/
theorem test_iaRxIrq_full :
    let t := after (.iaRxIrq 3) (withCauses received2 false true)
    line t.rx.rb = [32, 0, 0, 1] ∧ t.rx.pendingCount = 2 ∧ t.env.rxCompletePending = false := by decide

/-- R240. -/
theorem test_hwTransmit :
    let t := after (.hwTransmit 1 wordsB) (small .resetAll)
    t.trace = [.transmit 1 wordsB] ∧ storeRead t.env.messageObjects 1 = some wordsB ∧ t.response = none := by decide

/-- R241. -/
theorem test_hwReceiveWords :
    (after (.hwReceiveWords 3) (withCauses (small .resetAll) false true)).response = some ⟨none, .words words1⟩ := by decide

/-- P5, the four classes with slot 9. -/
theorem test_wireStdData :
    (after (.wireStdData 0x100 2 ⟨0xA1, 0xA2, 0, 0, 0, 0, 0, 0⟩ 9) uninit).response =
      some ⟨some .ok, .frame { frameA with hardwareSlot := 9 }⟩ := by decide
theorem test_wireStdRtr :
    (after (.wireStdRtr 0x7DF 8 ⟨1, 2, 3, 4, 5, 6, 7, 8⟩ 9) uninit).response =
      some ⟨some .ok, .frame { frameC with hardwareSlot := 9 }⟩ := by decide
theorem test_wireExtData :
    (after (.wireExtData 0x636 0xBC4 0x10 3 ⟨0x02, 0x10, 0x03, 0, 0, 0, 0, 0⟩ 9) uninit).response =
      some ⟨some .ok, .frame { frameB with hardwareSlot := 9 }⟩ := by decide
theorem test_wireExtRtr :
    (after (.wireExtRtr 0x2AF 0x37B 0x31 8 ⟨1, 2, 3, 4, 5, 6, 7, 8⟩ 9) uninit).response =
      some ⟨some .ok, .frame { frame13 with hardwareSlot := 9 }⟩ := by decide

/-! ### One step each -/

/-- E5: code 0x31 on the foreground port. -/
theorem test_step_illegalOp :
    (stepTo (withInput (small .resetAll) (.foreground 0x31 default))).bind State.response =
      some ⟨some .illegalOp, .none⟩ := by decide

/-- R300, R302: the reset input. -/
theorem test_step_reset : stepTo (withInput (queuedAB 1 .resetAll) .reset) =
    some { queuedAB 1 .resetAll with tx := ⟨emptyBuffer 32 2, .idle⟩, rx := ⟨emptyBuffer 32 2, 0⟩ } := by decide

/-- X: with a completion pending, the interrupt comes before the request that waits. -/
theorem test_step_interrupt_first :
    let s := withInput (withCauses queuedB true false) (.foreground 0x30 (serializeFrame frameC))
    (stepTo s).map (fun t => (line t.tx.rb, t.tx.txState, t.inputs)) =
      some ([0, 0, 0, 0], TxState.idle, s.inputs) := by decide

/-- R246: a reception. -/
theorem test_step_reception :
    (stepTo (withInput (small .resetAll) (.env ⟨none, some (3, words1)⟩))).map State.env =
      some (withCauses (small .resetAll) false true).env := by decide

/-- The host interface: the placed word is what the next step runs (log entry 6). -/
theorem test_withFetchWord :
    (stepTo (State.reset.withFetchWord 8 0x42)).bind State.response = some ⟨some .ok, .count 16 0⟩ ∧
    (stepTo (State.reset.withFetchWord 16 0x3)).bind State.response =
      some ⟨some .ok, .frame ⟨0, .extended, .remoteRequest, ⟨0, 0, 0, 0, 0, 0, 0, 0⟩, 0, 0⟩⟩ := by decide

/-! ### The invariant at reset, and the states above -/

theorem test_reset_inv : BlockInv State.reset ∧ FlightInv State.reset ∧ StoresWf State.reset := by decide
theorem test_small_inv : BlockInv (small .resetAll) ∧ FlightInv (small .dropNewest) := by decide
theorem test_queuedAB_inv : BlockInv (queuedAB 1 .resetAll) ∧ FlightInv (queuedAB 1 .resetAll) := by decide
theorem test_received1_inv : BlockInv received1 := by decide
theorem test_received2_inv : BlockInv received2 := by decide

/-! ### Witnesses: for each statement with hypotheses, states and operands that meet them, at the ends of their ranges -/

theorem witness_ResetInputInitialises :
    (withInput (small .resetAll) .reset).inputs = .reset :: [] ∧ interruptDue (withInput (small .resetAll) .reset) = none ∧
    (32 ≠ 0 ∧ 32 % 16 = 0) ∧ ¬(40 ≠ 0 ∧ 40 % 16 = 0) ∧
    interruptDue { withInput uninit .reset with cfg := ⟨40, 32, 16, .resetAll, 8⟩ } = none := by decide

/-- Capacities at the ends of the rule: the smallest legal one, zero, and one off either way. -/
theorem witness_capacities :
    (16 ≠ 0 ∧ 16 % 16 = 0) ∧ ¬(0 ≠ 0 ∧ 0 % 16 = 0) ∧ ¬(15 ≠ 0 ∧ 15 % 16 = 0) ∧ ¬(17 ≠ 0 ∧ 17 % 16 = 0) := by decide

theorem witness_RbWriteByteResult :
    (getBuffer (withTx (ring 16 16 0 0 0 ramp) .idle) .tx).used = (getBuffer (withTx (ring 16 16 0 0 0 ramp) .idle) .tx).capacity ∧
    (getBuffer (withTx (ring 16 15 0 15 0 ramp) .idle) .tx).used ≠ (getBuffer (withTx (ring 16 15 0 15 0 ramp) .idle) .tx).capacity ∧
    (getBuffer (withTx (ring 16 15 0 15 0 ramp) .idle) .tx).tail < (getBuffer (withTx (ring 16 15 0 15 0 ramp) .idle) .tx).capacity := by
  decide

theorem witness_RbReadByteResult :
    (getBuffer (small .resetAll) .rx).used = 0 ∧
    (getBuffer (withTx (ring 16 1 15 0 0 ramp) .idle) .tx).used ≠ 0 ∧
    (getBuffer (withTx (ring 16 1 15 0 0 ramp) .idle) .tx).head < (getBuffer (withTx (ring 16 1 15 0 0 ramp) .idle) .tx).capacity := by
  decide

theorem witness_RbPeekManyResult :
    (min 40 (getBuffer received1 .rx).used ≠ 0 → 0 < (getBuffer received1 .rx).capacity) ∧
    (min 0 (ring 0 1 0 0 0 []).used ≠ 0 → 0 < (ring 0 1 0 0 0 []).capacity) := by decide

theorem witness_StorageIndexFault :
    (ring 16 1 16 0 0 []).used ≠ 0 ∧ (ring 16 1 16 0 0 []).capacity ≤ (ring 16 1 16 0 0 []).head ∧
    (ring 16 1 0 16 0 []).used ≠ (ring 16 1 0 16 0 []).capacity ∧
    (ring 16 1 0 16 0 []).capacity ≤ (ring 16 1 0 16 0 []).tail ∧
    min 1 (ring 0 1 0 0 0 []).used ≠ 0 ∧ (ring 0 1 0 0 0 []).capacity = 0 := by decide

theorem witness_PeekThenReadAgree : CursorInv (ring 16 16 5 5 0 ramp) ∧ 16 ≤ (ring 16 16 5 5 0 ramp).used := by decide

theorem witness_FrameWriteAllOrNothing :
    BufferInv 16 (ring 16 16 0 0 65535 ramp) ∧ (ring 16 16 0 0 65535 ramp).used = (ring 16 16 0 0 65535 ramp).capacity ∧
    BufferInv 16 (ring 32 16 16 0 0 (ramp ++ ramp)) ∧
    (ring 32 16 16 0 0 (ramp ++ ramp)).used ≠ (ring 32 16 16 0 0 (ramp ++ ramp)).capacity := by decide

/-- B7: three frames into 48 bytes at `0 16 16 0`. -/
theorem witness_FifoLaw :
    BufferInv 16 (ring 48 0 16 16 0 []) ∧ (ring 48 0 16 16 0 []).used = 0 ∧
    [serializeFrame frameA, serializeFrame frameB, serializeFrame frameC].length * 16 ≤ (ring 48 0 16 16 0 []).capacity := by
  decide

theorem witness_OverflowLaw :
    (ring 16 16 3 3 65534 ramp).used = (ring 16 16 3 3 65534 ramp).capacity ∧
    (ring 16 16 3 3 65534 ramp).overflowCount < 2 ^ 16 - 1 := by decide

/-- The largest Standard identifier, an Extended frame, both payload kinds. -/
theorem witness_RoundTripLaw :
    ({ frameA with identifier := 0x7FF } : CanFrame).WellFormed ∧ frameA.payloadKind = .data ∧ frameC.WellFormed ∧
    frameC.payloadKind = .remoteRequest ∧ frameB.WellFormed ∧ frame13.WellFormed := by decide

theorem witness_ReencodeNormalises :
    (0xE007 : Word).getLsbD 1 = true ∧ (0x0005 : Word).getLsbD 1 = false ∧ frame11.payloadKind = .data := by decide

theorem witness_receiveBuffers :
    BufferInv (small .resetAll).cfg.cntW (small .resetAll).rx.rb ∧
    (small .resetAll).rx.rb.used ≠ (small .resetAll).rx.rb.capacity ∧
    BufferInv received1.cfg.cntW received1.rx.rb ∧ received1.rx.rb.used ≠ received1.rx.rb.capacity ∧
    BufferInv received2.cfg.cntW received2.rx.rb ∧ received2.rx.rb.used = received2.rx.rb.capacity := by decide

theorem witness_EnqueueAccepted :
    ((small .resetAll).initState = .ready ∧ BufferInv 16 (small .resetAll).tx.rb ∧
      (small .resetAll).tx.rb.used ≠ (small .resetAll).tx.rb.capacity ∧ (small .resetAll).tx.txState = .idle) ∧
    (queuedB.initState = .ready ∧ BufferInv queuedB.cfg.cntW queuedB.tx.rb ∧
      queuedB.tx.rb.used ≠ queuedB.tx.rb.capacity ∧ queuedB.tx.txState = .sending) := by decide

theorem witness_EnqueueRefused :
    (queuedAB 0 .resetAll).initState = .ready ∧
    (queuedAB 0 .resetAll).tx.rb.used = (queuedAB 0 .resetAll).tx.rb.capacity ∧
    (queuedAB 0 .resetAll).tx.rb.capacity ≠ 0 ∧
    TransmitInv (queuedAB 0 .resetAll).cfg (queuedAB 0 .resetAll).tx := by decide

theorem witness_CompletionWhileIdle : (small .resetAll).tx.txState = .idle := by decide

theorem witness_CompletionRecovers :
    let s := { queuedB with tx := { queuedB.tx with rb := { queuedB.tx.rb with overflowCount := 1 } } }
    s.tx.txState = .sending ∧ BufferInv s.cfg.cntW s.tx.rb ∧ 16 ≤ s.tx.rb.used ∧ s.cfg.txOverflowPolicy = .resetAll ∧
    s.tx.rb.overflowCount ≠ 0 := by decide

theorem witness_CompletionChains :
    ((queuedAB 0 .resetAll).tx.txState = .sending ∧ BufferInv 16 (queuedAB 0 .resetAll).tx.rb ∧
      16 < (queuedAB 0 .resetAll).tx.rb.used ∧
      ¬((queuedAB 0 .resetAll).cfg.txOverflowPolicy = .resetAll ∧ (queuedAB 0 .resetAll).tx.rb.overflowCount ≠ 0)) ∧
    (BufferInv 16 (queuedAB 1 .dropNewest).tx.rb ∧ 16 < (queuedAB 1 .dropNewest).tx.rb.used ∧
      ¬((queuedAB 1 .dropNewest).cfg.txOverflowPolicy = .resetAll ∧ (queuedAB 1 .dropNewest).tx.rb.overflowCount ≠ 0)) := by
  decide

theorem witness_CompletionEmpties :
    queuedB.tx.txState = .sending ∧ BufferInv queuedB.cfg.cntW queuedB.tx.rb ∧ queuedB.tx.rb.used = 16 ∧
    ¬(queuedB.cfg.txOverflowPolicy = .resetAll ∧ queuedB.tx.rb.overflowCount ≠ 0) := by decide

theorem witness_ChainingOrder :
    State.reset.initState = .ready ∧ State.reset.tx.txState = .idle ∧
    BufferInv State.reset.cfg.cntW State.reset.tx.rb ∧ TransmitInv State.reset.cfg State.reset.tx ∧
    48 ≤ State.reset.tx.rb.capacity := by decide

/-- Counts at the top of their ranges: an overflow count at its maximum, and 65535 pending frames. -/
theorem witness_StatusViews :
    received1.initState = .ready ∧ CountInv 16 (ring 16 16 0 0 65535 ramp) ∧ 65535 < 2 ^ max received1.cfg.cntW 16 ∧
    CountInv received1.cfg.cntW received1.rx.rb := by decide

theorem witness_NotInitialised : uninit.initState ≠ .ready ∧ (failedInit uninit).initState ≠ .ready := by decide

theorem witness_DequeueOldestFrame :
    ((small .resetAll).initState = .ready ∧ (small .resetAll).rx.pendingCount = 0) ∧
    (received2.initState = .ready ∧ received2.rx.pendingCount ≠ 0 ∧ BufferInv received2.cfg.cntW received2.rx.rb ∧
      ReceiveInv received2.rx) := by decide

theorem witness_CountingLaw :
    received1.initState = .ready ∧ BufferInv received1.cfg.cntW received1.rx.rb ∧ ReceiveInv received1.rx := by decide

theorem witness_TxIrqCompletesThenClears :
    let s := withCauses (queuedAB 0 .resetAll) true false
    s.env.txCompletePending = true ∧ s.initState = .ready ∧ BufferInv s.cfg.cntW s.tx.rb ∧ TransmitInv s.cfg s.tx := by
  decide

theorem witness_RxIrqStoresThenClears :
    let s := withCauses received2 false true
    s.env.rxCompletePending = true ∧ s.initState = .ready ∧ BufferInv s.cfg.cntW s.rx.rb := by decide

theorem witness_CauseNotServiced :
    ¬((small .resetAll).env.txCompletePending = true ∧ (small .resetAll).initState = .ready) ∧
    ¬((withCauses uninit true true).env.rxCompletePending = true ∧ (withCauses uninit true true).initState = .ready) ∧
    (withCauses uninit true true).initState ≠ .ready := by decide

/-- The completed reception of slot 3, and another slot, with none, whose object a transmission filled. -/
theorem witness_HardwareReceiveWordsAnswer :
    let s := withCauses (queuedAB 0 .resetAll) false true
    (s.env.rxCompletePending = true ∧ (3 : Slot) = s.env.rxCompleteSlot ∧ s.env.rxCompleteWords = some words1) ∧
    fitSlot s.cfg 3 = 3 ∧ fitSlot s.cfg 0 = 0 ∧
    ¬(s.env.rxCompletePending = true ∧ (0 : Slot) = s.env.rxCompleteSlot ∧ s.env.rxCompleteWords.isSome = true) ∧
    storeRead s.env.messageObjects 0 = some wordsA := by decide

theorem witness_StepRunsDecodedOperation :
    interruptDue (withCauses (small .resetAll) false true) = some (.iaRxIrq 3) ∧
    (interruptDue (withInput received1 (.foreground 0x41 default)) = none ∧
      decodeForeground 0x41 default = some .rxDequeue) ∧
    (interruptDue (withInput received1 (.bench .op [0x12, 1])) = none ∧
      decode .op [0x12, 1] = .ok (.rbReadByte .rx, [])) := by decide

theorem witness_InterruptsBeforeRequests :
    ((withCauses queuedB true true).initState = .ready ∧ (withCauses queuedB true true).env.txCompletePending = true) ∧
    ((withCauses queuedB false true).env.txCompletePending = false ∧
      (withCauses queuedB false true).env.rxCompletePending = true) := by decide

/-- Codes beside the assigned ones, and the largest. -/
theorem witness_IllegalForegroundCode :
    interruptDue (withInput received1 (.foreground 0x31 default)) = none ∧
    (0x31 : Byte) ∉ ([0x00, 0x30, 0x32, 0x41, 0x42, 0x43] : List Byte) ∧
    (0x01 : Byte) ∉ ([0x00, 0x30, 0x32, 0x41, 0x42, 0x43] : List Byte) ∧
    (0xFF : Byte) ∉ ([0x00, 0x30, 0x32, 0x41, 0x42, 0x43] : List Byte) := by decide

theorem witness_EnvironmentInputs :
    (interruptDue (withInput queuedB (.env ⟨some 1, none⟩)) = none ∧ queuedB.env.txCompletePending = false) ∧
    (interruptDue (withInput queuedB (.env ⟨none, some (3, words1)⟩)) = none ∧ queuedB.env.rxCompletePending = false) ∧
    (interruptDue (withInput queuedB (.env ⟨some 1, some (3, words1)⟩)) = none ∧
      queuedB.env.txCompletePending = false ∧ queuedB.env.rxCompletePending = false) ∧
    (interruptDue (withInput (withCauses uninit true true) (.env ⟨some 1, none⟩)) = none ∧
      (withCauses uninit true true).env.txCompletePending = true ∧ (withCauses uninit true true).env.rxCompletePending = true) ∧
    (interruptDue (small .resetAll) = none ∧ (small .resetAll).inputs = []) := by decide

/-- The words of a foreground operation, of an adapter operation and of a wire class. -/
theorem witness_FetchWordRunsNext :
    State.reset.initState = .ready ∧ decodeTableWord 8 0x42 = some .rxPendingCount ∧
    decodeTableWord 8 0x51 = some (.iaRxIrq 0) ∧ decodeTableWord 16 0x2 = some (.wireStdRtr 0 0 default 0) := by decide

theorem witness_InvariantHoldsAtReset :
    let cfg : Config := ⟨16, 16, 16, .dropNewest, 8⟩
    cfg.txCapacity ≠ 0 ∧ cfg.txCapacity % 16 = 0 ∧ cfg.rxCapacity ≠ 0 ∧ cfg.rxCapacity % 16 = 0 := by decide

/-- A step that chains a frame and one that answers a request, both from states of the invariant. -/
theorem witness_StepKeepsInvariant_interrupt :
    BlockInv (withCauses (queuedAB 0 .resetAll) true false) ∧
    ∃ t, step (withCauses (queuedAB 0 .resetAll) true false) = .next t := ⟨by decide, _, rfl⟩

theorem witness_StepKeepsInvariant_request :
    BlockInv (withInput queuedB (.foreground 0x30 (serializeFrame frameC))) ∧
    ∃ t, step (withInput queuedB (.foreground 0x30 (serializeFrame frameC))) = .next t := ⟨by decide, _, rfl⟩

/-- The one way out of StepNeverStops: an event outside ENV's contract, while the block is not `Ready`. -/
theorem witness_StepNeverStops :
    BlockInv (withInput (withCauses uninit true true) (.env ⟨some 1, none⟩)) ∧
    interruptDue (withInput (withCauses uninit true true) (.env ⟨some 1, none⟩)) = none ∧
    (withCauses uninit true true).env.txCompletePending = true := by decide

/-- The chain step of "at most one in flight". -/
theorem witness_AtMostOneFrameInFlight_chain :
    FlightInv (withCauses (queuedAB 0 .resetAll) true false) ∧ EnvObeys (withCauses (queuedAB 0 .resetAll) true false) :=
  ⟨by decide, trivial⟩

/-- A completion event for the outstanding transmission. -/
theorem witness_AtMostOneFrameInFlight_event :
    BlockInv (withInput queuedB (.env ⟨some 1, none⟩)) ∧ FlightInv (withInput queuedB (.env ⟨some 1, none⟩)) ∧
    EnvObeys (withInput queuedB (.env ⟨some 1, none⟩)) ∧
    ∃ t, step (withInput queuedB (.env ⟨some 1, none⟩)) = .next t :=
  ⟨by decide, by decide, fun _ => rfl, _, rfl⟩

/-- A new initialisation while the peripheral is quiet. -/
theorem witness_AtMostOneFrameInFlight_reset :
    BlockInv (withInput (small .resetAll) .reset) ∧ FlightInv (withInput (small .resetAll) .reset) ∧
    EnvObeys (withInput (small .resetAll) .reset) ∧ ∃ t, step (withInput (small .resetAll) .reset) = .next t :=
  ⟨by decide, by decide, ⟨rfl, rfl⟩, _, rfl⟩

theorem witness_StepKeepsStoresCanonical :
    StoresWf (withInput received1 (.bench .op [0x11, 1, 0x5A])) ∧
    ∃ t, step (withInput received1 (.bench .op [0x11, 1, 0x5A])) = .next t := ⟨by decide, _, rfl⟩

/-- A state of a build with five slot bits, about to enqueue a frame whose slot byte has more (log entry 17). -/
theorem witness_SlotsKeepTheirWidth :
    let s := { withInput (small .resetAll) (.foreground 0x30 (serializeFrame { frameA with hardwareSlot := 0xE3 })) with
      cfg := ⟨32, 32, 16, .resetAll, 5⟩ }
    SlotInv s ∧ ∃ t, step s = .next t ∧ t.trace = [.transmit 3 wordsA] := ⟨by decide, _, rfl, by decide⟩

theorem witness_ElementsWrittenOnlyBy :
    ∃ t, exec (.txEnqueue frameA) (small .resetAll) = .next t ∧ t.tx.txState ≠ (small .resetAll).tx.txState :=
  ⟨_, rfl, by decide⟩

theorem witness_OnlyCompletionLeavesSending :
    BlockInv (withCauses queuedB true false) ∧ (withCauses queuedB true false).initState = .ready ∧
    (withCauses queuedB true false).tx.txState = .sending ∧ ∃ t, step (withCauses queuedB true false) = .next t :=
  ⟨by decide, by decide, by decide, _, rfl⟩

/-- Q7: both flags set. -/
theorem witness_HandlersCommute :
    let s := withCauses (queuedAB 0 .resetAll) true true
    s.initState = .ready ∧ s.env.txCompletePending = true ∧ s.env.rxCompletePending = true ∧
    BufferInv s.cfg.cntW s.tx.rb ∧ BufferInv s.cfg.cntW s.rx.rb ∧ TransmitInv s.cfg s.tx := by decide

/-- A step that clears the transmit count under `ResetAll`. -/
theorem witness_OverflowCountsMonotone :
    BlockInv (withCauses (queuedAB 1 .resetAll) true false) ∧ (queuedAB 1 .resetAll).initState = .ready ∧
    ∃ t, step (withCauses (queuedAB 1 .resetAll) true false) = .next t ∧ t.tx.rb.overflowCount = 0 :=
  ⟨by decide, by decide, _, rfl, by decide⟩

/-- Two blocks whose unwritten bytes are other free values, about to read a frame. -/
theorem witness_UnwrittenBytesNeverObserved :
    let s := withInput received1 (.foreground 0x41 default)
    let s' := { s with rx := { s.rx with rb := { s.rx.rb with storageEpoch := 7 } } }
    BlockInv s ∧ SameButUnwritten s s' ∧ ∃ t, step s = .next t := ⟨by decide, rfl, _, rfl⟩

theorem witness_DecodeEncodeRoundTrip :
    Instr.WellFormed (.rbInit .tx (2 ^ 32 - 1)) ∧ Instr.WellFormed (.rbPeekMany .rx 0) ∧
    Instr.WellFormed (.wireExtData 0x7FF 0xFFF 0x3F 15 zeroPayload 0xFF) := by decide

/-- Codes beside assigned ones, and the largest. -/
theorem witness_UnassignedCodesRejected :
    ∀ code ∈ ([0x01, 0x0F, 0x15, 0x33, 0x44, 0x52, 0x62, 0xFF] : List Byte),
      code ∉ ([0x00, 0x10, 0x11, 0x12, 0x13, 0x14, 0x20, 0x21, 0x22, 0x23, 0x30, 0x31, 0x32, 0x40, 0x41, 0x42, 0x43, 0x50,
        0x51, 0x60, 0x61] : List Byte) := by decide

end Sys2Proof.Tests
end

section
/-! PROOF. What an operation that completes can have done, from any state: one inversion per shared operation (R191, R193,
R220, R222, R301), and per reading of the input ports (R78, R273). -/

namespace Sys2Proof.Machine

theorem finishStatus_eq_next {e : Except Stop (Status × State)} {t : State} (h : finishStatus e = .next t) :
    ∃ st s1, e = .ok (st, s1) ∧ t = respond s1 st .none := by
  match e with
  | .ok (st, s1) => cases h; exact ⟨st, s1, rfl, rfl⟩
  | .error (.fault _) => cases h
  | .error (.refused _) => cases h

theorem stopOutcome_ne_next (e : Stop) (t : State) : stopOutcome e ≠ .next t := by
  cases e <;> exact nofun

/-- `TX.ENQUEUE` that completes (R191): the whole-frame write, then the call when it was accepted while `Idle`. -/
theorem enqueueFrame_ok {f : CanFrame} {s t : State} {st : Status} (h : enqueueFrame f s = .ok (st, t)) :
    ∃ r, rbWriteFrame s.cfg.cntW s.tx.rb (ser16Bytes (serializeFrame f)) = .ok (st, r) ∧
      ((st = .ok ∧ s.tx.txState = .idle ∧ t = startTransmission f { s with tx := ⟨r, .sending⟩ }) ∨
        (st = .ok ∧ s.tx.txState = .sending ∧ t = { s with tx := ⟨r, .sending⟩ }) ∨
        (st ≠ .ok ∧ t = { s with tx := { s.tx with rb := r } })) := by
  unfold enqueueFrame at h
  split at h
  next r hw =>
    split at h
    next hi => cases h; exact ⟨r, hw, .inl ⟨rfl, hi, rfl⟩⟩
    next hs => cases h; exact ⟨r, hw, .inr (.inl ⟨rfl, hs, rfl⟩)⟩
  next st' r hst hw =>
    cases h; exact ⟨r, hw, .inr (.inr ⟨hst, rfl⟩)⟩
  next => cases h

/-- `TX.ON_COMPLETE` that completes (R193): nothing while `Idle`; else the pop and the overflow recovery, then the call for
the next queued frame, or `Idle`. -/
theorem onHardwareComplete_ok {s t : State} {st : Status} (h : onHardwareComplete s = .ok (st, t)) :
    (s.tx.txState = .idle ∧ st = .spurious ∧ t = s) ∨
    (s.tx.txState = .sending ∧ st = .ok ∧ ∃ r, rbDropFrame .tx s.tx.rb = .ok r ∧
      ((frameQueued (recoverOverflow s.cfg r) = true ∧ ∃ b, rbPeekFrame .tx (recoverOverflow s.cfg r) = .ok b ∧
          t = startTransmission (fitFrame s.cfg (deserializeFrame b))
            { s with tx := ⟨recoverOverflow s.cfg r, .sending⟩ }) ∨
        (frameQueued (recoverOverflow s.cfg r) = false ∧
          t = { s with tx := ⟨recoverOverflow s.cfg r, .idle⟩ }))) := by
  unfold onHardwareComplete at h
  split at h
  next hi => cases h; exact .inl ⟨hi, rfl, rfl⟩
  next hs =>
    split at h
    next r hd =>
      dsimp only at h
      split at h
      next hq =>
        split at h
        next b hp => cases h; exact .inr ⟨hs, rfl, r, hd, .inl ⟨hq, b, hp, rfl⟩⟩
        next => cases h
      next hq => cases h; exact .inr ⟨hs, rfl, r, hd, .inr ⟨Bool.eq_false_iff.mpr hq, rfl⟩⟩
    next => cases h

/-- `RX.ON_FRAME` that completes (R220): the whole-frame write, and one pending frame more when it was accepted. -/
theorem onFrameReceived_ok {w : WireWords} {slot : Slot} {s t : State} {st : Status}
    (h : onFrameReceived w slot s = .ok (st, t)) :
    ∃ r, rbWriteFrame s.cfg.cntW s.rx.rb (ser16Bytes (serializeFrame (decodeFrame w slot))) = .ok (st, r) ∧
      ((st = .ok ∧ t = { s with rx := ⟨r, s.rx.pendingCount + 1⟩ }) ∨
        (st ≠ .ok ∧ t = { s with rx := { s.rx with rb := r } })) := by
  unfold onFrameReceived at h
  split at h
  next r hw => cases h; exact ⟨r, hw, .inl ⟨rfl, rfl⟩⟩
  next st' r hst hw =>
    cases h; exact ⟨r, hw, .inr ⟨hst, rfl⟩⟩
  next => cases h

/-- `RX.DEQUEUE` that completes on a queue with a pending frame (R222). -/
theorem dequeueFrame_ok {s t : State} {f : CanFrame} (h : dequeueFrame s = .ok (f, t)) :
    ∃ b r, rbReadFrame .rx s.rx.rb = .ok (b, r) ∧ f = fitFrame s.cfg (deserializeFrame b) ∧
      t = { s with rx := ⟨r, s.rx.pendingCount - 1⟩ } := by
  unfold dequeueFrame at h
  split at h
  next b r hr => cases h; exact ⟨b, r, hr, rfl, rfl⟩
  next => cases h

/-- `SYS.INIT` writes the two queues, `init_state` and the draw counter alone (R301, R303). -/
theorem initBlock_state (s : State) :
    (initBlock s).2 =
      { s with
        tx := (initBlock s).2.tx
        rx := (initBlock s).2.rx
        initState := (initBlock s).2.initState
        freeCount := (initBlock s).2.freeCount } := by
  rcases initBlock_cases s with ⟨-, -, h⟩ | ⟨-, h⟩
  · rw [h]
  · rw [h]; rfl

/-- The operation of a step runs in the state as it is, but for the inputs (R78). -/
theorem nextOperation_state {s s1 : State} {i : Instr} (h : nextOperation s = some (i, s1)) :
    ∃ rest, s1 = takeInput s rest := by
  unfold nextOperation at h
  split at h
  next => cases h; exact ⟨s.inputs, rfl⟩
  next =>
    split at h
    next rest _ =>
      obtain ⟨_, -, heq⟩ := Option.map_eq_some_iff.mp h
      cases heq; exact ⟨rest, rfl⟩
    next rest _ =>
      split at h
      next => cases h; exact ⟨rest, rfl⟩
      next => cases h
    next => cases h

end Sys2Proof.Machine
end

section
/-! PROOF. O9: an access to a storage index that does not exist stops with the fault of that name (R10, R26, log entry
12). -/

namespace Sys2Proof.Machine

theorem memRead_outside (q : QSel) {r : RingBuffer} {i : Nat} (h : r.capacity ≤ i) :
    memRead q r i = .error (.fault .storageIndex) := if_neg (Nat.not_lt.mpr h)

theorem memWrite_outside {r : RingBuffer} {i : Nat} (h : r.capacity ≤ i) (b : Byte) :
    memWrite r i b = .error (.fault .storageIndex) := if_neg (Nat.not_lt.mpr h)

theorem rbReadByte_outside (q : QSel) {r : RingBuffer} (hu : r.used ≠ 0) (h : r.capacity ≤ r.head) :
    rbReadByte q r = .error (.fault .storageIndex) := by
  simp [rbReadByte, isEmpty, hu, memRead_outside q h]

theorem rbWriteByte_outside (cntW : Nat) {r : RingBuffer} (hu : r.used ≠ r.capacity) (h : r.capacity ≤ r.tail) (b : Byte) :
    rbWriteByte cntW r b = .error (.fault .storageIndex) := by
  simp [rbWriteByte, isFull, hu, memWrite_outside h]

/-- A buffer without capacity has no index at all, so the first byte peeked already stops. -/
theorem rbPeekMany_of_capacity_zero (q : QSel) {r : RingBuffer} {n : Nat} (hn : min n r.used ≠ 0) (h : r.capacity = 0) :
    rbPeekMany q r n = .error (.fault .storageIndex) := by
  obtain ⟨m, hm⟩ := Nat.exists_eq_succ_of_ne_zero hn
  have hread : memRead q r ((r.head + 0) % r.capacity) = .error (.fault .storageIndex) :=
    memRead_outside q (by omega)
  rw [rbPeekMany, hm, peekFrom, hread]

/-- Settles O9: each of the three byte accesses checks its index, which is `capacity` or more here. -/
theorem storageIndexFault : Obligations.StorageIndexFault := by
  intro q b n s
  refine ⟨fun hu hh => ?_, fun hu ht => ?_, fun hn hc => ?_⟩
  · simp only [exec, execRbReadByte, rbReadByte_outside q hu hh, stopOutcome]
  · simp only [exec, execRbWriteByte, rbWriteByte_outside _ hu ht, stopOutcome]
  · simp only [exec, execRbPeekMany, rbPeekMany_of_capacity_zero q hn hc, stopOutcome]

end Sys2Proof.Machine
end

section
/-! PROOF. O50: every step keeps every slot within `SLOT_W` bits. `SlotInv` reads the parameters, ENV, the trace and the
response alone, so an update of the queues, of `init_state`, of the inputs or of the draw counter keeps it by computation;
every slot that enters one of its places has come through `fitSlot` (R7, R36, R100, log entry 17). -/

namespace Sys2Proof.Machine

/-! One rule per state operation. -/

theorem slotInv_respond {s : State} {st : Status} {d : ResultData} (h : SlotInv s)
    (hd : ∀ slot ∈ responseSlots (some ⟨some st, d⟩), SlotFits s.cfg slot) : SlotInv (respond s st d) := by
  obtain ⟨htx, hrx, hobjects, htrace, -⟩ := h
  exact ⟨htx, hrx, hobjects, htrace, hd⟩

/-- A response without data carries no slot. -/
theorem slotInv_respond_none {s : State} (h : SlotInv s) (st : Status) : SlotInv (respond s st .none) :=
  slotInv_respond h nofun

theorem slotInv_respond_frame {s : State} {f : CanFrame} (h : SlotInv s) (hf : SlotFits s.cfg f.hardwareSlot)
    (st : Status) : SlotInv (respond s st (.frame f)) :=
  slotInv_respond h (List.forall_mem_singleton.mpr hf)

theorem slotInv_respondCount {s : State} (h : SlotInv s) (n : Nat) : SlotInv (respondCount s n) :=
  slotInv_respond h nofun

theorem slotInv_setBuffer {s : State} (h : SlotInv s) (q : QSel) (r : RingBuffer) : SlotInv (setBuffer s q r) := by
  cases q <;> exact h

/-- A call on a slot that fits, into the message object of that slot (R240). -/
theorem slotInv_hardwareTransmit {s : State} {slot : Slot} (h : SlotInv s) (hs : SlotFits s.cfg slot) (w : WireWords) :
    SlotInv (hardwareTransmit slot w s) := by
  obtain ⟨htx, hrx, hobjects, htrace, hresponse⟩ := h
  refine ⟨htx, hrx, fun object ho => ?_, List.forall_mem_append.mpr ⟨htrace, List.forall_mem_singleton.mpr hs⟩, hresponse⟩
  rcases mem_storeWrite ho with hkey | ho
  · rw [hkey]; exact hs
  · exact hobjects object ho

theorem slotInv_hardwareReceiveWords {s : State} {slot : Slot} (h : SlotInv s) (hs : SlotFits s.cfg slot) :
    SlotInv (hardwareReceiveWords slot s).2 := by
  obtain ⟨htx, hrx, hobjects, htrace, hresponse⟩ := h
  rw [hardwareReceiveWords_state]
  exact ⟨htx, hrx, hobjects, List.forall_mem_append.mpr ⟨htrace, List.forall_mem_singleton.mpr hs⟩, hresponse⟩

theorem slotInv_initBlock {s : State} (h : SlotInv s) : SlotInv (initBlock s).2 := by
  rw [initBlock_state]; exact h

theorem slotInv_enqueueFrame {f : CanFrame} {s t : State} {st : Status} (h : SlotInv s)
    (hf : SlotFits s.cfg f.hardwareSlot) (he : enqueueFrame f s = .ok (st, t)) : SlotInv t := by
  obtain ⟨r, -, ⟨-, -, rfl⟩ | ⟨-, -, rfl⟩ | ⟨-, rfl⟩⟩ := enqueueFrame_ok he
  · exact slotInv_hardwareTransmit (s := { s with tx := ⟨r, .sending⟩ }) h hf _
  · exact h
  · exact h

/-- The chained frame's slot is read from bytes of the ring buffer, and fitted (R193, log entry 17). -/
theorem slotInv_onHardwareComplete {s t : State} {st : Status} (h : SlotInv s) (he : onHardwareComplete s = .ok (st, t)) :
    SlotInv t := by
  obtain ⟨-, -, rfl⟩ | ⟨-, -, r, -, ⟨-, b, -, rfl⟩ | ⟨-, rfl⟩⟩ := onHardwareComplete_ok he
  · exact h
  · exact slotInv_hardwareTransmit (s := { s with tx := ⟨recoverOverflow s.cfg r, .sending⟩ }) h (fitSlot_lt _ _) _
  · exact h

theorem slotInv_onFrameReceived {w : WireWords} {slot : Slot} {s t : State} {st : Status} (h : SlotInv s)
    (he : onFrameReceived w slot s = .ok (st, t)) : SlotInv t := by
  obtain ⟨r, -, ⟨-, rfl⟩ | ⟨-, rfl⟩⟩ := onFrameReceived_ok he <;> exact h

/-! One lemma per operation that has more than one outcome. -/

theorem execRbInit_slotInv {q : QSel} {c : Nat} {s t : State} (h : SlotInv s) (he : execRbInit q c s = .next t) :
    SlotInv t := by
  have hset (r : RingBuffer) : SlotInv (setBuffer s q r) := slotInv_setBuffer h q r
  unfold execRbInit at he
  split at he <;> cases he <;> exact slotInv_respond_none (hset _) _

theorem execRbWriteByte_slotInv {q : QSel} {b : Byte} {s t : State} (h : SlotInv s)
    (he : execRbWriteByte q b s = .next t) : SlotInv t := by
  unfold execRbWriteByte at he
  split at he
  · cases he; exact slotInv_respond_none (slotInv_setBuffer h q _) _
  · exact absurd he (stopOutcome_ne_next _ _)

theorem execRbReadByte_slotInv {q : QSel} {s t : State} (h : SlotInv s) (he : execRbReadByte q s = .next t) :
    SlotInv t := by
  unfold execRbReadByte at he
  split at he
  · cases he; exact slotInv_respond (slotInv_setBuffer h q _) nofun
  · cases he; exact slotInv_respond_none (slotInv_setBuffer h q _) _
  · exact absurd he (stopOutcome_ne_next _ _)

theorem execRbPeekMany_slotInv {q : QSel} {n : Nat} {s t : State} (h : SlotInv s)
    (he : execRbPeekMany q n s = .next t) : SlotInv t := by
  unfold execRbPeekMany at he
  split at he
  · cases he; exact slotInv_respond h nofun
  · exact absurd he (stopOutcome_ne_next _ _)

theorem execTxEnqueue_slotInv {f : CanFrame} {s t : State} (h : SlotInv s) (he : execTxEnqueue f s = .next t) :
    SlotInv t := by
  unfold execTxEnqueue at he
  split at he
  · obtain ⟨st, s1, hq, rfl⟩ := finishStatus_eq_next he
    exact slotInv_respond_none (slotInv_enqueueFrame h (fitSlot_lt _ _) hq) st
  · cases he; exact slotInv_respond_none h _

theorem execTxOnComplete_slotInv {s t : State} (h : SlotInv s) (he : execTxOnComplete s = .next t) : SlotInv t := by
  obtain ⟨st, s1, hc, rfl⟩ := finishStatus_eq_next he
  exact slotInv_respond_none (slotInv_onHardwareComplete h hc) st

theorem execRxOnFrame_slotInv {w : WireWords} {slot : Slot} {s t : State} (h : SlotInv s)
    (he : execRxOnFrame w slot s = .next t) : SlotInv t := by
  obtain ⟨st, s1, hf, rfl⟩ := finishStatus_eq_next he
  exact slotInv_respond_none (slotInv_onFrameReceived h hf) st

theorem execRxDequeue_slotInv {s t : State} (h : SlotInv s) (he : execRxDequeue s = .next t) : SlotInv t := by
  unfold execRxDequeue at he
  split at he
  next =>
    split at he
    next => cases he; exact slotInv_respond_none h _
    next =>
      split at he
      next hd =>
        obtain ⟨b, r, -, rfl, rfl⟩ := dequeueFrame_ok hd
        cases he
        exact slotInv_respond_frame (s := { s with rx := ⟨r, s.rx.pendingCount - 1⟩ }) h (fitSlot_lt _ _) _
      next => exact absurd he (stopOutcome_ne_next _ _)
  next => cases he; exact slotInv_respond_none h _

/-- The three operations that answer with a counter when `Ready` (R200, R223, R224). -/
theorem countAnswer_slotInv {s t : State} {n : Nat} (h : SlotInv s)
    (he : (if isReady s then .next (respondCount s n) else .next (respond s .notInitialised .none) :
      Host.Outcome State Fault Refusal) = .next t) : SlotInv t := by
  split at he
  · cases he; exact slotInv_respondCount h n
  · cases he; exact slotInv_respond_none h _

theorem execIaTxIrq_slotInv {slot : Slot} {s t : State} (h : SlotInv s) (he : execIaTxIrq slot s = .next t) :
    SlotInv t := by
  unfold execIaTxIrq at he
  split at he
  next =>
    split at he
    next hc =>
      have hcomplete := slotInv_onHardwareComplete h hc
      cases he; exact hcomplete
    next => exact absurd he (stopOutcome_ne_next _ _)
  next => cases he; exact h

theorem execIaRxIrq_slotInv {slot : Slot} {s t : State} (h : SlotInv s) (he : execIaRxIrq slot s = .next t) :
    SlotInv t := by
  unfold execIaRxIrq at he
  split at he
  next =>
    split at he
    next hf =>
      have hreceived := slotInv_onFrameReceived (slotInv_hardwareReceiveWords h (fitSlot_lt _ _)) hf
      cases he; exact hreceived
    next => exact absurd he (stopOutcome_ne_next _ _)
  next => cases he; exact h

/-- Every operation keeps every slot within its width (R7, R100). -/
theorem exec_slotInv {i : Instr} {s t : State} (h : SlotInv s) (he : exec i s = .next t) : SlotInv t := by
  have hframe (f : CanFrame) : SlotInv (respond s .ok (.frame (fitFrame s.cfg f))) :=
    slotInv_respond_frame h (fitSlot_lt _ _) _
  cases i with
  | sysInit => cases he; exact slotInv_respond_none (slotInv_initBlock h) _
  | rbInit q c => exact execRbInit_slotInv h he
  | rbWriteByte q b => exact execRbWriteByte_slotInv h he
  | rbReadByte q => exact execRbReadByte_slotInv h he
  | rbPeekMany q n => exact execRbPeekMany_slotInv h he
  | rbReset q => cases he; exact slotInv_respond_none (slotInv_setBuffer h q _) _
  | fcEncode f => cases he; exact slotInv_respond h nofun
  | fcDecode w slot => cases he; exact hframe (decodeFrame w slot)
  | fcSerialize f => cases he; exact slotInv_respond h (List.forall_mem_singleton.mpr (fitSlot_lt _ _))
  | fcDeserialize b => cases he; exact hframe _
  | txEnqueue f => exact execTxEnqueue_slotInv h he
  | txOnComplete => exact execTxOnComplete_slotInv h he
  | txOverflowCount => exact countAnswer_slotInv h he
  | rxOnFrame w slot => exact execRxOnFrame_slotInv h he
  | rxDequeue => exact execRxDequeue_slotInv h he
  | rxPendingCount => exact countAnswer_slotInv h he
  | rxOverflowCount => exact countAnswer_slotInv h he
  | iaTxIrq slot => exact execIaTxIrq_slotInv (slot := slot) h he
  | iaRxIrq slot => exact execIaRxIrq_slotInv h he
  | hwTransmit slot w => cases he; exact slotInv_hardwareTransmit h (fitSlot_lt _ _) w
  | hwReceiveWords slot =>
    cases he
    obtain ⟨htx, hrx, hobjects, htrace, -⟩ := slotInv_hardwareReceiveWords h (fitSlot_lt s.cfg slot)
    exact ⟨htx, hrx, hobjects, htrace, nofun⟩
  | wireStdData sid dlc d slot => cases he; exact hframe ⟨_, _, _, _, _, slot⟩
  | wireStdRtr sid dlc d slot => cases he; exact hframe ⟨_, _, _, _, _, slot⟩
  | wireExtData sid mid low dlc d slot => cases he; exact hframe ⟨_, _, _, _, _, slot⟩
  | wireExtRtr sid mid low dlc d slot => cases he; exact hframe ⟨_, _, _, _, _, slot⟩

/-- The transmit half of an event of ENV (R36, R245). -/
theorem slotInv_applyTxDone {s : State} (h : SlotInv s) (done : Option Slot) :
    SlotInv { s with env := applyTxDone s.cfg done s.env } := by
  cases done with
  | none => exact h
  | some slot =>
    obtain ⟨-, hrx, hobjects, htrace, hresponse⟩ := h
    exact ⟨fitSlot_lt _ _, hrx, hobjects, htrace, hresponse⟩

/-- The receive half of an event of ENV (R36, R246). -/
theorem slotInv_applyRxFrame {s : State} (h : SlotInv s) (received : Option (Slot × WireWords)) :
    SlotInv { s with env := applyRxFrame s.cfg received s.env } := by
  match received with
  | none => exact h
  | some (slot, w) =>
    obtain ⟨htx, -, hobjects, htrace, hresponse⟩ := h
    refine ⟨htx, fitSlot_lt _ _, fun object ho => ?_, htrace, hresponse⟩
    rcases mem_storeWrite ho with hkey | ho
    · rw [hkey]; exact fitSlot_lt _ _
    · exact hobjects object ho

theorem envInput_slotInv {event : EnvEvent} {s t : State} (h : SlotInv s) (he : envInput event s = .next t) :
    SlotInv t := by
  rcases envInput_cases event s with ⟨-, hn⟩ | ⟨-, hr⟩
  · rw [hn] at he
    cases he
    exact slotInv_applyRxFrame (slotInv_applyTxDone h event.txDone) event.rxFrame
  · rw [hr] at he; cases he

theorem benchInput_slotInv {format : Format} {bytes : List Byte} {s t : State} (h : SlotInv s)
    (he : benchInput format bytes s = .next t) : SlotInv t := by
  unfold benchInput at he
  split at he <;> cases he
  exact h

/-- Every input that is no operation keeps every slot within its width (R36). -/
theorem otherInput_slotInv {s t : State} (h : SlotInv s) (he : otherInput s = .next t) : SlotInv t := by
  have htake (rest : List Input) : SlotInv (takeInput s rest) := h
  unfold otherInput at he
  split at he
  next => cases he; exact h
  next rest _ => cases he; exact slotInv_respond_none (htake rest) _
  next rest _ => exact benchInput_slotInv (htake rest) he
  next rest _ =>
    cases he
    obtain ⟨htx, hrx, hobjects, htrace, -⟩ := slotInv_initBlock (htake rest)
    exact ⟨htx, hrx, hobjects, htrace, nofun⟩
  next rest _ => exact envInput_slotInv (htake rest) he

/-- Settles O50: a step runs an operation in the state as it is but for the inputs, or takes an input that is none. -/
theorem slotsKeepTheirWidth : Obligations.SlotsKeepTheirWidth := by
  intro s t h hstep
  match hn : nextOperation s with
  | some (i, s1) =>
    obtain ⟨rest, rfl⟩ := nextOperation_state hn
    rw [step_of_operation hn] at hstep
    exact exec_slotInv (s := takeInput s rest) h hstep
  | none =>
    rw [step_of_none hn] at hstep
    exact otherInput_slotInv h hstep

end Sys2Proof.Machine
end

section
/-! PROOF. What an operation that completes can have done, said once for all twenty-five (R111, R97), and what a step can
have done, of a test bench too (R78). The statements over every state are read off these two inversions. -/

namespace Sys2Proof.Machine

/-- The ways an operation that completes leaves the state: through the one shared operation it performs, or with an
answer alone. -/
inductive Effect (s : State) : Instr → State → Prop
  /-- The codec, the wire classes, the views, the peek; and the refused or idle answers of the others (R265, R271). -/
  | answers (i : Instr) (r : Option Response) : Effect s i { s with response := r }
  | initialises : Effect s .sysInit (respond (initBlock s).2 (initBlock s).1 .none)
  | constructs {q : QSel} {c : Nat} {st : Status} {r : RingBuffer} (h : rbInit s.freeCount (getBuffer s q) c = (st, r))
      (n : Nat) : Effect s (.rbInit q c) (respond { setBuffer s q r with freeCount := n } st .none)
  | writesByte {q : QSel} {b : Byte} {st : Status} {r : RingBuffer}
      (h : rbWriteByte s.cfg.cntW (getBuffer s q) b = .ok (st, r)) :
      Effect s (.rbWriteByte q b) (respond (setBuffer s q r) st .none)
  | readsByte {q : QSel} {o : Option Byte} {r : RingBuffer} (h : rbReadByte q (getBuffer s q) = .ok (o, r))
      (st : Status) (d : ResultData) : Effect s (.rbReadByte q) (respond (setBuffer s q r) st d)
  | resets (q : QSel) : Effect s (.rbReset q) (respond (setBuffer s q (rbReset (getBuffer s q))) .ok .none)
  | enqueues {f : CanFrame} {st : Status} {s1 : State} (hready : s.initState = .ready)
      (h : enqueueFrame (fitFrame s.cfg f) s = .ok (st, s1)) : Effect s (.txEnqueue f) (respond s1 st .none)
  | completes {st : Status} {s1 : State} (h : onHardwareComplete s = .ok (st, s1)) :
      Effect s .txOnComplete (respond s1 st .none)
  | servesCompletion {slot : Slot} {st : Status} {s1 : State} (hdue : txCauseDue s = true)
      (h : onHardwareComplete s = .ok (st, s1)) : Effect s (.iaTxIrq slot) (clearTxFlag s1)
  | receives {w : WireWords} {slot : Slot} {st : Status} {s1 : State}
      (h : onFrameReceived w (fitSlot s.cfg slot) s = .ok (st, s1)) :
      Effect s (.rxOnFrame w slot) (respond s1 st .none)
  | servesReception {w : WireWords} {slot : Slot} {st : Status} {s1 : State} (hdue : rxCauseDue s = true)
      (h : onFrameReceived w (fitSlot s.cfg slot) (hardwareReceiveWords (fitSlot s.cfg slot) s).2 = .ok (st, s1)) :
      Effect s (.iaRxIrq slot) (clearRxFlag s1)
  | dequeues {f : CanFrame} {s1 : State} (hready : s.initState = .ready) (hpending : s.rx.pendingCount ≠ 0)
      (h : dequeueFrame s = .ok (f, s1)) : Effect s .rxDequeue (respond s1 .ok (.frame f))
  | transmits (slot : Slot) (w : WireWords) : Effect s (.hwTransmit slot w) (hardwareTransmit (fitSlot s.cfg slot) w s)
  | answersWords (slot : Slot) (d : ResultData) :
      Effect s (.hwReceiveWords slot) (respondData (hardwareReceiveWords (fitSlot s.cfg slot) s).2 d)

section operations

variable {s t : State}

theorem execRbInit_effect {q : QSel} {c : Nat} (h : execRbInit q c s = .next t) : Effect s (.rbInit q c) t := by
  unfold execRbInit at h
  split at h
  next hi => cases h; exact .constructs hi (setBuffer s q _).freeCount
  next hi => cases h; exact .constructs hi _

theorem execRbWriteByte_effect {q : QSel} {b : Byte} (h : execRbWriteByte q b s = .next t) :
    Effect s (.rbWriteByte q b) t := by
  unfold execRbWriteByte at h
  split at h
  next hw => cases h; exact .writesByte hw
  next => exact absurd h (stopOutcome_ne_next _ _)

theorem execRbReadByte_effect {q : QSel} (h : execRbReadByte q s = .next t) : Effect s (.rbReadByte q) t := by
  unfold execRbReadByte at h
  split at h
  next hr => cases h; exact .readsByte hr _ _
  next hr => cases h; exact .readsByte hr _ _
  next => exact absurd h (stopOutcome_ne_next _ _)

theorem execRbPeekMany_effect {q : QSel} {n : Nat} (h : execRbPeekMany q n s = .next t) :
    Effect s (.rbPeekMany q n) t := by
  unfold execRbPeekMany at h
  split at h
  next => cases h; exact .answers _ _
  next => exact absurd h (stopOutcome_ne_next _ _)

theorem execTxEnqueue_effect {f : CanFrame} (h : execTxEnqueue f s = .next t) : Effect s (.txEnqueue f) t := by
  unfold execTxEnqueue at h
  split at h
  next hr => obtain ⟨st, s1, he, rfl⟩ := finishStatus_eq_next h; exact .enqueues ((isReady_iff s).mp hr) he
  next => cases h; exact .answers _ _

theorem execRxDequeue_effect (h : execRxDequeue s = .next t) : Effect s .rxDequeue t := by
  unfold execRxDequeue at h
  split at h
  next hr =>
    split at h
    next => cases h; exact .answers _ _
    next hp =>
      split at h
      next hd => cases h; exact .dequeues ((isReady_iff s).mp hr) hp hd
      next => exact absurd h (stopOutcome_ne_next _ _)
  next => cases h; exact .answers _ _

/-- The three operations that answer with a counter when `Ready` (R200, R223, R224). -/
theorem countAnswer_effect {n : Nat} (i : Instr)
    (h : (if isReady s then .next (respondCount s n) else .next (respond s .notInitialised .none) :
      Host.Outcome State Fault Refusal) = .next t) : Effect s i t := by
  split at h
  · cases h; exact .answers _ _
  · cases h; exact .answers _ _

theorem execIaTxIrq_effect {slot : Slot} (h : execIaTxIrq slot s = .next t) : Effect s (.iaTxIrq slot) t := by
  unfold execIaTxIrq at h
  split at h
  next hdue =>
    split at h
    next hc => cases h; exact .servesCompletion hdue hc
    next => exact absurd h (stopOutcome_ne_next _ _)
  next => cases h; exact .answers _ _

theorem execIaRxIrq_effect {slot : Slot} (h : execIaRxIrq slot s = .next t) : Effect s (.iaRxIrq slot) t := by
  unfold execIaRxIrq at h
  split at h
  next hdue =>
    split at h
    next hf => cases h; exact .servesReception hdue hf
    next => exact absurd h (stopOutcome_ne_next _ _)
  next => cases h; exact .answers _ _

/-- What an operation that completes can have done, from any state. -/
theorem exec_effect {i : Instr} (h : exec i s = .next t) : Effect s i t := by
  cases i with
  | sysInit => cases h; exact .initialises
  | rbInit q c => exact execRbInit_effect h
  | rbWriteByte q b => exact execRbWriteByte_effect h
  | rbReadByte q => exact execRbReadByte_effect h
  | rbPeekMany q n => exact execRbPeekMany_effect h
  | rbReset q => cases h; exact .resets q
  | fcEncode f => cases h; exact .answers _ _
  | fcDecode w slot => cases h; exact .answers _ _
  | fcSerialize f => cases h; exact .answers _ _
  | fcDeserialize b => cases h; exact .answers _ _
  | txEnqueue f => exact execTxEnqueue_effect h
  | txOnComplete => obtain ⟨st, s1, hc, rfl⟩ := finishStatus_eq_next h; exact .completes hc
  | txOverflowCount => exact countAnswer_effect _ h
  | rxOnFrame w slot => obtain ⟨st, s1, hf, rfl⟩ := finishStatus_eq_next h; exact .receives hf
  | rxDequeue => exact execRxDequeue_effect h
  | rxPendingCount => exact countAnswer_effect _ h
  | rxOverflowCount => exact countAnswer_effect _ h
  | iaTxIrq slot => exact execIaTxIrq_effect h
  | iaRxIrq slot => exact execIaRxIrq_effect h
  | hwTransmit slot w => cases h; exact .transmits slot w
  | hwReceiveWords slot => cases h; exact .answersWords slot _
  | wireStdData sid dlc d slot => cases h; exact .answers _ _
  | wireStdRtr sid dlc d slot => cases h; exact .answers _ _
  | wireExtData sid mid low dlc d slot => cases h; exact .answers _ _
  | wireExtRtr sid mid low dlc d slot => cases h; exact .answers _ _

end operations

/-- The ways a step leaves the state, once it has taken what it takes from the inputs: an operation, an illegal code, the
reset input, an event of ENV, or nothing to do. -/
inductive StepEffect (s : State) : State → Prop
  | operation {i : Instr} {t : State} (h : Effect s i t) : StepEffect s t
  | illegal : StepEffect s (illegalOp s)
  | reset : StepEffect s (resetInput s)
  | event (event : EnvEvent) :
      StepEffect s { s with env := applyRxFrame s.cfg event.rxFrame (applyTxDone s.cfg event.txDone s.env) }
  | idle : StepEffect s s

theorem envInput_effect {event : EnvEvent} {s t : State} (h : envInput event s = .next t) : StepEffect s t := by
  obtain ⟨-, hn⟩ | ⟨-, hr⟩ := envInput_cases event s
  · rw [hn] at h; cases h; exact .event event
  · rw [hr] at h; cases h

theorem otherInput_effect {s t : State} (h : otherInput s = .next t) :
    ∃ rest, rest ⊆ s.inputs ∧ StepEffect (takeInput s rest) t := by
  unfold otherInput at h
  split at h
  next => cases h; exact ⟨s.inputs, List.Subset.refl _, .idle⟩
  next rest hi => cases h; exact ⟨rest, hi ▸ List.subset_cons_self .., .illegal⟩
  next rest hi =>
    unfold benchInput at h
    split at h <;> cases h
    exact ⟨rest, hi ▸ List.subset_cons_self .., .idle⟩
  next rest hi => cases h; exact ⟨rest, hi ▸ List.subset_cons_self .., .reset⟩
  next rest hi => exact ⟨rest, hi ▸ List.subset_cons_self .., envInput_effect h⟩

/-- The operation of a step takes at most one input (R78). -/
theorem nextOperation_inputs {s s1 : State} {i : Instr} (h : nextOperation s = some (i, s1)) : s1.inputs ⊆ s.inputs := by
  unfold nextOperation at h
  split at h
  next => cases h; exact List.Subset.refl _
  next =>
    split at h
    next hi =>
      obtain ⟨_, -, heq⟩ := Option.map_eq_some_iff.mp h
      cases heq; exact hi ▸ List.subset_cons_self ..
    next hi =>
      split at h
      next => cases h; exact hi ▸ List.subset_cons_self ..
      next => cases h
    next => cases h

/-- What a step can have done, from any state and of a test bench too (R78). -/
theorem step_effect {s t : State} (h : step s = .next t) :
    ∃ rest, rest ⊆ s.inputs ∧ StepEffect (takeInput s rest) t := by
  match hn : nextOperation s with
  | some (i, s1) =>
    have hinputs := nextOperation_inputs hn
    obtain ⟨rest, rfl⟩ := nextOperation_state hn
    rw [step_of_operation hn] at h
    exact ⟨rest, hinputs, .operation (exec_effect h)⟩
  | none =>
    rw [step_of_none hn] at h
    exact otherInput_effect h

end Sys2Proof.Machine
end

section
/-! PROOF. O45: the invariants at reset (R302, R303). -/

namespace Sys2Proof.Machine

/-- The zero slot is a slot of every build (log entry 7). -/
theorem slotFits_zero (cfg : Config) : SlotFits cfg 0 := Nat.two_pow_pos _

/-- Settles O45: both ring buffers are empty and of legal capacity, and ENV is quiet. -/
theorem invariantHoldsAtReset : Obligations.InvariantHoldsAtReset := by
  intro cfg htx htxMod hrx hrxMod
  have hbuffer {c : Nat} (h0 : c ≠ 0) (hmod : c % 16 = 0) : BufferInv cfg.cntW (emptyBuffer c 1) :=
    BufferInv.empty (by simp [legalCapacity, h0, hmod]) 1
  refine ⟨⟨resetOf_wf cfg, nofun, fun _ => ⟨⟨rfl, rfl⟩, hbuffer htx htxMod, hbuffer hrx hrxMod, ?_, ?_⟩⟩, fun _ => ?_, ?_⟩
  · exact ⟨iff_of_true rfl rfl, nofun, fun _ _ => rfl⟩
  · exact (Nat.zero_mul _).symm
  · exact ⟨iff_of_false nofun (by simp [State.resetOf, quietEnv]), by simp [State.resetOf, quietEnv]⟩
  · exact ⟨slotFits_zero cfg, slotFits_zero cfg, nofun, nofun, nofun⟩

end Sys2Proof.Machine
end

section
/-! PROOF. O49: every step keeps the canonical form of the sparse stores. An update of anything but a storage or the
message objects keeps it by computation (log entries 2 and 3). -/

namespace Sys2Proof.Machine

theorem storesWf_getBuffer {s : State} (h : StoresWf s) (q : QSel) : Memory.wf (getBuffer s q).storage := by
  obtain ⟨htx, hrx, -⟩ := h
  cases q
  · exact htx
  · exact hrx

theorem storesWf_setBuffer {s : State} {r : RingBuffer} (h : StoresWf s) (q : QSel) (hr : Memory.wf r.storage) :
    StoresWf (setBuffer s q r) := by
  obtain ⟨htx, hrx, hobjects⟩ := h
  cases q
  · exact ⟨hr, hrx, hobjects⟩
  · exact ⟨htx, hr, hobjects⟩

theorem storesWf_hardwareTransmit {s : State} (h : StoresWf s) (slot : Slot) (w : WireWords) :
    StoresWf (hardwareTransmit slot w s) := by
  obtain ⟨htx, hrx, hobjects⟩ := h
  exact ⟨htx, hrx, hardwareTransmit_wf hobjects slot w⟩

theorem storesWf_hardwareReceiveWords {s : State} (h : StoresWf s) (slot : Slot) :
    StoresWf (hardwareReceiveWords slot s).2 := by
  rw [hardwareReceiveWords_state]; exact h

/-- An initialisation, failed or not, leaves storages with nothing written (R131, R301). -/
theorem storesWf_initBlock {s : State} (h : StoresWf s) : StoresWf (initBlock s).2 := by
  obtain ⟨-, -, hobjects⟩ := h
  obtain ⟨-, -, hi⟩ | ⟨-, hi⟩ := initBlock_cases s
  · rw [hi]; exact ⟨List.Pairwise.nil, List.Pairwise.nil, hobjects⟩
  · rw [hi]; exact ⟨List.Pairwise.nil, List.Pairwise.nil, hobjects⟩

theorem storesWf_enqueueFrame {f : CanFrame} {s t : State} {st : Status} (h : StoresWf s)
    (he : enqueueFrame f s = .ok (st, t)) : StoresWf t := by
  obtain ⟨htx, hrx, hobjects⟩ := h
  obtain ⟨r, hw, hcases⟩ := enqueueFrame_ok he
  have hr := rbWriteFrame_wf _ htx hw
  obtain ⟨-, -, rfl⟩ | ⟨-, -, rfl⟩ | ⟨-, rfl⟩ := hcases
  · exact storesWf_hardwareTransmit (s := { s with tx := ⟨r, .sending⟩ }) ⟨hr, hrx, hobjects⟩ _ _
  · exact ⟨hr, hrx, hobjects⟩
  · exact ⟨hr, hrx, hobjects⟩

/-- A transmit-complete writes no storage byte (R133, R135). -/
theorem storesWf_onHardwareComplete {s t : State} {st : Status} (h : StoresWf s)
    (he : onHardwareComplete s = .ok (st, t)) : StoresWf t := by
  obtain ⟨-, -, rfl⟩ | ⟨-, -, r, hd, hcases⟩ := onHardwareComplete_ok he
  · exact h
  · obtain ⟨htx, hrx, hobjects⟩ := h
    have hr : Memory.wf (recoverOverflow s.cfg r).storage := by
      rw [recoverOverflow_storage, rbDropBytes_storage _ hd]; exact htx
    obtain ⟨-, b, -, rfl⟩ | ⟨-, rfl⟩ := hcases
    · exact storesWf_hardwareTransmit (s := { s with tx := ⟨recoverOverflow s.cfg r, .sending⟩ }) ⟨hr, hrx, hobjects⟩ _ _
    · exact ⟨hr, hrx, hobjects⟩

theorem storesWf_onFrameReceived {w : WireWords} {slot : Slot} {s t : State} {st : Status} (h : StoresWf s)
    (he : onFrameReceived w slot s = .ok (st, t)) : StoresWf t := by
  obtain ⟨htx, hrx, hobjects⟩ := h
  obtain ⟨r, hw, ⟨-, rfl⟩ | ⟨-, rfl⟩⟩ := onFrameReceived_ok he
  · exact ⟨htx, rbWriteFrame_wf _ hrx hw, hobjects⟩
  · exact ⟨htx, rbWriteFrame_wf _ hrx hw, hobjects⟩

theorem storesWf_dequeueFrame {f : CanFrame} {s t : State} (h : StoresWf s) (he : dequeueFrame s = .ok (f, t)) :
    StoresWf t := by
  obtain ⟨htx, hrx, hobjects⟩ := h
  obtain ⟨b, r, hr, -, rfl⟩ := dequeueFrame_ok he
  exact ⟨htx, (rbReadFrame_storage hr).symm ▸ hrx, hobjects⟩

theorem Effect.storesWf {s t : State} {i : Instr} (he : Effect s i t) (h : StoresWf s) : StoresWf t := by
  cases he with
  | answers => exact h
  | initialises => exact storesWf_initBlock h
  | @constructs q c _ _ hi n =>
    have hr := rbInit_wf s.freeCount (getBuffer s q) c
    rw [hi] at hr
    exact storesWf_setBuffer h q hr
  | writesByte hw => exact storesWf_setBuffer h _ (rbWriteByte_wf (storesWf_getBuffer h _) hw)
  | readsByte hr => exact storesWf_setBuffer h _ ((rbReadByte_storage hr).symm ▸ storesWf_getBuffer h _)
  | resets q => exact storesWf_setBuffer h q (storesWf_getBuffer h q)
  | enqueues _ hq => exact (storesWf_enqueueFrame h hq :)
  | completes hc => exact (storesWf_onHardwareComplete h hc :)
  | servesCompletion _ hc => exact (storesWf_onHardwareComplete h hc :)
  | receives hf => exact (storesWf_onFrameReceived h hf :)
  | servesReception _ hf => exact (storesWf_onFrameReceived (storesWf_hardwareReceiveWords h _) hf :)
  | dequeues _ _ hd => exact (storesWf_dequeueFrame h hd :)
  | transmits slot w => exact storesWf_hardwareTransmit h _ w
  | answersWords slot d => exact storesWf_hardwareReceiveWords h _

/-- A reception writes one message object; a completion none (R245, R246). -/
theorem storeWf_envEvent (cfg : Config) (event : EnvEvent) {e : Env} (h : storeWf e.messageObjects) :
    storeWf (applyRxFrame cfg event.rxFrame (applyTxDone cfg event.txDone e)).messageObjects := by
  have htx : storeWf (applyTxDone cfg event.txDone e).messageObjects := by
    cases event.txDone <;> exact h
  match event.rxFrame with
  | none => exact htx
  | some (slot, w) => exact storeWf_storeWrite htx _ _

/-- Settles O49: whatever a step does, it writes the stores through `storeWrite` alone, or empties them. -/
theorem stepKeepsStoresCanonical : Obligations.StepKeepsStoresCanonical := by
  intro s t h hstep
  obtain ⟨rest, -, he⟩ := step_effect hstep
  have hs : StoresWf (takeInput s rest) := h
  cases he with
  | operation ho => exact ho.storesWf hs
  | illegal => exact hs
  | reset => exact storesWf_initBlock hs
  | event event =>
    obtain ⟨htx, hrx, hobjects⟩ := hs
    exact ⟨htx, hrx, storeWf_envEvent _ event hobjects⟩
  | idle => exact hs

end Sys2Proof.Machine
end

section
/-! PROOF. What an operation leaves as it was, from any state (R130, R132, R133): the byte and frame operations of a ring
buffer, then the four queue operations, then every operation and every step. -/

namespace Sys2Proof.Machine

/-- What a byte or frame write leaves of a ring buffer (R132, R137). -/
structure StoredInto (r r1 : RingBuffer) : Prop where
  capacity : r1.capacity = r.capacity
  head : r1.head = r.head

/-- What a byte or frame read leaves of a ring buffer (R133, R138, R140). -/
structure TakenFrom (r r1 : RingBuffer) : Prop where
  capacity : r1.capacity = r.capacity
  tail : r1.tail = r.tail
  overflowCount : r1.overflowCount = r.overflowCount
  storage : r1.storage = r.storage
  storageEpoch : r1.storageEpoch = r.storageEpoch

/-- What a transmit-complete leaves of the transmit buffer: the write cursor and the refusals counted move only to zero,
under `ResetAll` (R193, R194). -/
structure RetiredFrom (cfg : Config) (r r1 : RingBuffer) : Prop where
  capacity : r1.capacity = r.capacity
  tail : r1.tail = r.tail ∨ (cfg.txOverflowPolicy = .resetAll ∧ r1.tail = 0)
  overflowCount : r1.overflowCount = r.overflowCount ∨ (cfg.txOverflowPolicy = .resetAll ∧ r1.overflowCount = 0)
  storage : r1.storage = r.storage
  storageEpoch : r1.storageEpoch = r.storageEpoch

section buffers

variable {r r1 : RingBuffer}

theorem StoredInto.trans {r2 : RingBuffer} (h1 : StoredInto r r1) (h2 : StoredInto r1 r2) : StoredInto r r2 :=
  ⟨h2.capacity.trans h1.capacity, h2.head.trans h1.head⟩

theorem TakenFrom.refl (r : RingBuffer) : TakenFrom r r := ⟨rfl, rfl, rfl, rfl, rfl⟩

theorem TakenFrom.trans {r2 : RingBuffer} (h1 : TakenFrom r r1) (h2 : TakenFrom r1 r2) : TakenFrom r r2 :=
  ⟨h2.capacity.trans h1.capacity, h2.tail.trans h1.tail, h2.overflowCount.trans h1.overflowCount,
    h2.storage.trans h1.storage, h2.storageEpoch.trans h1.storageEpoch⟩

/-- A storage reads by its bytes and the number of its initialisations (R26, log entry 2). -/
theorem storageByte_congr (hs : r1.storage = r.storage) (he : r1.storageEpoch = r.storageEpoch) (q : QSel) (a : Nat) :
    storageByte q r1 a = storageByte q r a := by
  unfold storageByte
  rw [hs, he]

theorem rbWriteByte_stored {cntW : Nat} {b : Byte} {st : Status} (h : rbWriteByte cntW r b = .ok (st, r1)) :
    StoredInto r r1 := by
  unfold rbWriteByte memWrite at h
  split at h
  · cases h; exact ⟨rfl, rfl⟩
  · by_cases ht : r.tail < r.capacity
    · rw [if_pos ht] at h; cases h; exact ⟨rfl, rfl⟩
    · rw [if_neg ht] at h; cases h

theorem rbWriteFrame_stored {cntW : Nat} (bs : List Byte) :
    ∀ {r r1 : RingBuffer} {st : Status}, rbWriteFrame cntW r bs = .ok (st, r1) → StoredInto r r1 := by
  induction bs with
  | nil => intro r r1 st h; cases h; exact ⟨rfl, rfl⟩
  | cons b bs ih =>
    intro r r1 st h
    rw [rbWriteFrame] at h
    split at h
    next hw => exact (rbWriteByte_stored hw).trans (ih h)
    next hw =>
      have hstored := rbWriteByte_stored hw
      cases h; exact hstored
    next => cases h

theorem rbReadByte_taken {q : QSel} {o : Option Byte} (h : rbReadByte q r = .ok (o, r1)) : TakenFrom r r1 := by
  unfold rbReadByte at h
  split at h
  next => cases h; exact .refl _
  next =>
    split at h
    next => cases h; exact ⟨rfl, rfl, rfl, rfl, rfl⟩
    next => cases h

theorem rbReadBytes_taken {q : QSel} (n : Nat) :
    ∀ {r r1 : RingBuffer} {bs : List Byte}, rbReadBytes q n r = .ok (bs, r1) → TakenFrom r r1 := by
  induction n with
  | zero => intro r r1 bs h; cases h; exact .refl _
  | succ n ih =>
    intro r r1 bs h
    rw [rbReadBytes] at h
    split at h
    next hb =>
      split at h
      next hbs =>
        have htaken := (rbReadByte_taken hb).trans (ih hbs)
        cases h; exact htaken
      next => cases h
    next => cases h
    next => cases h

theorem rbReadFrame_taken {q : QSel} {b : Ser16} (h : rbReadFrame q r = .ok (b, r1)) : TakenFrom r r1 := by
  unfold rbReadFrame at h
  split at h
  next hbs =>
    split at h
    next =>
      have htaken := rbReadBytes_taken _ hbs
      cases h; exact htaken
    next => cases h
  next => cases h

theorem rbDropBytes_taken {q : QSel} (n : Nat) :
    ∀ {r r1 : RingBuffer}, rbDropBytes q n r = .ok r1 → TakenFrom r r1 := by
  induction n with
  | zero => intro r r1 h; cases h; exact .refl _
  | succ n ih =>
    intro r r1 h
    rw [rbDropBytes] at h
    split at h
    next hb => exact (rbReadByte_taken hb).trans (ih h)
    next hb =>
      have htaken := rbReadByte_taken hb
      cases h; exact htaken
    next => cases h

/-- The overflow recovery of a transmit-complete resets the buffer under `ResetAll` with refusals counted, and does
nothing else (R193, R194). -/
theorem recoverOverflow_cases (cfg : Config) (r : RingBuffer) :
    (cfg.txOverflowPolicy = .resetAll ∧ recoverOverflow cfg r = rbReset r) ∨
    ((cfg.txOverflowPolicy = .resetAll → r.overflowCount = 0) ∧ recoverOverflow cfg r = r) := by
  unfold recoverOverflow
  cases hdue : recoveryDue cfg r
  · refine .inr ⟨fun hp => ?_, rfl⟩
    simpa [recoveryDue, hp] using hdue
  · refine .inl ⟨?_, rfl⟩
    simp only [recoveryDue, Bool.and_eq_true, beq_iff_eq] at hdue
    exact hdue.1

@[simp] theorem recoverOverflow_capacity (cfg : Config) (r : RingBuffer) :
    (recoverOverflow cfg r).capacity = r.capacity := by
  unfold recoverOverflow; split <;> rfl

theorem RetiredFrom.refl (cfg : Config) (r : RingBuffer) : RetiredFrom cfg r r := ⟨rfl, .inl rfl, .inl rfl, rfl, rfl⟩

theorem TakenFrom.recover (h : TakenFrom r r1) (cfg : Config) : RetiredFrom cfg r (recoverOverflow cfg r1) := by
  obtain ⟨hp, he⟩ | ⟨-, he⟩ := recoverOverflow_cases cfg r1
  · rw [he]; exact ⟨h.capacity, .inr ⟨hp, rfl⟩, .inr ⟨hp, rfl⟩, h.storage, h.storageEpoch⟩
  · rw [he]; exact ⟨h.capacity, .inl h.tail, .inl h.overflowCount, h.storage, h.storageEpoch⟩

end buffers

section queues

variable {s t : State}

/-- `TX.ENQUEUE` writes the transmit queue, and ENV and the calls through `HW.TRANSMIT` alone (R191, R240). -/
theorem enqueueFrame_writes {f : CanFrame} {st : Status} (h : enqueueFrame f s = .ok (st, t)) :
    ∃ r txState objects owed trace, StoredInto s.tx.rb r ∧
      t = { s with
        tx := ⟨r, txState⟩
        env := { s.env with messageObjects := objects, txOutstanding := owed }
        trace := trace } := by
  obtain ⟨r, hw, ⟨-, -, rfl⟩ | ⟨-, -, rfl⟩ | ⟨-, rfl⟩⟩ := enqueueFrame_ok h
  all_goals exact ⟨r, _, _, _, _, rbWriteFrame_stored _ hw, rfl⟩

/-- `TX.ON_COMPLETE` writes the transmit queue, and ENV and the calls through `HW.TRANSMIT` alone (R193, R240). -/
theorem onHardwareComplete_writes {st : Status} (h : onHardwareComplete s = .ok (st, t)) :
    ∃ r txState objects owed trace, RetiredFrom s.cfg s.tx.rb r ∧
      t = { s with
        tx := ⟨r, txState⟩
        env := { s.env with messageObjects := objects, txOutstanding := owed }
        trace := trace } := by
  obtain ⟨-, -, rfl⟩ | ⟨-, -, r, hd, hcases⟩ := onHardwareComplete_ok h
  · exact ⟨t.tx.rb, _, _, _, _, .refl _ _, rfl⟩
  · have hr := (rbDropBytes_taken _ hd).recover s.cfg
    obtain ⟨-, b, -, rfl⟩ | ⟨-, rfl⟩ := hcases
    · exact ⟨_, _, _, _, _, hr, rfl⟩
    · exact ⟨_, _, _, _, _, hr, rfl⟩

/-- `RX.ON_FRAME` writes the receive queue alone (R220). -/
theorem onFrameReceived_writes {w : WireWords} {slot : Slot} {st : Status} (h : onFrameReceived w slot s = .ok (st, t)) :
    ∃ r pending, StoredInto s.rx.rb r ∧ t = { s with rx := ⟨r, pending⟩ } := by
  obtain ⟨r, hw, ⟨-, rfl⟩ | ⟨-, rfl⟩⟩ := onFrameReceived_ok h
  all_goals exact ⟨r, _, rbWriteFrame_stored _ hw, rfl⟩

/-- `RX.DEQUEUE` takes bytes from the receive queue (R222). -/
theorem dequeueFrame_writes {f : CanFrame} (h : dequeueFrame s = .ok (f, t)) :
    ∃ r pending, TakenFrom s.rx.rb r ∧ t = { s with rx := ⟨r, pending⟩ } := by
  obtain ⟨b, r, hr, -, rfl⟩ := dequeueFrame_ok h
  exact ⟨r, _, rbReadFrame_taken hr, rfl⟩

end queues

/-- No operation writes the parameters or the inputs (R7). -/
theorem Effect.cfg_inputs {s t : State} {i : Instr} (he : Effect s i t) : t.cfg = s.cfg ∧ t.inputs = s.inputs := by
  cases he with
  | answers => exact ⟨rfl, rfl⟩
  | initialises => rw [initBlock_state]; exact ⟨rfl, rfl⟩
  | constructs => exact ⟨setBuffer_cfg .., setBuffer_inputs ..⟩
  | writesByte => exact ⟨setBuffer_cfg .., setBuffer_inputs ..⟩
  | readsByte => exact ⟨setBuffer_cfg .., setBuffer_inputs ..⟩
  | resets => exact ⟨setBuffer_cfg .., setBuffer_inputs ..⟩
  | enqueues _ hq => obtain ⟨_, _, _, _, _, -, rfl⟩ := enqueueFrame_writes hq; exact ⟨rfl, rfl⟩
  | completes hc => obtain ⟨_, _, _, _, _, -, rfl⟩ := onHardwareComplete_writes hc; exact ⟨rfl, rfl⟩
  | servesCompletion _ hc => obtain ⟨_, _, _, _, _, -, rfl⟩ := onHardwareComplete_writes hc; exact ⟨rfl, rfl⟩
  | receives hf => obtain ⟨_, _, -, rfl⟩ := onFrameReceived_writes hf; exact ⟨rfl, rfl⟩
  | servesReception _ hf =>
    obtain ⟨_, _, -, rfl⟩ := onFrameReceived_writes hf
    rw [hardwareReceiveWords_state]; exact ⟨rfl, rfl⟩
  | dequeues _ _ hd => obtain ⟨_, _, -, rfl⟩ := dequeueFrame_writes hd; exact ⟨rfl, rfl⟩
  | transmits => exact ⟨rfl, rfl⟩
  | answersWords => rw [hardwareReceiveWords_state]; exact ⟨rfl, rfl⟩

/-- No step writes the parameters, and every step only takes from the inputs (R7, R78). -/
theorem step_cfg_inputs {s t : State} (h : step s = .next t) : t.cfg = s.cfg ∧ t.inputs ⊆ s.inputs := by
  obtain ⟨rest, hrest, he⟩ := step_effect h
  cases he with
  | operation ho =>
    obtain ⟨hcfg, hinputs⟩ := ho.cfg_inputs
    exact ⟨hcfg, hinputs ▸ hrest⟩
  | illegal => exact ⟨rfl, hrest⟩
  | reset => rw [resetInput, initBlock_state]; exact ⟨rfl, hrest⟩
  | event => exact ⟨rfl, hrest⟩
  | idle => exact ⟨rfl, hrest⟩

end Sys2Proof.Machine
end

section
/-! PROOF. O52: which operations write each element, read off what each operation leaves as it was (R38). -/

namespace Sys2Proof.Machine

/-- Settles O52: each case names what the operation may have written; everything else it leaves as it was. -/
theorem elementsWrittenOnlyBy : Obligations.ElementsWrittenOnlyBy := by
  intro i s t h
  cases exec_effect h with
  | answers => simp [transmitCount]
  | initialises => rw [initBlock_state]; simp [transmitCount, Constructs]
  | @constructs q => cases q <;> simp [setBuffer, transmitCount, Constructs]
  | @writesByte q _ _ _ hw =>
    have hr := rbWriteByte_stored hw
    cases q <;> simp [setBuffer, getBuffer, transmitCount, hr.capacity, hr.head]
  | @readsByte q _ _ hb =>
    have hr := rbReadByte_taken hb
    have hbyte := storageByte_congr hr.storage hr.storageEpoch q
    cases q <;> simp [setBuffer, getBuffer, transmitCount, hr.capacity, hr.tail, hr.overflowCount, hbyte]
  | resets q => cases q <;> simp [setBuffer, getBuffer, rbReset, storageByte, transmitCount]
  | enqueues _ hq =>
    obtain ⟨r, _, _, _, _, hr, rfl⟩ := enqueueFrame_writes hq
    simp [hr.capacity, hr.head]
  | completes hc =>
    obtain ⟨r, _, _, _, _, hr, rfl⟩ := onHardwareComplete_writes hc
    have htail := or_iff_not_imp_left.mp hr.tail
    have hcount := or_iff_not_imp_left.mp hr.overflowCount
    simpa [Constructs, ProcessesCompletion, hr.capacity, storageByte_congr hr.storage hr.storageEpoch] using ⟨htail, hcount⟩
  | servesCompletion _ hc =>
    obtain ⟨r, _, _, _, _, hr, rfl⟩ := onHardwareComplete_writes hc
    have htail := or_iff_not_imp_left.mp hr.tail
    have hcount := or_iff_not_imp_left.mp hr.overflowCount
    simpa [Constructs, ProcessesCompletion, hr.capacity, storageByte_congr hr.storage hr.storageEpoch] using ⟨htail, hcount⟩
  | receives hf =>
    obtain ⟨r, _, hr, rfl⟩ := onFrameReceived_writes hf
    simp [hr.capacity, hr.head, ProcessesReception, transmitCount]
  | servesReception _ hf =>
    obtain ⟨r, _, hr, rfl⟩ := onFrameReceived_writes hf
    rw [hardwareReceiveWords_state] at hr ⊢
    simp [hr.capacity, hr.head, ProcessesReception, transmitCount, isTransmit]
  | dequeues _ _ hd =>
    obtain ⟨r, _, hr, rfl⟩ := dequeueFrame_writes hd
    simp [hr.capacity, hr.tail, hr.overflowCount, storageByte_congr hr.storage hr.storageEpoch, transmitCount]
  | transmits => simp
  | answersWords slot d =>
    rw [hardwareReceiveWords_state]
    simp [transmitCount, isTransmit]

end Sys2Proof.Machine
end

section
/-! PROOF. O46: what one step of a block driven by its own ports does to the two queues (the rows of R197, R220, R222,
R301), and that each such move keeps the invariants of R27, R28, R30 and R32. -/

namespace Sys2Proof.Machine

/-- What holds of the two queues of a `Ready` block at every operation boundary: the `Ready` part of `BlockInv`. -/
abbrev QueuesInv (cfg : Config) (tx : TransmitQueue) (rx : ReceiveQueue) : Prop :=
  (tx.rb.capacity = cfg.txCapacity ∧ rx.rb.capacity = cfg.rxCapacity) ∧ BufferInv cfg.cntW tx.rb ∧
    BufferInv cfg.cntW rx.rb ∧ TransmitInv cfg tx ∧ ReceiveInv rx

/-- The moves of the two queues, from `tx` and `rx`, while the block stays in its `init_state`. -/
inductive QueueMove (cfg : Config) (env : Env) (tx : TransmitQueue) (rx : ReceiveQueue) :
    TransmitQueue → ReceiveQueue → Prop
  | none : QueueMove cfg env tx rx tx rx
  | transmitRefused (hfull : tx.rb.used = tx.rb.capacity) :
      QueueMove cfg env tx rx { tx with rb := countRefusal cfg.cntW tx.rb } rx
  | transmitAccepted (hroom : tx.rb.used ≠ tx.rb.capacity) (b : Ser16) :
      QueueMove cfg env tx rx ⟨pushBytes tx.rb (ser16Bytes b), .sending⟩ rx
  | completionChains (hpending : env.txCompletePending = true) (hs : tx.txState = .sending)
      (hq : Config.frameBytes ≤ (recoverOverflow cfg (popBytes Config.frameBytes tx.rb)).used) :
      QueueMove cfg env tx rx ⟨recoverOverflow cfg (popBytes Config.frameBytes tx.rb), .sending⟩ rx
  | completionEmpties (hpending : env.txCompletePending = true) (hs : tx.txState = .sending)
      (hq : ¬Config.frameBytes ≤ (recoverOverflow cfg (popBytes Config.frameBytes tx.rb)).used) :
      QueueMove cfg env tx rx ⟨recoverOverflow cfg (popBytes Config.frameBytes tx.rb), .idle⟩ rx
  | receptionRefused (hfull : rx.rb.used = rx.rb.capacity) :
      QueueMove cfg env tx rx tx { rx with rb := countRefusal cfg.cntW rx.rb }
  | receptionAccepted (hroom : rx.rb.used ≠ rx.rb.capacity) (b : Ser16) :
      QueueMove cfg env tx rx tx ⟨pushBytes rx.rb (ser16Bytes b), rx.pendingCount + 1⟩
  | dequeued (hpending : rx.pendingCount ≠ 0) :
      QueueMove cfg env tx rx tx ⟨popBytes Config.frameBytes rx.rb, rx.pendingCount - 1⟩

section moves

variable {cfg : Config} {tx : TransmitQueue} {rx : ReceiveQueue}

/-- A refused `transmit` finds the block `Sending`, so R30 (d) has nothing to say of the count (R192). -/
theorem transmitInv_refuse (hb : BufferInv cfg.cntW tx.rb) (h : TransmitInv cfg tx) (hfull : tx.rb.used = tx.rb.capacity) :
    TransmitInv cfg { tx with rb := countRefusal cfg.cntW tx.rb } := by
  obtain ⟨hidle, hsending, -⟩ := h
  refine ⟨hidle, hsending, fun _ hi => ?_⟩
  have hempty := hidle.mp hi
  have hpos := hb.1.capacity_pos
  omega

/-- A queue that is `Sending` with a frame in it meets R30. -/
theorem transmitInv_sending {r : RingBuffer} (h : Config.frameBytes ≤ r.used) : TransmitInv cfg ⟨r, .sending⟩ := by
  refine ⟨iff_of_false nofun fun h0 => ?_, fun _ => h, fun _ => nofun⟩
  exact absurd (h0 ▸ h) (by decide)

/-- A completion that leaves less than a frame leaves nothing, and under `ResetAll` no refusal counted (R30, R194). -/
theorem transmitInv_recover_idle {r : RingBuffer} (hb : BufferInv cfg.cntW (recoverOverflow cfg r))
    (hq : ¬Config.frameBytes ≤ (recoverOverflow cfg r).used) : TransmitInv cfg ⟨recoverOverflow cfg r, .idle⟩ := by
  obtain ⟨-, ⟨-, hdvd, -, -⟩, -⟩ := hb
  refine ⟨iff_of_true rfl (Nat.eq_zero_of_dvd_of_lt hdvd (not_le.mp hq)), nofun, fun hp _ => ?_⟩
  obtain ⟨-, he⟩ | ⟨hzero, he⟩ := recoverOverflow_cases cfg r
  · rw [he]; rfl
  · rw [he]; exact hzero hp

theorem QueueMove.keeps_inv {env : Env} {tx' : TransmitQueue} {rx' : ReceiveQueue} (hm : QueueMove cfg env tx rx tx' rx')
    (h : QueuesInv cfg tx rx) : QueuesInv cfg tx' rx' := by
  obtain ⟨⟨hct, hcr⟩, hbt, hbr, ht, hr⟩ := h
  have hin : tx.txState = .sending → Config.frameBytes ≤ tx.rb.used := ht.2.1
  cases hm with
  | none => exact ⟨⟨hct, hcr⟩, hbt, hbr, ht, hr⟩
  | transmitRefused hfull => exact ⟨⟨hct, hcr⟩, hbt.refuse, hbr, transmitInv_refuse hbt ht hfull, hr⟩
  | transmitAccepted hroom b =>
    exact ⟨⟨by simpa using hct, hcr⟩, hbt.push hroom b, hbr, transmitInv_sending (by simp), hr⟩
  | completionChains _ hs hq =>
    exact ⟨⟨by simpa using hct, hcr⟩, (hbt.pop (hin hs)).recover cfg, hbr, transmitInv_sending hq, hr⟩
  | completionEmpties _ hs hq =>
    have hb := (hbt.pop (hin hs)).recover cfg
    exact ⟨⟨by simpa using hct, hcr⟩, hb, hbr, transmitInv_recover_idle hb hq, hr⟩
  | receptionRefused => exact ⟨⟨hct, hcr⟩, hbt, hbr.refuse, ht, hr⟩
  | receptionAccepted hroom b =>
    refine ⟨⟨hct, by simpa using hcr⟩, hbt, hbr.push hroom b, ht, ?_⟩
    change (pushBytes rx.rb (ser16Bytes b)).used = (rx.pendingCount + 1) * Config.frameBytes
    rw [pushBytes_used, ser16Bytes_length, hr, Nat.succ_mul]
  | dequeued hpending =>
    simp only [ReceiveInv] at hr
    refine ⟨⟨hct, hcr⟩, hbt, hbr.pop (by simp only [Config.frameBytes] at *; omega), ht, ?_⟩
    simp only [ReceiveInv, popBytes_used, hr, Config.frameBytes]
    omega

end moves

/-- A successful initialisation gives queues that meet their invariants (R301). -/
theorem queuesInv_initBlock {s : State} (h : (initBlock s).2.initState = .ready) :
    QueuesInv s.cfg (initBlock s).2.tx (initBlock s).2.rx := by
  obtain ⟨htx, hrx, hi⟩ | ⟨-, hi⟩ := initBlock_cases s
  · rw [hi]
    exact ⟨⟨rfl, rfl⟩, .empty htx _, .empty hrx _, ⟨iff_of_true rfl rfl, nofun, fun _ _ => rfl⟩,
      (Nat.zero_mul _).symm⟩
  · rw [hi] at h; cases h

/-- What a step from `s` to `t` does to the queues: a move of theirs, or a new initialisation. -/
inductive QueueStep (s t : State) : Prop
  | moves (hinit : t.initState = s.initState) (hm : QueueMove s.cfg s.env s.tx s.rx t.tx t.rx) : QueueStep s t
  | reinitialises (h : Reinitialises s) (rest : List Input) (hinit : t.initState = (initBlock (takeInput s rest)).2.initState)
      (htx : t.tx = (initBlock (takeInput s rest)).2.tx) (hrx : t.rx = (initBlock (takeInput s rest)).2.rx) :
      QueueStep s t

section operations

variable {s t : State}

theorem enqueueFrame_move {f : CanFrame} {st : Status} (hb : BufferInv s.cfg.cntW s.tx.rb)
    (he : enqueueFrame f s = .ok (st, t)) :
    t.initState = s.initState ∧ QueueMove s.cfg s.env s.tx s.rx t.tx t.rx := by
  obtain ⟨hu, h⟩ | ⟨hu, -, h⟩ | ⟨hu, -, h⟩ := enqueueFrame_cases hb f
  all_goals rw [h] at he; cases he
  · exact ⟨rfl, .transmitRefused hu⟩
  · exact ⟨rfl, .transmitAccepted hu _⟩
  · exact ⟨rfl, .transmitAccepted hu _⟩

theorem onHardwareComplete_move {st : Status} (hb : BufferInv s.cfg.cntW s.tx.rb) (ht : TransmitInv s.cfg s.tx)
    (hpending : s.env.txCompletePending = true) (he : onHardwareComplete s = .ok (st, t)) :
    t.initState = s.initState ∧ QueueMove s.cfg s.env s.tx s.rx t.tx t.rx := by
  obtain ⟨-, h⟩ | ⟨hs, hq, b, -, h⟩ | ⟨hs, hq, h⟩ := onHardwareComplete_cases hb ht.2.1
  all_goals rw [h] at he; cases he
  · exact ⟨rfl, .none⟩
  · exact ⟨rfl, .completionChains hpending hs hq⟩
  · exact ⟨rfl, .completionEmpties hpending hs hq⟩

theorem onFrameReceived_move {w : WireWords} {slot : Slot} {st : Status} (hb : BufferInv s.cfg.cntW s.rx.rb)
    (he : onFrameReceived w slot s = .ok (st, t)) :
    t.initState = s.initState ∧ QueueMove s.cfg s.env s.tx s.rx t.tx t.rx := by
  obtain ⟨hu, h⟩ | ⟨hu, h⟩ := onFrameReceived_cases hb w slot
  all_goals rw [h] at he; cases he
  · exact ⟨rfl, .receptionRefused hu⟩
  · exact ⟨rfl, .receptionAccepted hu _⟩

theorem dequeueFrame_move {f : CanFrame} (hb : BufferInv s.cfg.cntW s.rx.rb) (hr : ReceiveInv s.rx)
    (hpending : s.rx.pendingCount ≠ 0) (he : dequeueFrame s = .ok (f, t)) :
    t.initState = s.initState ∧ QueueMove s.cfg s.env s.tx s.rx t.tx t.rx := by
  simp only [ReceiveInv, Config.frameBytes] at hr
  obtain ⟨b, -, h⟩ := dequeueFrame_spec hb.1 (by simp only [Config.frameBytes]; omega)
  rw [h] at he; cases he
  exact ⟨rfl, .dequeued hpending⟩

/-- The operations that the block's own ports can present or raise (R112, R271), but for `SYS.INIT`. -/
def isQueueOperation : Instr → Bool
  | .txEnqueue _ | .txOverflowCount | .rxDequeue | .rxPendingCount | .rxOverflowCount | .iaTxIrq _ | .iaRxIrq _ => true
  | _ => false

theorem interruptDue_isQueueOperation {i : Instr} (h : interruptDue s = some i) : isQueueOperation i = true := by
  obtain ⟨-, hd⟩ | ⟨-, -, hd⟩ | ⟨-, -, hd⟩ := interruptDue_cases s
  all_goals rw [hd] at h; cases h
  · rfl
  · rfl

theorem decodeForeground_isQueueOperation {op : Byte} {frame : Ser16} {i : Instr} (h : decodeForeground op frame = some i) :
    (op = 0x00 ∧ i = .sysInit) ∨ isQueueOperation i = true := by
  obtain hs | ⟨-, rfl⟩ | ⟨-, rfl⟩ | ⟨-, rfl⟩ | ⟨-, rfl⟩ | ⟨-, rfl⟩ := decodeForeground_cases h
  · exact .inl hs
  all_goals exact .inr rfl

/-- The operations that a block driven by its own ports runs (R13, R112, R271). -/
theorem nextOperation_isQueueOperation {s1 : State} {i : Instr} (hb : NoBench s) (h : nextOperation s = some (i, s1)) :
    i = .sysInit ∨ isQueueOperation i = true := by
  unfold nextOperation at h
  split at h
  next hdue => cases h; exact .inr (interruptDue_isQueueOperation hdue)
  next =>
    split at h
    next =>
      obtain ⟨_, hf, heq⟩ := Option.map_eq_some_iff.mp h
      cases heq; exact (decodeForeground_isQueueOperation hf).imp_left And.right
    next format bytes rest hi => exact absurd (hb (.bench format bytes) (by simp [hi])) (by simp [notBench])
    next => cases h

theorem Effect.move {i : Instr} (he : Effect s i t) (hi : isQueueOperation i = true)
    (h : s.initState = .ready → QueuesInv s.cfg s.tx s.rx) :
    t.initState = s.initState ∧ QueueMove s.cfg s.env s.tx s.rx t.tx t.rx := by
  cases he with
  | answers => exact ⟨rfl, .none⟩
  | enqueues hready hq =>
    obtain ⟨-, hbt, -⟩ := h hready
    exact (enqueueFrame_move hbt hq :)
  | servesCompletion hdue hc =>
    obtain ⟨hpending, hready⟩ := (txCauseDue_iff s).mp hdue
    obtain ⟨-, hbt, -, ht, -⟩ := h hready
    exact (onHardwareComplete_move hbt ht hpending hc :)
  | servesReception hdue hf =>
    obtain ⟨-, hready⟩ := (rxCauseDue_iff s).mp hdue
    obtain ⟨-, -, hbr, -, -⟩ := h hready
    have hm := onFrameReceived_move (by rw [hardwareReceiveWords_state]; exact hbr) hf
    rw [hardwareReceiveWords_state] at hm
    exact hm
  | dequeues hready hpending hd =>
    obtain ⟨-, -, hbr, -, hr⟩ := h hready
    exact (dequeueFrame_move hbr hr hpending hd :)
  | _ => cases hi

/-- Every step of a block that meets its invariant is a move of its queues or a new initialisation. -/
theorem step_queueStep (h : BlockInv s) (hstep : step s = .next t) : QueueStep s t := by
  obtain ⟨-, hbench, hqueues⟩ := h
  obtain ⟨i, hdue, he⟩ | ⟨hdue, ⟨-, he⟩ | ⟨op, frame, rest, i, hi, hf, he⟩ | ⟨op, frame, rest, -, -, he⟩ |
    ⟨rest, hi, he⟩ | ⟨event, rest, -, he⟩⟩ := step_cases hbench
  all_goals rw [he] at hstep
  · obtain ⟨hinit, hm⟩ := (exec_effect hstep).move (interruptDue_isQueueOperation hdue) hqueues
    exact .moves hinit hm
  · cases hstep; exact .moves rfl .none
  · obtain ⟨rfl, rfl⟩ | hq := decodeForeground_isQueueOperation hf
    · cases hstep; exact .reinitialises ⟨hdue, .inr ⟨frame, rest, hi⟩⟩ rest rfl rfl rfl
    · obtain ⟨hinit, hm⟩ := (exec_effect hstep).move hq hqueues
      exact .moves hinit hm
  · cases hstep; exact .moves rfl .none
  · cases hstep; exact .reinitialises ⟨hdue, .inl ⟨rest, hi⟩⟩ rest rfl rfl rfl
  · obtain ⟨-, hn⟩ | ⟨-, hr⟩ := envInput_cases event (takeInput s rest)
    · rw [hn] at hstep; cases hstep; exact .moves rfl .none
    · rw [hr] at hstep; cases hstep

end operations

/-- Settles O46: the stores by O49, the inputs as every step leaves them, the queues by their moves. -/
theorem stepKeepsInvariant : Obligations.StepKeepsInvariant := by
  intro s t h hstep
  have ⟨hstores, hbench, hqueues⟩ := h
  obtain ⟨hcfg, hinputs⟩ := step_cfg_inputs hstep
  refine ⟨stepKeepsStoresCanonical s t hstores hstep, fun i hi => hbench i (hinputs hi), fun hready => ?_⟩
  change QueuesInv t.cfg t.tx t.rx
  rw [hcfg]
  cases step_queueStep h hstep with
  | moves hinit hm => exact hm.keeps_inv (hqueues (hinit ▸ hready))
  | reinitialises _ rest hinit htx hrx =>
    rw [htx, hrx]
    exact queuesInv_initBlock (s := takeInput s rest) (hinit ▸ hready)

end Sys2Proof.Machine
end

section
/-! PROOF. O51: the parameters are fixed, and a `Ready` block has the capacities of its build (R7, R21). -/

namespace Sys2Proof.Machine

/-- Settles O51: the capacities are those of the parameters before and after the step, by O46. -/
theorem parametersNeverChange : Obligations.ParametersNeverChange := by
  refine ⟨fun s t hstep => (step_cfg_inputs hstep).1, fun s t h hready hstep hready' => ?_⟩
  have hinv := stepKeepsInvariant s t h hstep
  obtain ⟨-, -, hbefore⟩ := h
  obtain ⟨-, -, hafter⟩ := hinv
  obtain ⟨⟨htx, hrx⟩, -⟩ := hbefore hready
  obtain ⟨⟨htx', hrx'⟩, -⟩ := hafter hready'
  rw [htx, hrx, htx', hrx', (step_cfg_inputs hstep).1]
  exact ⟨rfl, rfl⟩

end Sys2Proof.Machine
end

section
/-! PROOF. O55: the overflow counts along the moves of the queues (R25, R152, R194). -/

namespace Sys2Proof.Machine

theorem satInc_le_succ (cntW c : Nat) : satInc cntW c ≤ c + 1 := by
  unfold satInc; split <;> omega

/-- One count is the other, or one more at most. -/
abbrev RisesByAtMostOne (before after : Nat) : Prop := before ≤ after ∧ after ≤ before + 1

theorem risesByAtMostOne_refl (c : Nat) : RisesByAtMostOne c c := ⟨le_rfl, Nat.le_succ c⟩

/-- A refusal counts once, or not at all at the maximum (R152). -/
theorem risesByAtMostOne_satInc (cntW c : Nat) : RisesByAtMostOne c (satInc cntW c) :=
  ⟨le_satInc cntW c, satInc_le_succ cntW c⟩

/-- After a completion the transmit count is what it was, or a `ResetAll` recovery has cleared it (R194). -/
theorem overflowCount_recover (cfg : Config) (r : RingBuffer) (n : Nat) :
    RisesByAtMostOne r.overflowCount (recoverOverflow cfg (popBytes n r)).overflowCount ∨
    (cfg.txOverflowPolicy = .resetAll ∧ (recoverOverflow cfg (popBytes n r)).overflowCount = 0) := by
  obtain ⟨hp, he⟩ | ⟨-, he⟩ := recoverOverflow_cases cfg (popBytes n r)
  · rw [he]; exact .inr ⟨hp, rfl⟩
  · rw [he]; exact .inl (risesByAtMostOne_refl _)

theorem QueueMove.overflowCounts {cfg : Config} {env : Env} {tx tx' : TransmitQueue} {rx rx' : ReceiveQueue}
    (hm : QueueMove cfg env tx rx tx' rx') :
    RisesByAtMostOne rx.rb.overflowCount rx'.rb.overflowCount ∧
      (RisesByAtMostOne tx.rb.overflowCount tx'.rb.overflowCount ∨
        (cfg.txOverflowPolicy = .resetAll ∧ env.txCompletePending = true ∧ tx'.rb.overflowCount = 0)) := by
  have htx := risesByAtMostOne_refl tx.rb.overflowCount
  have hrx := risesByAtMostOne_refl rx.rb.overflowCount
  cases hm with
  | none => exact ⟨hrx, .inl htx⟩
  | transmitRefused => exact ⟨hrx, .inl (risesByAtMostOne_satInc _ _)⟩
  | transmitAccepted => rw [pushBytes_overflowCount]; exact ⟨hrx, .inl htx⟩
  | completionChains hpending =>
    exact ⟨hrx, (overflowCount_recover cfg tx.rb _).imp_right fun ⟨hp, hzero⟩ => ⟨hp, hpending, hzero⟩⟩
  | completionEmpties hpending =>
    exact ⟨hrx, (overflowCount_recover cfg tx.rb _).imp_right fun ⟨hp, hzero⟩ => ⟨hp, hpending, hzero⟩⟩
  | receptionRefused => exact ⟨risesByAtMostOne_satInc _ _, .inl htx⟩
  | receptionAccepted => rw [pushBytes_overflowCount]; exact ⟨hrx, .inl htx⟩
  | dequeued => exact ⟨hrx, .inl htx⟩

/-- Settles O55: a step is a move of the queues or a new initialisation. -/
theorem overflowCountsMonotone : Obligations.OverflowCountsMonotone := by
  intro s t h _ hstep
  cases step_queueStep h hstep with
  | moves _ hm =>
    obtain ⟨⟨hle, hsucc⟩, htx⟩ := hm.overflowCounts
    exact .inr ⟨hle, hsucc, htx⟩
  | reinitialises hr => exact .inl hr

end Sys2Proof.Machine
end

section
/-! PROOF. O56: two blocks that differ in the free values of their unwritten storage bytes run alike (R26, U11). A write
reads no storage byte from any state; a read or a peek of a whole frame reads bytes that have been written. -/

namespace Sys2Proof.Machine

/-- `r` with the unwritten bytes of initialisation `e` (log entry 2). -/
def withEpoch (e : Nat) (r : RingBuffer) : RingBuffer := { r with storageEpoch := e }

/-- `s` with the unwritten bytes of initialisations `a` and `b`. -/
def withEpochs (a b : Nat) (s : State) : State :=
  { s with tx := { s.tx with rb := withEpoch a s.tx.rb }, rx := { s.rx with rb := withEpoch b s.rx.rb } }

@[simp] theorem withEpochs_cfg (a b : Nat) (s : State) : (withEpochs a b s).cfg = s.cfg := rfl
@[simp] theorem withEpochs_txRb (a b : Nat) (s : State) : (withEpochs a b s).tx.rb = withEpoch a s.tx.rb := rfl
@[simp] theorem withEpochs_txState (a b : Nat) (s : State) : (withEpochs a b s).tx.txState = s.tx.txState := rfl
@[simp] theorem withEpochs_rxRb (a b : Nat) (s : State) : (withEpochs a b s).rx.rb = withEpoch b s.rx.rb := rfl
@[simp] theorem withEpochs_pendingCount (a b : Nat) (s : State) :
    (withEpochs a b s).rx.pendingCount = s.rx.pendingCount := rfl
@[simp] theorem withEpochs_env (a b : Nat) (s : State) : (withEpochs a b s).env = s.env := rfl
@[simp] theorem withEpochs_inputs (a b : Nat) (s : State) : (withEpochs a b s).inputs = s.inputs := rfl
@[simp] theorem isReady_withEpochs (a b : Nat) (s : State) : isReady (withEpochs a b s) = isReady s := rfl
@[simp] theorem txCauseDue_withEpochs (a b : Nat) (s : State) : txCauseDue (withEpochs a b s) = txCauseDue s := rfl
@[simp] theorem rxCauseDue_withEpochs (a b : Nat) (s : State) : rxCauseDue (withEpochs a b s) = rxCauseDue s := rfl
@[simp] theorem interruptDue_withEpochs (a b : Nat) (s : State) : interruptDue (withEpochs a b s) = interruptDue s := rfl

theorem sameButUnwritten_withEpochs (a b : Nat) (s : State) : SameButUnwritten s (withEpochs a b s) := rfl

theorem eq_withEpochs_of_sameButUnwritten {s s' : State} (h : SameButUnwritten s s') :
    s' = withEpochs s'.tx.rb.storageEpoch s'.rx.rb.storageEpoch s := h

/-- The outcome is `t`, but for the free values of unwritten bytes. -/
abbrev NextButUnwritten (o : Host.Outcome State Fault Refusal) (t : State) : Prop :=
  ∃ a b, o = .next (withEpochs a b t)

section buffers

variable {e : Nat} {q : QSel} {r r1 : RingBuffer}

theorem rbWriteByte_withEpoch {cntW : Nat} {b : Byte} {st : Status} (h : rbWriteByte cntW r b = .ok (st, r1)) :
    rbWriteByte cntW (withEpoch e r) b = .ok (st, withEpoch e r1) := by
  by_cases hu : r.used = r.capacity
  · rw [rbWriteByte_full hu] at h; cases h
    exact rbWriteByte_full (r := withEpoch e r) hu b
  · by_cases ht : r.tail < r.capacity
    · rw [rbWriteByte_room hu ht] at h; cases h
      exact rbWriteByte_room (r := withEpoch e r) hu ht b
    · rw [rbWriteByte_outside _ hu (not_lt.mp ht)] at h; cases h

/-- A byte that is refused ends the whole-frame write (R137, D19). -/
theorem rbWriteFrame_of_refused {cntW : Nat} {b : Byte} {st : Status} (hst : st ≠ .ok)
    (h : rbWriteByte cntW r b = .ok (st, r1)) (bs : List Byte) : rbWriteFrame cntW r (b :: bs) = .ok (st, r1) := by
  rw [rbWriteFrame, h]
  cases st with
  | ok => exact absurd rfl hst
  | _ => rfl

theorem rbWriteFrame_withEpoch {cntW : Nat} (bs : List Byte) :
    ∀ {r r1 : RingBuffer} {st : Status}, rbWriteFrame cntW r bs = .ok (st, r1) →
      rbWriteFrame cntW (withEpoch e r) bs = .ok (st, withEpoch e r1) := by
  induction bs with
  | nil => intro r r1 st h; cases h; rfl
  | cons b bs ih =>
    intro r r1 st h
    rw [rbWriteFrame] at h
    split at h
    next hw => rw [rbWriteFrame, rbWriteByte_withEpoch hw]; exact ih h
    next hst hw => cases h; exact rbWriteFrame_of_refused hst (rbWriteByte_withEpoch hw) bs
    next => cases h

/-- Every byte of the contents has been written, so none is a free value (R26). -/
theorem contents_withEpoch (h : UsedWritten r) : contents q (withEpoch e r) = contents q r := by
  refine List.map_congr_left fun k hk => ?_
  obtain ⟨b, hb⟩ := Option.isSome_iff_exists.mp (h k (List.mem_range.mp hk))
  have hb' : storeRead (withEpoch e r).storage (((withEpoch e r).head + k) % (withEpoch e r).capacity) = some b := hb
  simp only [storageByte, hb, hb', Option.getD_some]

theorem rbPeekFrame_withEpoch (hc : CursorInv r) (hw : UsedWritten r) :
    rbPeekFrame q (withEpoch e r) = rbPeekFrame q r := by
  unfold rbPeekFrame
  rw [rbPeekMany_spec q r hc.capacity_pos, rbPeekMany_spec q (withEpoch e r) hc.capacity_pos, contents_withEpoch hw]

theorem rbReadFrame_withEpoch {b : Ser16} (hc : CursorInv r) (hw : UsedWritten r) (hu : Config.frameBytes ≤ r.used)
    (h : rbReadFrame q r = .ok (b, r1)) : rbReadFrame q (withEpoch e r) = .ok (b, withEpoch e r1) := by
  unfold rbReadFrame at h ⊢
  rw [rbReadBytes_spec q _ r hc hu] at h
  rw [rbReadBytes_spec q _ (withEpoch e r) hc hu, contents_withEpoch hw]
  dsimp only at h ⊢
  split at h
  next => cases h; rfl
  next => cases h

theorem recoverOverflow_withEpoch (cfg : Config) (e : Nat) (r : RingBuffer) :
    recoverOverflow cfg (withEpoch e r) = withEpoch e (recoverOverflow cfg r) := by
  unfold recoverOverflow
  change (if recoveryDue cfg r = true then _ else _) = _
  split <;> rfl

end buffers

theorem popBytes_withEpoch (n e : Nat) (r : RingBuffer) : popBytes n (withEpoch e r) = withEpoch e (popBytes n r) := rfl

theorem frameQueued_withEpoch (e : Nat) (r : RingBuffer) : frameQueued (withEpoch e r) = frameQueued r := rfl

section queues

variable {a b : Nat} {s t : State}

theorem enqueueFrame_withEpochs {f : CanFrame} {st : Status} (h : enqueueFrame f s = .ok (st, t)) :
    enqueueFrame f (withEpochs a b s) = .ok (st, withEpochs a b t) := by
  obtain ⟨r, hw, hcases⟩ := enqueueFrame_ok h
  have hw' := rbWriteFrame_withEpoch (e := a) _ hw
  rw [enqueueFrame, withEpochs_cfg, withEpochs_txRb, hw', withEpochs_txState]
  obtain ⟨rfl, hs, rfl⟩ | ⟨rfl, hs, rfl⟩ | ⟨hst, rfl⟩ := hcases
  · rw [hs]; rfl
  · rw [hs]; rfl
  · cases st with
    | ok => exact absurd rfl hst
    | _ => rfl

theorem onFrameReceived_withEpochs {w : WireWords} {slot : Slot} {st : Status}
    (h : onFrameReceived w slot s = .ok (st, t)) :
    onFrameReceived w slot (withEpochs a b s) = .ok (st, withEpochs a b t) := by
  obtain ⟨r, hw, hcases⟩ := onFrameReceived_ok h
  have hw' := rbWriteFrame_withEpoch (e := b) _ hw
  rw [onFrameReceived, withEpochs_cfg, withEpochs_rxRb, hw']
  obtain ⟨rfl, rfl⟩ | ⟨hst, rfl⟩ := hcases
  · rfl
  · cases st with
    | ok => exact absurd rfl hst
    | _ => rfl

/-- The chained frame is among the written bytes; the bytes of the frame that leaves are not used (R140, R193). -/
theorem onHardwareComplete_withEpochs {st : Status} (hb : BufferInv s.cfg.cntW s.tx.rb) (ht : TransmitInv s.cfg s.tx)
    (h : onHardwareComplete s = .ok (st, t)) :
    onHardwareComplete (withEpochs a b s) = .ok (st, withEpochs a b t) := by
  rw [onHardwareComplete, withEpochs_txState]
  obtain ⟨hi, rfl, rfl⟩ | ⟨hs, rfl, r, hd, hcases⟩ := onHardwareComplete_ok h
  · rw [hi]
  · have hin := ht.2.1 hs
    rw [rbDropFrame_spec .tx _ hb.1 hin] at hd
    cases hd
    obtain ⟨hc, -, hw, -⟩ := (hb.pop hin).recover s.cfg
    have hd' := rbDropFrame_spec .tx (withEpoch a s.tx.rb) hb.1 hin
    have hr' := recoverOverflow_withEpoch s.cfg a (popBytes Config.frameBytes s.tx.rb)
    have hp' := rbPeekFrame_withEpoch (e := a) (q := .tx) hc hw
    simp only [hs, withEpochs_txRb, withEpochs_cfg, hd', popBytes_withEpoch, hr', frameQueued_withEpoch, hp']
    obtain ⟨hq, f, hp, rfl⟩ | ⟨hq, rfl⟩ := hcases
    · rw [if_pos hq, hp]; rfl
    · rw [hq]; rfl

theorem dequeueFrame_withEpochs {f : CanFrame} (hb : BufferInv s.cfg.cntW s.rx.rb) (hr : ReceiveInv s.rx)
    (hpending : s.rx.pendingCount ≠ 0) (h : dequeueFrame s = .ok (f, t)) :
    dequeueFrame (withEpochs a b s) = .ok (f, withEpochs a b t) := by
  obtain ⟨c, r, hread, rfl, rfl⟩ := dequeueFrame_ok h
  obtain ⟨hc, -, hw, -⟩ := hb
  have hu : Config.frameBytes ≤ s.rx.rb.used := by
    rw [hr]; exact Nat.le_mul_of_pos_left _ (Nat.pos_of_ne_zero hpending)
  rw [dequeueFrame, withEpochs_rxRb, rbReadFrame_withEpoch hc hw hu hread]
  rfl

theorem hardwareReceiveWords_withEpochs (slot : Slot) :
    hardwareReceiveWords slot (withEpochs a b s) =
      ((hardwareReceiveWords slot s).1, withEpochs a b (hardwareReceiveWords slot s).2) := by
  unfold hardwareReceiveWords
  rw [withEpochs_env]
  cases completedWords s.env slot <;> rfl

/-- An initialisation counts one more initialisation of each storage, whatever the number before (log entry 2). -/
theorem initBlock_withEpochs (a b : Nat) (s : State) :
    initBlock (withEpochs a b s) = ((initBlock s).1, withEpochs (a + 1) (b + 1) (initBlock s).2) := by
  obtain ⟨htx, hrx, h⟩ | ⟨hl, h⟩ := initBlock_cases s
  · obtain ⟨-, -, h'⟩ | ⟨hl, -⟩ := initBlock_cases (withEpochs a b s)
    · rw [h, h']; rfl
    · exact absurd ⟨htx, hrx⟩ hl
  · obtain ⟨htx, hrx, -⟩ | ⟨-, h'⟩ := initBlock_cases (withEpochs a b s)
    · exact absurd ⟨htx, hrx⟩ hl
    · rw [h, h']; rfl

theorem resetInput_withEpochs (a b : Nat) (s : State) :
    resetInput (withEpochs a b s) = withEpochs (a + 1) (b + 1) (resetInput s) := by
  rw [resetInput, initBlock_withEpochs]; rfl

theorem execSysInit_withEpochs (a b : Nat) (s : State) :
    execSysInit (withEpochs a b s) = .next (withEpochs (a + 1) (b + 1) (respond (initBlock s).2 (initBlock s).1 .none)) := by
  rw [execSysInit, initBlock_withEpochs]; rfl

end queues

section steps

variable {s t : State}

theorem execTxEnqueue_withEpochs {f : CanFrame} (h : execTxEnqueue f s = .next t) (a b : Nat) :
    execTxEnqueue f (withEpochs a b s) = .next (withEpochs a b t) := by
  unfold execTxEnqueue at h ⊢
  rw [isReady_withEpochs, withEpochs_cfg]
  split at h
  next hr =>
    obtain ⟨st, s1, he, rfl⟩ := finishStatus_eq_next h
    rw [if_pos hr, enqueueFrame_withEpochs he]
    rfl
  next hr => cases h; rw [if_neg hr]; rfl

/-- The three operations that answer with a counter when `Ready` (R200, R223, R224). -/
theorem countAnswer_withEpochs {n : Nat}
    (h : (if isReady s then .next (respondCount s n) else .next (respond s .notInitialised .none) :
      Host.Outcome State Fault Refusal) = .next t) (a b : Nat) :
    (if isReady s then .next (respondCount (withEpochs a b s) n)
      else .next (respond (withEpochs a b s) .notInitialised .none) : Host.Outcome State Fault Refusal) =
      .next (withEpochs a b t) := by
  split at h
  next hr => cases h; rw [if_pos hr]; rfl
  next hr => cases h; rw [if_neg hr]; rfl

theorem execRxDequeue_withEpochs (hqueues : s.initState = .ready → QueuesInv s.cfg s.tx s.rx)
    (h : execRxDequeue s = .next t) (a b : Nat) : execRxDequeue (withEpochs a b s) = .next (withEpochs a b t) := by
  unfold execRxDequeue at h ⊢
  rw [isReady_withEpochs, withEpochs_pendingCount]
  split at h
  next hr =>
    rw [if_pos hr]
    split at h
    next hp => cases h; rw [if_pos hp]; rfl
    next hp =>
      rw [if_neg hp]
      split at h
      next hd =>
        obtain ⟨-, -, hbr, -, hrx⟩ := hqueues ((isReady_iff s).mp hr)
        cases h
        rw [dequeueFrame_withEpochs hbr hrx hp hd]
        rfl
      next => exact absurd h (stopOutcome_ne_next _ _)
  next hr => cases h; rw [if_neg hr]; rfl

theorem execIaTxIrq_withEpochs {slot : Slot} (hqueues : s.initState = .ready → QueuesInv s.cfg s.tx s.rx)
    (h : execIaTxIrq slot s = .next t) (a b : Nat) :
    execIaTxIrq slot (withEpochs a b s) = .next (withEpochs a b t) := by
  unfold execIaTxIrq at h ⊢
  rw [txCauseDue_withEpochs]
  split at h
  next hdue =>
    rw [if_pos hdue]
    split at h
    next hc =>
      obtain ⟨-, hready⟩ := (txCauseDue_iff s).mp hdue
      obtain ⟨-, hbt, -, ht, -⟩ := hqueues hready
      cases h
      rw [onHardwareComplete_withEpochs hbt ht hc]
      rfl
    next => exact absurd h (stopOutcome_ne_next _ _)
  next hdue => cases h; rw [if_neg hdue]

theorem execIaRxIrq_withEpochs {slot : Slot} (h : execIaRxIrq slot s = .next t) (a b : Nat) :
    execIaRxIrq slot (withEpochs a b s) = .next (withEpochs a b t) := by
  unfold execIaRxIrq at h ⊢
  rw [rxCauseDue_withEpochs, withEpochs_cfg, hardwareReceiveWords_withEpochs]
  split at h
  next hdue =>
    rw [if_pos hdue]
    split at h
    next hf => cases h; rw [onFrameReceived_withEpochs hf]; rfl
    next => exact absurd h (stopOutcome_ne_next _ _)
  next hdue => cases h; rw [if_neg hdue]

/-- The five operations of the foreground port other than `SYS.INIT`, and the two adapter operations. -/
theorem exec_withEpochs {i : Instr} (hi : isQueueOperation i = true)
    (hqueues : s.initState = .ready → QueuesInv s.cfg s.tx s.rx) (h : exec i s = .next t) (a b : Nat) :
    exec i (withEpochs a b s) = .next (withEpochs a b t) := by
  cases i with
  | txEnqueue f => exact execTxEnqueue_withEpochs h a b
  | txOverflowCount => exact countAnswer_withEpochs h a b
  | rxDequeue => exact execRxDequeue_withEpochs hqueues h a b
  | rxPendingCount => exact countAnswer_withEpochs h a b
  | rxOverflowCount => exact countAnswer_withEpochs h a b
  | iaTxIrq slot => exact execIaTxIrq_withEpochs (slot := slot) hqueues h a b
  | iaRxIrq slot => exact execIaRxIrq_withEpochs h a b
  | _ => cases hi

/-- Which operation is next does not depend on the storages (R78). -/
theorem nextOperation_withEpochs (a b : Nat) (s : State) :
    nextOperation (withEpochs a b s) = (nextOperation s).map fun p => (p.1, withEpochs a b p.2) := by
  unfold nextOperation
  rw [interruptDue_withEpochs, withEpochs_inputs]
  cases interruptDue s with
  | some i => rfl
  | none =>
    match s.inputs with
    | [] | .reset :: _ | .env _ :: _ => rfl
    | .foreground op frame :: rest =>
      dsimp only
      cases decodeForeground op frame <;> rfl
    | .bench format bytes :: rest =>
      dsimp only
      cases decode format bytes <;> rfl

/-- What stands on the inputs and is no operation reads no storage byte (R244, R300). -/
theorem otherInput_withEpochs (h : otherInput s = .next t) (a b : Nat) :
    NextButUnwritten (otherInput (withEpochs a b s)) t := by
  unfold otherInput at h ⊢
  rw [withEpochs_inputs]
  split at h
  next => cases h; exact ⟨a, b, rfl⟩
  next => cases h; exact ⟨a, b, rfl⟩
  next format bytes rest _ =>
    unfold benchInput at h ⊢
    split at h
    next => cases h; exact ⟨a, b, rfl⟩
    next => cases h
  next rest _ =>
    cases h
    exact ⟨a + 1, b + 1, congrArg _ (resetInput_withEpochs a b (takeInput s rest))⟩
  next event rest _ =>
    obtain ⟨hs, hn⟩ | ⟨-, hr⟩ := envInput_cases event (takeInput s rest)
    · rw [hn] at h; cases h
      exact ⟨a, b, if_pos hs⟩
    · rw [hr] at h; cases h

end steps

/-- Settles O56: the other block runs the same operation or takes the same input, and every operation of the block's own
ports reads written bytes only. -/
theorem unwrittenBytesNeverObserved : Obligations.UnwrittenBytesNeverObserved := by
  intro s s' t h hsame hstep
  obtain ⟨-, hbench, hqueues⟩ := h
  rw [eq_withEpochs_of_sameButUnwritten hsame]
  suffices hnext : ∀ a b, NextButUnwritten (step (withEpochs a b s)) t by
    obtain ⟨a, b, ht⟩ := hnext s'.tx.rb.storageEpoch s'.rx.rb.storageEpoch
    exact ⟨_, ht, sameButUnwritten_withEpochs a b t⟩
  intro a b
  have hnext := nextOperation_withEpochs a b s
  match hn : nextOperation s with
  | some (i, s1) =>
    rw [hn] at hnext
    rw [step_of_operation hn] at hstep
    rw [step_of_operation hnext]
    obtain ⟨rest, rfl⟩ := nextOperation_state hn
    obtain rfl | hi := nextOperation_isQueueOperation hbench hn
    · cases hstep; exact ⟨a + 1, b + 1, execSysInit_withEpochs a b (takeInput s rest)⟩
    · exact ⟨a, b, exec_withEpochs (s := takeInput s rest) hi hqueues hstep a b⟩
  | none =>
    rw [hn] at hnext
    rw [step_of_none hn] at hstep
    rw [step_of_none hnext]
    exact otherInput_withEpochs hstep a b

end Sys2Proof.Machine
end

section
/-! PROOF. O40: the operation a step runs, where one is due and where one is decoded from the inputs (R13, R78). -/

namespace Sys2Proof.Machine

variable {s : State} {rest : List Input} {i : Instr}

/-- A due cause comes before whatever stands on the inputs, and takes none of it (R273, log entry 4). -/
theorem nextOperation_of_interruptDue (hd : interruptDue s = some i) : nextOperation s = some (i, s) := by
  simp only [nextOperation, hd]

/-- The foreground port's operation, where no cause is due (R112). -/
theorem nextOperation_of_foreground {op : Byte} {frame : Ser16} (hd : interruptDue s = none)
    (hi : s.inputs = .foreground op frame :: rest) (hf : decodeForeground op frame = some i) :
    nextOperation s = some (i, takeInput s rest) := by
  simp only [nextOperation, hd, hi, hf, Option.map_some]

/-- The test bench's operation, where no cause is due; the bytes left over do not matter (R113). -/
theorem nextOperation_of_bench {format : Format} {bytes left : List Byte} (hd : interruptDue s = none)
    (hi : s.inputs = .bench format bytes :: rest) (hb : decode format bytes = .ok (i, left)) :
    nextOperation s = some (i, takeInput s rest) := by
  simp only [nextOperation, hd, hi, hb]

/-- Settles O40: in each case it is the next operation, which is what a step runs. -/
theorem stepRunsDecodedOperation : Obligations.StepRunsDecodedOperation := by
  refine ⟨?due, ?foreground, ?bench⟩
  case due =>
    intro s i hd
    exact step_of_operation (nextOperation_of_interruptDue hd)
  case foreground =>
    intro s op frame rest i hd hi hf
    exact step_of_operation (nextOperation_of_foreground hd hi hf)
  case bench =>
    intro s format bytes rest i left hd hi hb
    exact step_of_operation (nextOperation_of_bench hd hi hb)

end Sys2Proof.Machine
end

section
/-! PROOF. O57, O59, O58 and O60: the decoder read against the encoder, against the codes R111 leaves unassigned, and
against words and table rows of the spec (R97, R98, R111, R113). -/

namespace Sys2Proof

/-- Settles O57: one round trip per operation. -/
theorem decodeEncodeRoundTrip : Obligations.DecodeEncodeRoundTrip := by
  intro i
  cases i with
  | sysInit => exact Laws.RoundTrip.sysInit
  | rbInit q capacity => exact Laws.RoundTrip.rbInit q capacity
  | rbWriteByte q b => exact Laws.RoundTrip.rbWriteByte q b
  | rbReadByte q => exact Laws.RoundTrip.rbReadByte q
  | rbPeekMany q n => exact Laws.RoundTrip.rbPeekMany q n
  | rbReset q => exact Laws.RoundTrip.rbReset q
  | fcEncode f => exact Laws.RoundTrip.fcEncode f
  | fcDecode w slot => exact Laws.RoundTrip.fcDecode w slot
  | fcSerialize f => exact Laws.RoundTrip.fcSerialize f
  | fcDeserialize b => exact Laws.RoundTrip.fcDeserialize b
  | txEnqueue f => exact Laws.RoundTrip.txEnqueue f
  | txOnComplete => exact Laws.RoundTrip.txOnComplete
  | txOverflowCount => exact Laws.RoundTrip.txOverflowCount
  | rxOnFrame w slot => exact Laws.RoundTrip.rxOnFrame w slot
  | rxDequeue => exact Laws.RoundTrip.rxDequeue
  | rxPendingCount => exact Laws.RoundTrip.rxPendingCount
  | rxOverflowCount => exact Laws.RoundTrip.rxOverflowCount
  | iaTxIrq slot => exact Laws.RoundTrip.iaTxIrq slot
  | iaRxIrq slot => exact Laws.RoundTrip.iaRxIrq slot
  | hwTransmit slot w => exact Laws.RoundTrip.hwTransmit slot w
  | hwReceiveWords slot => exact Laws.RoundTrip.hwReceiveWords slot
  | wireStdData sid dlc d slot => exact Laws.RoundTrip.wireStdData sid dlc d slot
  | wireStdRtr sid dlc d slot => exact Laws.RoundTrip.wireStdRtr sid dlc d slot
  | wireExtData sid mid low dlc d slot => exact Laws.RoundTrip.wireExtData sid mid low dlc d slot
  | wireExtRtr sid mid low dlc d slot => exact Laws.RoundTrip.wireExtRtr sid mid low dlc d slot

/-- Settles O59: the decoder's match has an arm for each assigned code, so an unassigned code reaches its last arm. -/
theorem unassignedCodesRejected : Obligations.UnassignedCodesRejected := by
  intro code bs hcode
  simp only [List.mem_cons, List.not_mem_nil, or_false, not_or, ← BitVec.toNat_inj] at hcode
  simp only [decode, decodeOp]
  split
  case h_22 => rfl
  all_goals next hassigned => simp [hassigned] at hcode

/-- Settles O58: each conjunct computes the decoder on the spec's bytes. -/
theorem specWordsDecode : Obligations.SpecWordsDecode :=
  ⟨rfl, rfl, rfl, rfl, rfl, rfl, rfl⟩

/-- Settles O60: the `OP` rows at eight bits, then the `WIRE7` rows at sixteen. -/
theorem tableRowsDecode : Obligations.TableRowsDecode :=
  ⟨rfl, rfl⟩

end Sys2Proof
end

section
/-! PROOF. O16: the 128 port bits of a serialized frame are the fields of R98, one after the other. -/

namespace Sys2Proof

theorem getLsbD_frameKindBit (k : FrameKind) : (frameKindBit k).getLsbD 0 = decide (k = .extended) := by
  cases k <;> rfl

theorem getLsbD_payloadKindBit (k : PayloadKind) : (payloadKindBit k).getLsbD 0 = decide (k = .remoteRequest) := by
  cases k <;> rfl

/-- An identifier is its four bytes, the highest of five bits (R61). -/
theorem identifier_eq_append (x : BitVec 29) :
    x = x.extractLsb' 24 5 ++ x.extractLsb' 16 8 ++ x.extractLsb' 8 8 ++ x.extractLsb' 0 8 := by
  have h16 : x.extractLsb' 24 5 ++ x.extractLsb' 16 8 = x.extractLsb' 16 13 :=
    BitVec.extractLsb'_append_extractLsb'_eq_extractLsb' rfl
  have h8 : x.extractLsb' 16 13 ++ x.extractLsb' 8 8 = x.extractLsb' 8 21 :=
    BitVec.extractLsb'_append_extractLsb'_eq_extractLsb' rfl
  have h0 : x.extractLsb' 8 21 ++ x.extractLsb' 0 8 = x.extractLsb' 0 29 :=
    BitVec.extractLsb'_append_extractLsb'_eq_extractLsb' rfl
  rw [h16, h8, h0, BitVec.extractLsb'_eq_self]

/-- The layout of R98 with its padding (R99), the highest bits first. -/
theorem ser16Port_serializeFrame (f : CanFrame) :
    ser16Port (serializeFrame f) =
      0#4 ++ f.validLength ++
        (f.data.b7 ++ f.data.b6 ++ f.data.b5 ++ f.data.b4 ++ f.data.b3 ++ f.data.b2 ++ f.data.b1 ++ f.data.b0) ++
        0#7 ++ frameKindBit f.frameKind ++ 0#7 ++ payloadKindBit f.payloadKind ++ f.hardwareSlot ++ 0#3 ++
        f.identifier := by
  conv_rhs => rw [identifier_eq_append f.identifier]
  apply BitVec.eq_of_toNat_eq
  rw [ser16Port, BitVec.toNat_append, BitVec.toNat_append]
  simp only [serializeFrame, BitVec.toNat_append, Nat.shiftLeft_or_distrib, ← Nat.shiftLeft_add, Nat.or_assoc]
  simp [-BitVec.toNat_setWidth, BitVec.toNat_setWidth_of_le]

end Sys2Proof

namespace Sys2Proof.Machine

/-- Settles O16: each group of bits is a field of the layout, found by skipping the fields below it. -/
theorem serializeLayout : Obligations.SerializeLayout := by
  intro f s
  refine ⟨serializeFrame (fitFrame s.cfg f), rfl, ?_⟩
  rw [ser16Port_serializeFrame]
  refine ⟨?identifier, ?above28, ?slot, ?payloadKind, ?above40, ?frameKind, ?above48, ?data, ?length, ?above123⟩
  case identifier => exact BitVec.extractLsb'_append_eq_right
  case above28 | slot | above40 | above48 | data | length =>
    simp (disch := omega) only [BitVec.extractLsb'_append_eq_of_le]
    exact BitVec.extractLsb'_append_eq_right
  case above123 =>
    simp (disch := omega) only [BitVec.extractLsb'_append_eq_of_le]
    rfl
  case payloadKind =>
    rw [← getLsbD_payloadKindBit]
    simp only [BitVec.getLsbD_append]
    rfl
  case frameKind =>
    rw [← getLsbD_frameKindBit]
    simp only [BitVec.getLsbD_append]
    rfl

end Sys2Proof.Machine
end

section
/-! PROOF. O20: the decode of the words that a wire class stands for (R97, R165). -/

namespace Sys2Proof

/-- The parts of an extended identifier lie side by side (R105). -/
theorem joinId_eq_append (sid : BitVec 11) (mid : BitVec 12) (low : BitVec 6) :
    joinId sid mid low = sid ++ mid ++ low := by
  ext i hi
  rw [← BitVec.getLsbD_eq_getElem, ← BitVec.getLsbD_eq_getElem, BitVec.getLsbD_append, BitVec.getLsbD_append]
  simp only [joinId, BitVec.getLsbD_or, BitVec.getLsbD_shiftLeft, BitVec.getLsbD_setWidth]
  by_cases hlow : i < 6
  · simp [hlow, hi, show i < 18 by omega]
  · rw [BitVec.getLsbD_of_ge low i (by omega)]
    by_cases hmid : i < 18
    · simp [hlow, hmid, hi, show i - 6 < 12 by omega, show i - 6 < 29 by omega]
    · simp [hlow, hmid, hi, show ¬ i - 6 < 12 by omega, show i - 18 < 29 by omega,
        BitVec.getLsbD_of_ge mid (i - 6) (by omega), Nat.sub_sub]

/-- `FC.DECODE` of packed words, field by field (R165). -/
theorem decodeFrame_packWire (ide rtr : BitVec 1) (sid : BitVec 11) (mid : BitVec 12) (low : BitVec 6) (dlc : BitVec 4)
    (d : Payload) (slot : Slot) :
    decodeFrame (packWire ide rtr sid mid low dlc d) slot =
      { frameKind := frameKindOf ide
        payloadKind := payloadKindOf rtr
        identifier := if ide = 1#1 then sid ++ mid ++ low else sid.setWidth 29
        validLength := dlc
        data := if rtr = 0#1 then d else zeroPayload
        hardwareSlot := slot } := by
  simp only [decodeFrame, wireIde_packWire, wireRtr_packWire, wireSid_packWire, wireMid_packWire, wireLow_packWire,
    wireDlc_packWire, wireData_packWire, joinId_eq_append]

end Sys2Proof

namespace Sys2Proof.Machine

theorem exec_fcDecode_packWire (ide rtr : BitVec 1) (sid : BitVec 11) (mid : BitVec 12) (low : BitVec 6) (dlc : BitVec 4)
    (d : Payload) (slot : Slot) (s : State) :
    exec (.fcDecode (packWire ide rtr sid mid low dlc d) slot) s =
      .next (respond s .ok (.frame
        ⟨if ide = 1#1 then sid ++ mid ++ low else sid.setWidth 29, frameKindOf ide, payloadKindOf rtr,
          if rtr = 0#1 then d else zeroPayload, dlc, fitSlot s.cfg slot⟩)) := by
  simp only [exec, execFcDecode, decodeFrame_packWire]

/-- Settles O20: with the two flag bits of its class, the decode is the frame the class answers. -/
theorem wireClassesDecodeAsTheirWords : Obligations.WireClassesDecodeAsTheirWords := by
  intro sid mid low dlc d slot s
  simp only [exec_fcDecode_packWire]
  exact ⟨rfl, rfl, rfl, rfl, ⟨_, rfl⟩, ⟨_, rfl⟩, ⟨_, rfl⟩, ⟨_, rfl⟩⟩

end Sys2Proof.Machine
end

section
/-! PROOF. O42: a code that is not one of the six of the foreground port (R112, R118). -/

namespace Sys2Proof.Machine

theorem decodeForeground_of_notMem {op : Byte} (h : op ∉ foregroundCodes) (frame : Ser16) :
    decodeForeground op frame = none := if_neg h

/-- A code the foreground port rejects is no operation (R112). -/
theorem nextOperation_of_illegal {s : State} {op : Byte} {frame : Ser16} {rest : List Input} (hd : interruptDue s = none)
    (hi : s.inputs = .foreground op frame :: rest) (hf : decodeForeground op frame = none) : nextOperation s = none := by
  simp only [nextOperation, hd, hi, hf, Option.map_none]

/-- Settles O42: it is no operation, so the port answers it by itself. -/
theorem illegalForegroundCode : Obligations.IllegalForegroundCode := by
  intro s op frame rest hd hi hop
  rw [step_of_none (nextOperation_of_illegal hd hi (decodeForeground_of_notMem hop frame))]
  simp only [otherInput, hi]
  rfl

end Sys2Proof.Machine
end

section
/-! PROOF. O44: a table word placed by `withFetchWord` is what the next step runs. Where the word goes is decided by
`placeRequest` (R111, log entry 6): the foreground port, a cause of ENV, or the test bench. -/

namespace Sys2Proof.Machine

/-- `s` with no cause pending and one input before all others. -/
def placeInput (input : Input) (s : State) : State := { withoutCauses s with inputs := input :: s.inputs }

theorem interruptDue_placeInput (input : Input) (s : State) : interruptDue (placeInput input s) = none := rfl

/-- The three places of a request. -/
theorem placeRequest_cases (format : Format) (bytes : List Byte) (s : State) :
    (∃ code operands frame left, format = .op ∧ bytes = code :: operands ∧ code ∈ foregroundCodes ∧
      takeSer16 operands = some (frame, left) ∧
      placeRequest format bytes s = placeInput (.foreground code frame) s) ∨
    (∃ slot left, decode format bytes = .ok (.iaTxIrq slot, left) ∧ placeRequest format bytes s = placeTxCause slot s) ∨
    (∃ slot left, decode format bytes = .ok (.iaRxIrq slot, left) ∧ placeRequest format bytes s = placeRxCause slot s) ∨
    placeRequest format bytes s = placeInput (.bench format bytes) s := by
  unfold placeRequest
  split
  next code operands =>
    split
    next hcode =>
      split
      next frame left htake => exact .inl ⟨code, operands, frame, left, rfl, rfl, hcode, htake, rfl⟩
      next => exact .inr (.inr (.inr rfl))
    next =>
      split
      next slot left hdecode => exact .inr (.inl ⟨slot, left, hdecode, rfl⟩)
      next slot left hdecode => exact .inr (.inr (.inl ⟨slot, left, hdecode, rfl⟩))
      next => exact .inr (.inr (.inr rfl))
  next => exact .inr (.inr (.inr rfl))

theorem eq_append_of_takeSer16 {bs left : List Byte} {b : Ser16} (h : takeSer16 bs = some (b, left)) :
    bs = ser16Bytes b ++ left := by
  unfold takeSer16 at h
  split at h <;> cases h
  rfl

/-- On the six codes of the foreground port, its frame stands for the operand bytes (R112). -/
theorem decodeForeground_of_decodeOp {code : Byte} {operands left left' : List Byte} {frame : Ser16} {i : Instr}
    (hcode : code ∈ foregroundCodes) (htake : takeSer16 operands = some (frame, left))
    (hdecode : decodeOp (code :: operands) = .ok (i, left')) : decodeForeground code frame = some i := by
  obtain rfl := eq_append_of_takeSer16 htake
  simp only [foregroundCodes, List.mem_cons, List.not_mem_nil, or_false] at hcode
  obtain rfl | rfl | rfl | rfl | rfl | rfl := hcode <;> cases hdecode <;> rfl

/-- `IA.TX_IRQ` uses no slot (D22). -/
theorem exec_iaTxIrq_slot (a b : Slot) (s : State) : exec (.iaTxIrq a) s = exec (.iaTxIrq b) s := rfl

/-- `IA.RX_IRQ` reads the `SLOT_W` bits of its slot only (R100). -/
theorem exec_iaRxIrq_fitSlot (slot : Slot) (s : State) :
    exec (.iaRxIrq (fitSlot s.cfg slot)) s = exec (.iaRxIrq slot) s := by
  simp only [exec, execIaRxIrq, fitSlot_fitSlot]

theorem interruptDue_placeTxCause {s : State} (h : s.initState = .ready) (slot : Slot) :
    interruptDue (placeTxCause slot s) = some (.iaTxIrq (fitSlot s.cfg slot)) := by
  have htx : txCauseDue (placeTxCause slot s) = true := (txCauseDue_iff _).mpr ⟨rfl, h⟩
  rw [interruptDue, if_pos htx]
  rfl

theorem interruptDue_placeRxCause {s : State} (h : s.initState = .ready) (slot : Slot) :
    interruptDue (placeRxCause slot s) = some (.iaRxIrq (fitSlot s.cfg slot)) := by
  have htx : ¬ txCauseDue (placeRxCause slot s) = true := Bool.false_ne_true
  have hrx : rxCauseDue (placeRxCause slot s) = true := (rxCauseDue_iff _).mpr ⟨rfl, h⟩
  rw [interruptDue, if_neg htx, if_pos hrx]
  rfl

/-- A placed request is what the next step runs, in `s` as it is but for ENV's flags and slots. -/
theorem step_placeRequest {s : State} {format : Format} {bytes left : List Byte} {i : Instr} (hready : s.initState = .ready)
    (hdecode : decode format bytes = .ok (i, left)) :
    ∃ env, step (placeRequest format bytes s) = exec i { s with env := env } := by
  obtain ⟨code, operands, frame, after, rfl, rfl, hcode, htake, hplace⟩ | ⟨slot, after, htx, hplace⟩ |
    ⟨slot, after, hrx, hplace⟩ | hplace := placeRequest_cases format bytes s <;> rw [hplace]
  case inl =>
    exact ⟨_, step_of_operation (nextOperation_of_foreground (interruptDue_placeInput _ s) rfl
      (decodeForeground_of_decodeOp hcode htake hdecode))⟩
  case inr.inl =>
    cases hdecode.symm.trans htx
    refine ⟨(placeTxCause slot s).env, ?_⟩
    rw [step_of_operation (nextOperation_of_interruptDue (interruptDue_placeTxCause hready slot))]
    exact exec_iaTxIrq_slot _ slot (placeTxCause slot s)
  case inr.inr.inl =>
    cases hdecode.symm.trans hrx
    refine ⟨(placeRxCause slot s).env, ?_⟩
    rw [step_of_operation (nextOperation_of_interruptDue (interruptDue_placeRxCause hready slot))]
    exact exec_iaRxIrq_fitSlot slot (placeRxCause slot s)
  case inr.inr.inr =>
    exact ⟨_, step_of_operation (nextOperation_of_bench (interruptDue_placeInput _ s) rfl hdecode)⟩

theorem decode_of_decodeTableWord {nbits w : Nat} {i : Instr} (h : decodeTableWord nbits w = some i) :
    ∃ left, decode (tableRequest nbits w).1 (tableRequest nbits w).2 = .ok (i, left) := by
  unfold decodeTableWord at h
  split at h
  next left hdecode => cases h; exact ⟨left, hdecode⟩
  next => cases h

/-- Settles O44: a table word is a request, and placing it touches ENV and the inputs alone. -/
theorem fetchWordRunsNext : Obligations.FetchWordRunsNext := by
  intro s nbits w i hready hword
  obtain ⟨left, hdecode⟩ := decode_of_decodeTableWord hword
  obtain ⟨env, hstep⟩ := step_placeRequest hready hdecode
  exact ⟨_, hstep, rfl, rfl, rfl, rfl, rfl, rfl, rfl⟩

end Sys2Proof.Machine
end

section
/-! PROOF. O4, O5, O6, O7, O8: the five RingBuffer operations as requests (R130 to R135). Each answers, and of the rest of
the state it writes the buffer `q` names alone. -/

namespace Sys2Proof.Machine

/-- Replacing the buffer `q` names, drawing free values and answering leave all else alone (R130). -/
theorem outsideBufferSame_setBuffer (s : State) (q : QSel) (r : RingBuffer) (n : Nat) (st : Status) (d : ResultData) :
    OutsideBufferSame q s (respond { setBuffer s q r with freeCount := n } st d) := by
  refine ⟨fun p hp => ?_, setBuffer_txState s q r, setBuffer_pendingCount s q r, setBuffer_initState s q r,
    setBuffer_env s q r, setBuffer_inputs s q r, setBuffer_trace s q r, setBuffer_cfg s q r⟩
  rw [← getBuffer_setBuffer_other s r hp]
  cases p <;> rfl

/-- The same of an operation that draws no free value. -/
theorem outsideBufferSame_respond (s : State) (q : QSel) (r : RingBuffer) (st : Status) (d : ResultData) :
    OutsideBufferSame q s (respond (setBuffer s q r) st d) :=
  outsideBufferSame_setBuffer s q r (setBuffer s q r).freeCount st d

theorem getBuffer_respond_setBuffer (s : State) (q : QSel) (r : RingBuffer) (st : Status) (d : ResultData) :
    getBuffer (respond (setBuffer s q r) st d) q = r := by
  rw [getBuffer_respond, getBuffer_setBuffer_same]

theorem exec_rbInit_legal {c : Nat} (h : legalCapacity c = true) (q : QSel) (s : State) :
    exec (.rbInit q c) s =
      .next (respond (setBuffer s q (emptyBuffer c ((getBuffer s q).storageEpoch + 1))) .ok .none) := by
  simp only [exec, execRbInit, rbInit, h, if_true]

theorem exec_rbInit_illegal {c : Nat} (h : ¬ legalCapacity c = true) (q : QSel) (s : State) :
    exec (.rbInit q c) s =
      .next (respond { setBuffer s q (undefinedBuffer s.freeCount 0 (getBuffer s q)) with freeCount := s.freeCount + 1 }
        .capacityError .none) := by
  simp only [exec, execRbInit, rbInit, if_neg h]

/-- Settles O4: the capacity is legal or not, and `RB.INIT` answers in both cases. -/
theorem rbInitResult : Obligations.RbInitResult := by
  intro q c s
  have hiff : legalCapacity c = true ↔ c ≠ 0 ∧ c % 16 = 0 := by rw [legalCapacity_iff, Nat.dvd_iff_mod_eq_zero]
  by_cases h : legalCapacity c = true
  · refine ⟨_, exec_rbInit_legal h q s, outsideBufferSame_respond .., fun _ => ?_, fun hc => absurd (hiff.mp h) hc⟩
    rw [getBuffer_respond_setBuffer]
    exact ⟨rfl, rfl, rfl, rfl, rfl, rfl⟩
  · exact ⟨_, exec_rbInit_illegal h q s, outsideBufferSame_setBuffer .., fun hc => absurd (hiff.mpr hc) h, fun _ => rfl⟩

theorem exec_rbWriteByte_of_ok {q : QSel} {b : Byte} {s : State} {st : Status} {r : RingBuffer}
    (h : rbWriteByte s.cfg.cntW (getBuffer s q) b = .ok (st, r)) :
    exec (.rbWriteByte q b) s = .next (respond (setBuffer s q r) st .none) := by
  simp only [exec, execRbWriteByte, h]

/-- Settles O5: a full buffer counts the refusal, any other takes the byte at `tail`. -/
theorem rbWriteByteResult : Obligations.RbWriteByteResult := by
  intro q b s
  refine ⟨fun hu => ?_, fun hu ht => ?_⟩
  · exact ⟨_, exec_rbWriteByte_of_ok (rbWriteByte_full hu b), outsideBufferSame_respond .., rfl,
      getBuffer_respond_setBuffer ..⟩
  · refine ⟨_, exec_rbWriteByte_of_ok (rbWriteByte_room hu ht b), outsideBufferSame_respond .., rfl, ?_⟩
    rw [getBuffer_respond_setBuffer]
    exact ⟨rfl, rfl, rfl, rfl, rfl, storageByte_pushByte q _ b⟩

/-- Settles O6: an empty buffer is put back as it was, any other gives the byte at `head`. -/
theorem rbReadByteResult : Obligations.RbReadByteResult := by
  intro q s
  refine ⟨fun hu => ?_, fun hu hh => ?_⟩
  · have hexec : exec (.rbReadByte q) s = .next (respond (setBuffer s q (getBuffer s q)) .empty .none) := by
      simp only [exec, execRbReadByte, rbReadByte_empty hu]
    exact ⟨_, hexec, outsideBufferSame_respond .., rfl, getBuffer_respond_setBuffer ..⟩
  · have hexec : exec (.rbReadByte q) s = .next (respond (setBuffer s q (popBytes 1 (getBuffer s q))) .ok
        (.byte (storageByte q (getBuffer s q) (getBuffer s q).head))) := by
      simp only [exec, execRbReadByte, rbReadByte_some hu hh]
    exact ⟨_, hexec, outsideBufferSame_respond .., rfl, getBuffer_respond_setBuffer ..⟩

/-- `RB.PEEK_MANY` that has no byte to give needs no storage index (R134). -/
theorem rbPeekMany_none (q : QSel) {r : RingBuffer} {n : Nat} (h : min n r.used = 0) : rbPeekMany q r n = .ok [] := by
  rw [rbPeekMany, h, peekFrom]

theorem contents_take (q : QSel) (r : RingBuffer) (n : Nat) :
    (contents q r).take n =
      (List.range (min n r.used)).map fun i => storageByte q r ((r.head + i) % r.capacity) := by
  rw [contents, ← List.map_take, List.take_range]

/-- Settles O7: the bytes peeked are the first of the contents. -/
theorem rbPeekManyResult : Obligations.RbPeekManyResult := by
  intro q n s hcap
  rw [← contents_take]
  have hpeek : rbPeekMany q (getBuffer s q) n = .ok ((contents q (getBuffer s q)).take n) := by
    by_cases h : min n (getBuffer s q).used = 0
    · rw [rbPeekMany_none q h, contents_take, h, List.range_zero, List.map_nil]
    · exact rbPeekMany_spec q _ (hcap h) n
  simp only [exec, execRbPeekMany, hpeek, respond]

/-- Settles O8: `RB.RESET` keeps the storage and the number of its initialisations, so every byte reads as before. -/
theorem rbResetResult : Obligations.RbResetResult := by
  intro q s
  refine ⟨_, rfl, outsideBufferSame_respond .., ?_⟩
  rw [getBuffer_respond_setBuffer]
  exact ⟨rfl, rfl, rfl, rfl, rfl, storageByte_congr rfl rfl q⟩

end Sys2Proof.Machine
end

section
/-! PROOF. O10, O11, O13: a peek against as many reads (R134), and the whole-frame write in a queue (R137, R154). -/

namespace Sys2Proof.Machine

/-- Settles O10: both give the first `n` bytes of the contents. -/
theorem peekThenReadAgree : Obligations.PeekThenReadAgree := by
  intro q n r h hn
  exact ⟨(contents q r).take n, popBytes n r, rbPeekMany_spec q r h.capacity_pos n, rbReadBytes_spec q n r h hn,
    by simp [hn]⟩

/-- Settles O11: a buffer of whole frames that is not full has room for one more. -/
theorem frameWriteAllOrNothing : Obligations.FrameWriteAllOrNothing := by
  intro q cntW r f h
  refine ⟨fun hu => rbWriteFrame_full hu _ _, fun hu => ?_⟩
  have hp := pushBytes_spec q (ser16Bytes f) r h.1 (h.room hu)
  exact ⟨pushBytes r (ser16Bytes f), rbWriteFrame_room _ r h.1 (h.room hu), h.push hu f, hp.contents, pushBytes_used _ r,
    pushBytes_head _ r, pushBytes_capacity _ r, pushBytes_overflowCount _ r, hp.elsewhere⟩

/-- Settles O13: the write stops at its first byte, and below its maximum the saturating count rises. -/
theorem overflowLaw : Obligations.OverflowLaw := by
  intro q cntW r f hu
  exact ⟨countRefusal cntW r, rbWriteFrame_full hu _ _, rfl, rfl, rfl, storageByte_congr rfl rfl q, fun hc => if_pos hc⟩

end Sys2Proof.Machine
end

section
/-! PROOF. O12: the FIFO law (R153). Frames written are appended to the contents, and frames read are taken from their
front, so the reads give back what the writes put in. -/

namespace Sys2Proof.Machine

theorem pushBytes_append (as bs : List Byte) : ∀ r, pushBytes r (as ++ bs) = pushBytes (pushBytes r as) bs := by
  induction as with
  | nil => intro r; rw [List.nil_append, pushBytes_nil]
  | cons a as ih => intro r; rw [List.cons_append, pushBytes_cons, pushBytes_cons, ih]

theorem popBytes_popBytes (m n : Nat) (r : RingBuffer) : popBytes n (popBytes m r) = popBytes (m + n) r := by
  simp only [popBytes, Nat.mod_add_mod, Nat.add_assoc, Nat.sub_sub]

/-- The bytes of a list of frames, in order (R98). -/
def bytesOfFrames (frames : List Ser16) : List Byte := frames.flatMap ser16Bytes

theorem bytesOfFrames_cons (f : Ser16) (frames : List Ser16) :
    bytesOfFrames (f :: frames) = ser16Bytes f ++ bytesOfFrames frames := List.flatMap_cons

theorem bytesOfFrames_length (frames : List Ser16) : (bytesOfFrames frames).length = frames.length * 16 := by
  simp [bytesOfFrames, List.length_flatMap]

/-- The bytes of a frame determine it, whatever follows them. -/
theorem ser16Bytes_append_inj {b c : Ser16} {bs cs : List Byte} (h : ser16Bytes b ++ bs = ser16Bytes c ++ cs) :
    b = c ∧ bs = cs := by
  have ht := congrArg takeSer16 h
  rw [takeSer16_ser16Bytes, takeSer16_ser16Bytes] at ht
  exact Prod.mk.inj (Option.some.inj ht)

/-- Whole-frame writes that all fit store the bytes of the frames one after the other (R137). -/
theorem writeFrames_room {cntW : Nat} (frames : List Ser16) :
    ∀ r, CursorInv r → r.used + frames.length * 16 ≤ r.capacity →
      writeFrames cntW r frames = some (pushBytes r (bytesOfFrames frames)) := by
  induction frames with
  | nil => intro r _ _; exact congrArg some (pushBytes_nil r).symm
  | cons f frames ih =>
    intro r h hroom
    rw [List.length_cons] at hroom
    have hfit : r.used + (ser16Bytes f).length ≤ r.capacity := by rw [ser16Bytes_length]; omega
    rw [writeFrames, rbWriteFrame_room _ r h hfit, bytesOfFrames_cons, pushBytes_append]
    refine ih _ (pushBytes_spec .tx _ r h hfit).cursors ?_
    rw [pushBytes_used, ser16Bytes_length, pushBytes_capacity]
    omega

/-- Whole-frame reads of a buffer that begins with some frames give these frames and take them (R138). -/
theorem readFrames_of_contents {q : QSel} {rest : List Byte} (frames : List Ser16) :
    ∀ r, CursorInv r → contents q r = bytesOfFrames frames ++ rest →
      readFrames q frames.length r = some (frames, popBytes (frames.length * 16) r) := by
  induction frames with
  | nil => intro r h _; rw [List.length_nil, Nat.zero_mul, popBytes_zero h.2.1, readFrames]
  | cons f frames ih =>
    intro r h hcontents
    rw [bytesOfFrames_cons, List.append_assoc] at hcontents
    have hused : Config.frameBytes ≤ r.used := by
      rw [← contents_length q r, hcontents, List.length_append, ser16Bytes_length]
      exact Nat.le_add_right ..
    obtain ⟨b, hread, hb⟩ := rbReadFrame_spec q r h hused
    obtain ⟨rfl, hrest⟩ := ser16Bytes_append_inj (hb.symm.trans hcontents)
    rw [List.length_cons, readFrames, hread]
    simp only [ih _ (h.pop hused) hrest, Option.map_some, popBytes_popBytes]
    rw [Nat.succ_mul, Nat.add_comm Config.frameBytes]

/-- Settles O12: the contents after the writes are the bytes of the frames, and the reads take them all. -/
theorem fifoLaw : Obligations.FifoLaw := by
  intro q cntW r frames hinv hempty hfit
  have hroom : r.used + frames.length * 16 ≤ r.capacity := by omega
  have hp := pushBytes_spec q (bytesOfFrames frames) r hinv.1 (by rwa [bytesOfFrames_length])
  have hused : (pushBytes r (bytesOfFrames frames)).used = frames.length * 16 := by
    rw [pushBytes_used, hempty, bytesOfFrames_length, Nat.zero_add]
  have hcontents : contents q (pushBytes r (bytesOfFrames frames)) = bytesOfFrames frames ++ [] := by
    rw [hp.contents, List.length_eq_zero_iff.mp ((contents_length q r).trans hempty), List.nil_append, List.append_nil]
  refine ⟨_, _, writeFrames_room frames r hinv.1 hroom, readFrames_of_contents frames _ hp.cursors hcontents, ?_, ?_, ?_⟩
  · rw [popBytes_used, hused, Nat.sub_self]
  · rw [popBytes_head, pushBytes_head, pushBytes_capacity]
  · rw [popBytes_tail, popBytes_head, hp.cursors.2.2, hused]

end Sys2Proof.Machine
end

section
/-! PROOF. O18, O14: what `FC.ENCODE` writes, each word as its fields side by side (R91, R161), and what decoding these
words gives back (R172). -/

namespace Sys2Proof

/-! The kinds and their bits (R92, R93). -/

theorem frameKindBit_eq_one (k : FrameKind) : frameKindBit k = 1#1 ↔ k = .extended := by cases k <;> decide

theorem payloadKindBit_eq_zero (k : PayloadKind) : payloadKindBit k = 0#1 ↔ k = .data := by cases k <;> decide

/-! The words of the field table, the highest bits first (R91). -/

theorem packLane_eq_append (lo hi : Byte) : packLane lo hi = hi ++ lo := by
  rw [← BitVec.setWidth_eq (hi ++ lo), BitVec.setWidth_append_eq_shiftLeft_setWidth_or, BitVec.or_comm, packLane]

section packWire

variable (ide rtr : BitVec 1) (sid : BitVec 11) (mid : BitVec 12) (low : BitVec 6) (dlc : BitVec 4) (d : Payload)

theorem packWire_w0 : (packWire ide rtr sid mid low dlc d).w0 = 0#3 ++ sid ++ rtr ++ ide := by
  rw [← BitVec.setWidth_eq (0#3 ++ sid ++ rtr ++ ide), BitVec.setWidth_append_append_append_eq_shiftLeft_setWidth_or]
  simp [packWire]

theorem packWire_w1 : (packWire ide rtr sid mid low dlc d).w1 = 0#4 ++ mid := by
  rw [← BitVec.setWidth_eq (0#4 ++ mid), BitVec.setWidth_append_eq_shiftLeft_setWidth_or]
  simp [packWire]

theorem packWire_w2 : (packWire ide rtr sid mid low dlc d).w2 = low ++ rtr ++ 0#5 ++ dlc := by
  rw [← BitVec.setWidth_eq (low ++ rtr ++ 0#5 ++ dlc), BitVec.setWidth_append_append_append_eq_shiftLeft_setWidth_or]
  simp [packWire]

end packWire

/-- `FC.ENCODE` packs the fields of both frame kinds; a Standard frame has no middle and no low part (R161). -/
theorem encodeFrame_eq_packWire (f : CanFrame) :
    encodeFrame f = packWire (frameKindBit f.frameKind) (payloadKindBit f.payloadKind)
      (if f.frameKind = .extended then f.identifier.extractLsb' 18 11 else f.identifier.extractLsb' 0 11)
      (if f.frameKind = .extended then f.identifier.extractLsb' 6 12 else 0)
      (if f.frameKind = .extended then f.identifier.extractLsb' 0 6 else 0) f.validLength f.data := by
  obtain ⟨id, kind, payloadKind, data, length, slot⟩ := f
  cases kind <;> rfl

/-- An extended identifier is its three parts (R105). -/
theorem append_identifier_parts (x : BitVec 29) :
    x.extractLsb' 18 11 ++ x.extractLsb' 6 12 ++ x.extractLsb' 0 6 = x := by
  have hhigh : x.extractLsb' 18 11 ++ x.extractLsb' 6 12 = x.extractLsb' 6 23 :=
    BitVec.extractLsb'_append_extractLsb'_eq_extractLsb' rfl
  rw [hhigh]
  exact BitVec.extractLsb'_append_extractLsb'

/-- A Standard identifier that fits is its low 11 bits (R43). -/
theorem setWidth_identifier_low {x : BitVec 29} (h : x.extractLsb' 11 18 = 0#18) :
    (x.extractLsb' 0 11).setWidth 29 = x := by
  have hx : 0#18 ++ x.extractLsb' 0 11 = x := h ▸ BitVec.extractLsb'_append_extractLsb'
  rw [BitVec.setWidth_eq_append (by decide)]
  exact hx

/-- Decoding what was encoded gives the frame back, with the data of a Data frame only and the slot given to decode
(R172). -/
theorem decodeFrame_encodeFrame {f : CanFrame} (hf : f.WellFormed) (slot : Slot) :
    decodeFrame (encodeFrame f) slot =
      { f with
        data := if f.payloadKind = .data then f.data else zeroPayload
        hardwareSlot := slot } := by
  rw [encodeFrame_eq_packWire, decodeFrame_packWire]
  simp only [frameKindOf_bit, payloadKindOf_bit, frameKindBit_eq_one, payloadKindBit_eq_zero, CanFrame.mk.injEq,
    and_true]
  cases hkind : f.frameKind with
  | extended => exact append_identifier_parts f.identifier
  | standard => exact setWidth_identifier_low (hf hkind)

end Sys2Proof

namespace Sys2Proof.Machine

/-- Settles O18: every clause is a field of the frame that comes back. -/
theorem roundTripLaw : Obligations.RoundTripLaw := by
  intro f slot hf
  rw [decodeFrame_encodeFrame hf slot]
  refine ⟨rfl, rfl, rfl, rfl, fun hdata => if_pos hdata, fun hremote => if_neg ?_, rfl⟩
  rw [hremote]
  decide

/-- Settles O14: the fields are what the packed words hold, and the words hold nothing else. -/
theorem encodePlacesEveryField : Obligations.EncodePlacesEveryField := by
  intro f s
  refine ⟨encodeFrame f, rfl, ?_⟩
  rw [encodeFrame_eq_packWire]
  refine ⟨?ide, ?rtr, wireSid_packWire .., ?w0pad, wireMid_packWire .., ?w1pad, wireDlc_packWire .., ?w2pad, ?rtrCopy,
    wireLow_packWire .., packLane_eq_append .., packLane_eq_append .., packLane_eq_append .., packLane_eq_append ..⟩
  case ide =>
    rw [packWire_w0, BitVec.getLsbD_append, ← getLsbD_frameKindBit]
    rfl
  case rtr =>
    rw [packWire_w0, ← getLsbD_payloadKindBit]
    simp only [BitVec.getLsbD_append]
    rfl
  case rtrCopy =>
    rw [packWire_w2, ← getLsbD_payloadKindBit]
    simp only [BitVec.getLsbD_append]
    rfl
  case w0pad =>
    rw [packWire_w0]
    simp (disch := omega) only [BitVec.extractLsb'_append_eq_of_le]
    rfl
  case w1pad =>
    rw [packWire_w1]
    exact BitVec.extractLsb'_append_eq_left
  case w2pad =>
    rw [packWire_w2]
    simp (disch := omega) only [BitVec.extractLsb'_append_eq_of_le]
    exact BitVec.extractLsb'_append_eq_right

end Sys2Proof.Machine
end

section
/-! PROOF. O15, O19: what `FC.DECODE` reads (R165), and what encoding it again keeps of the words (R173). -/

namespace Sys2Proof

theorem extractLsb'_one_eq_one {n : Nat} (x : BitVec n) (k : Nat) : x.extractLsb' k 1 = 1#1 ↔ x.getLsbD k = true := by
  rw [BitVec.getLsbD_eq_extractLsb', beq_iff_eq]

theorem wireIde_eq_one (w : WireWords) : wireIde w = 1#1 ↔ w.w0.getLsbD 0 = true := extractLsb'_one_eq_one w.w0 0

theorem wireRtr_eq_one (w : WireWords) : wireRtr w = 1#1 ↔ w.w0.getLsbD 1 = true := extractLsb'_one_eq_one w.w0 1

theorem wireRtr_eq_zero (w : WireWords) : wireRtr w = 0#1 ↔ ¬ w.w0.getLsbD 1 = true := by
  rw [← wireRtr_eq_one]
  generalize wireRtr w = b
  revert b
  decide

@[simp] theorem frameKindBit_kindOf (b : BitVec 1) : frameKindBit (frameKindOf b) = b := by
  revert b
  decide

@[simp] theorem payloadKindBit_kindOf (b : BitVec 1) : payloadKindBit (payloadKindOf b) = b := by
  revert b
  decide

theorem frameKindOf_eq_extended (b : BitVec 1) : frameKindOf b = .extended ↔ b = 1#1 := by
  revert b
  decide

/-- Encoding decoded words packs the fields that were read, without what a Standard or a RemoteRequest frame does not
carry (R173). -/
theorem encodeFrame_decodeFrame (w : WireWords) (slot : Slot) :
    encodeFrame (decodeFrame w slot) = packWire (wireIde w) (wireRtr w) (wireSid w)
      (if wireIde w = 1#1 then wireMid w else 0) (if wireIde w = 1#1 then wireLow w else 0) (wireDlc w)
      (if wireRtr w = 0#1 then wireData w else zeroPayload) := by
  rw [encodeFrame_eq_packWire]
  simp only [decodeFrame, frameKindBit_kindOf, payloadKindBit_kindOf, frameKindOf_eq_extended, joinId_eq_append]
  by_cases hide : wireIde w = 1#1
  · simp (disch := omega) only [if_pos hide, BitVec.extractLsb'_append_eq_of_le]
    congr 1
    · exact BitVec.extractLsb'_eq_self
    · exact BitVec.extractLsb'_append_eq_right
    · exact BitVec.extractLsb'_append_eq_right
  · simp only [if_neg hide, extract_setWidth_self _ (show 11 ≤ 29 by omega)]

/-! Seven arbitrary words as the bits of the field table, the unnamed ones too, and what a mask keeps of them (R91). -/

theorem append_w0_fields (w : WireWords) :
    w.w0.extractLsb' 13 3 ++ wireSid w ++ wireRtr w ++ wireIde w = w.w0 := by
  simp (disch := exact rfl) only [wireSid, wireRtr, wireIde, BitVec.extractLsb'_append_extractLsb'_eq_extractLsb']
  exact BitVec.extractLsb'_eq_self

theorem append_w2_fields (w : WireWords) :
    wireLow w ++ w.w2.extractLsb' 9 1 ++ w.w2.extractLsb' 4 5 ++ wireDlc w = w.w2 := by
  simp (disch := exact rfl) only [wireLow, wireDlc, BitVec.extractLsb'_append_extractLsb'_eq_extractLsb']
  exact BitVec.extractLsb'_eq_self

theorem w0_and_mask (w : WireWords) : w.w0 &&& 0x1FFF = 0#3 ++ wireSid w ++ wireRtr w ++ wireIde w := by
  have hmask : (0x1FFF : Word) = 0#3 ++ BitVec.allOnes 11 ++ BitVec.allOnes 1 ++ BitVec.allOnes 1 := rfl
  rw [← append_w0_fields, hmask, BitVec.and_append]
  simp only [BitVec.and_append, BitVec.and_allOnes, BitVec.and_zero]

theorem w1_and_mask (w : WireWords) : w.w1 &&& 0x0FFF = 0#4 ++ wireMid w :=
  BitVec.and_setWidth_allOnes 4 12 w.w1

theorem w2_and_extended_mask (w : WireWords) : w.w2 &&& 0xFC0F = wireLow w ++ 0#1 ++ 0#5 ++ wireDlc w := by
  have hmask : (0xFC0F : Word) = BitVec.allOnes 6 ++ 0#1 ++ 0#5 ++ BitVec.allOnes 4 := rfl
  rw [← append_w2_fields, hmask, BitVec.and_append]
  simp only [BitVec.and_append, BitVec.and_allOnes, BitVec.and_zero]

theorem w2_and_standard_mask (w : WireWords) : w.w2 &&& 0x000F = 0#6 ++ 0#1 ++ 0#5 ++ wireDlc w := by
  have hmask : (0x000F : Word) = 0#6 ++ 0#1 ++ 0#5 ++ BitVec.allOnes 4 := rfl
  rw [← append_w2_fields, hmask, BitVec.and_append]
  simp only [BitVec.and_append, BitVec.and_allOnes, BitVec.and_zero]

/-- The remote-request flag in word 2 is bit 9 (R162). -/
theorem append_remoteFlag (low : BitVec 6) (rtr : BitVec 1) (dlc : BitVec 4) :
    low ++ rtr ++ 0#5 ++ dlc = (low ++ 0#1 ++ 0#5 ++ dlc) ||| (if rtr = 1#1 then 0x0200 else 0) := by
  have hflag : (if rtr = 1#1 then 0x0200 else 0 : Word) = 0#6 ++ rtr ++ 0#5 ++ 0#4 := by
    revert rtr
    decide
  rw [hflag, BitVec.or_append]
  simp only [BitVec.or_append, BitVec.or_zero, BitVec.zero_or]

end Sys2Proof

namespace Sys2Proof.Machine

/-- Settles O15: the flags are read as bits, the identifier of an Extended frame as its three parts. -/
theorem decodeReadsTheWords : Obligations.DecodeReadsTheWords := by
  intro w slot s
  simp only [exec, execFcDecode, respond, decodeFrame, frameKindOf, payloadKindOf, joinId_eq_append,
    wireIde_eq_one, wireRtr_eq_one, wireRtr_eq_zero, ite_not]
  rfl

/-- Settles O19: the fields read are packed again; a Data frame's words lose nothing. -/
theorem reencodeNormalises : Obligations.ReencodeNormalises := by
  refine ⟨?normalises, ?fixedPoints⟩
  case normalises =>
    intro w slot
    rw [encodeFrame_decodeFrame]
    simp only [← wireIde_eq_one, ← wireRtr_eq_one]
    refine ⟨?w0, ?w1, ?w2, fun hremote => ?remote, fun hdata => ?data⟩
    case w0 => rw [packWire_w0, w0_and_mask]
    case w1 =>
      rw [packWire_w1, w1_and_mask]
      split <;> rfl
    case w2 =>
      rw [packWire_w2, append_remoteFlag, w2_and_extended_mask, w2_and_standard_mask]
      split <;> rfl
    case remote =>
      have hne : ¬ wireRtr w = 0#1 := by rw [hremote]; decide
      rw [if_neg hne]
      exact ⟨rfl, rfl, rfl, rfl⟩
    case data =>
      have hzero : wireRtr w = 0#1 := by rw [wireRtr_eq_zero, hdata]; decide
      rw [if_pos hzero]
      exact ⟨packLane_lanes w.w3, packLane_lanes w.w4, packLane_lanes w.w5, packLane_lanes w.w6⟩
  case fixedPoints =>
    intro f slot hdata
    rw [encodeFrame_decodeFrame, encodeFrame_eq_packWire]
    simp only [wireIde_packWire, wireRtr_packWire, wireSid_packWire, wireMid_packWire, wireLow_packWire,
      wireDlc_packWire, wireData_packWire, frameKindBit_eq_one, payloadKindBit_eq_zero, if_pos hdata]
    cases f.frameKind <;> rfl

end Sys2Proof.Machine
end

section
/-! PROOF. O17: `FC.DESERIALIZE` against the 128 port bits (R171), and after `FC.SERIALIZE`. -/

namespace Sys2Proof

/-- The identifier is in the low four bytes of a serialized frame (R98). -/
theorem extractLsb'_ser16Port_identifier (b : Ser16) :
    (ser16Port b).extractLsb' 0 29 = (b.b3 ++ b.b2 ++ b.b1 ++ b.b0).extractLsb' 0 29 := by
  ext i hi
  simp only [BitVec.getElem_extractLsb', ser16Port, BitVec.getLsbD_append, Nat.zero_add,
    show i - 8 - 8 - 8 < 8 by omega, ↓reduceIte]

end Sys2Proof

namespace Sys2Proof.Machine

/-- Settles O17: each field is read from its byte, and the fields of a serialized frame are those of the frame. -/
theorem deserializeInvertsSerialize : Obligations.DeserializeInvertsSerialize := by
  refine ⟨?reads, deserializeFrame_serializeFrame, ?undoes⟩
  case reads =>
    intro b s
    refine ⟨fitFrame s.cfg (deserializeFrame b), rfl, ?identifier, rfl, ?payloadKind, ?frameKind, rfl, rfl⟩
    case identifier => exact (extractLsb'_ser16Port_identifier b).symm
    case payloadKind => simp only [fitFrame_payloadKind, deserializeFrame, payloadKindOf, extractLsb'_one_eq_one]
    case frameKind => simp only [fitFrame_frameKind, deserializeFrame, frameKindOf, extractLsb'_one_eq_one]
  case undoes =>
    intro f s
    simp only [exec, execFcDeserialize, deserializeFrame_serializeFrame, respond]

end Sys2Proof.Machine
end

section
/-! PROOF. O48, O53: what is in flight. The step's moves of the transmit side are read off what each operation does; each
keeps "`Sending` is exactly one outstanding call or its unprocessed completion" (R190, R198). -/

namespace Sys2Proof.Machine

/-- What R198 speaks of: the two states of the block, ENV's debt and its report, and the number of calls made. -/
structure FlightView where
  initState : InitState
  txState : TxState
  outstanding : Bool
  pending : Bool
  calls : Nat

/-- The view of a state. -/
def flightView (s : State) : FlightView :=
  ⟨s.initState, s.tx.txState, s.env.txOutstanding, s.env.txCompletePending, transmitCount s⟩

/-- The moves of the transmit side in one step under ENV's contract (R197, R245, R312). -/
inductive FlightMove (v : FlightView) : FlightView → Prop
  | none : FlightMove v v
  | starts (hready : v.initState = .ready) (hidle : v.txState = .idle) :
      FlightMove v { v with txState := .sending, outstanding := true, calls := v.calls + 1 }
  | chains (hready : v.initState = .ready) (hsending : v.txState = .sending) (hpending : v.pending = true) :
      FlightMove v { v with outstanding := true, pending := false, calls := v.calls + 1 }
  /-- The last frame retired, or a completion that finds the queue `Idle` (R196). -/
  | retires (hready : v.initState = .ready) (hpending : v.pending = true) :
      FlightMove v { v with txState := .idle, pending := false }
  | completes (howed : v.outstanding = true) (hclear : v.pending = false) :
      FlightMove v { v with outstanding := false, pending := true }
  | reinitialises (howed : v.outstanding = false) (hclear : v.pending = false) (i : InitState) (st : TxState)
      (hidle : i = .ready → st = .idle) : FlightMove v { v with initState := i, txState := st }

/-- `FlightInv` of a view. -/
abbrev FlightLaw (v : FlightView) : Prop :=
  v.initState = .ready →
    (v.txState = .sending ↔ (v.outstanding = true ∨ v.pending = true)) ∧ ¬(v.outstanding = true ∧ v.pending = true)

theorem flightInv_iff (s : State) : FlightInv s ↔ FlightLaw (flightView s) := Iff.rfl

/-- A call is made only when none is outstanding, and one at most. -/
abbrev CallsWhenFree (v w : FlightView) : Prop :=
  w.calls ≤ v.calls + 1 ∧ (w.calls ≠ v.calls → v.outstanding = false ∧ w.outstanding = true)

theorem callsWhenFree_of_eq {v w : FlightView} (h : w.calls = v.calls) : CallsWhenFree v w :=
  ⟨h ▸ Nat.le_succ _, fun hne => absurd h hne⟩

theorem callsWhenFree_of_call {v w : FlightView} (h : w.calls = v.calls + 1) (hv : v.outstanding = false)
    (hw : w.outstanding = true) : CallsWhenFree v w :=
  ⟨h.le, fun _ => ⟨hv, hw⟩⟩

theorem FlightMove.keeps_law {v w : FlightView} (hm : FlightMove v w) (h : FlightLaw v) :
    FlightLaw w ∧ CallsWhenFree v w := by
  cases hm with
  | none => exact ⟨h, callsWhenFree_of_eq rfl⟩
  | starts hready hidle =>
    obtain ⟨hiff, -⟩ := h hready
    obtain ⟨hfree, hclear⟩ : v.outstanding = false ∧ v.pending = false := by simpa [hidle] using hiff
    exact ⟨by simp [FlightLaw, hclear], callsWhenFree_of_call rfl hfree rfl⟩
  | chains hready hsending hpending =>
    obtain ⟨-, hone⟩ := h hready
    have hfree : v.outstanding = false := by simpa [hpending] using hone
    exact ⟨by simp [FlightLaw, hsending], callsWhenFree_of_call rfl hfree rfl⟩
  | retires hready hpending =>
    obtain ⟨-, hone⟩ := h hready
    have hfree : v.outstanding = false := by simpa [hpending] using hone
    exact ⟨by simp [FlightLaw, hfree], callsWhenFree_of_eq rfl⟩
  | completes howed hclear =>
    refine ⟨fun hready => ?_, callsWhenFree_of_eq rfl⟩
    obtain ⟨hiff, -⟩ := h hready
    have hsending : v.txState = .sending := hiff.mpr (.inl howed)
    simp [hsending]
  | reinitialises howed hclear i st hidle =>
    refine ⟨fun hready => ?_, callsWhenFree_of_eq rfl⟩
    simp [howed, hclear, hidle hready]

/-- The view after a call (R195, R240). -/
theorem flightView_startTransmission (f : CanFrame) (s : State) :
    flightView (startTransmission f s) =
      { flightView s with outstanding := true, calls := (flightView s).calls + 1 } := by
  simp [flightView, transmitCount, isTransmit]

/-- `HW.RECEIVE_WORDS` is a call too, and none that R198 counts. -/
theorem flightView_hardwareReceiveWords (slot : Slot) (s : State) :
    flightView (hardwareReceiveWords slot s).2 = flightView s := by
  rw [hardwareReceiveWords_state]
  simp [flightView, transmitCount, isTransmit]

theorem flightView_clearTxFlag (s : State) : flightView (clearTxFlag s) = { flightView s with pending := false } := rfl

section operations

variable {s t : State}

theorem enqueueFrame_flightMove {f : CanFrame} {st : Status} (hready : s.initState = .ready)
    (h : enqueueFrame f s = .ok (st, t)) : FlightMove (flightView s) (flightView t) := by
  obtain ⟨r, -, ⟨-, hidle, rfl⟩ | ⟨-, hsending, rfl⟩ | ⟨-, rfl⟩⟩ := enqueueFrame_ok h
  · rw [flightView_startTransmission]
    exact .starts hready hidle
  · have hview : flightView { s with tx := ⟨r, .sending⟩ } = flightView s := by
      simp [flightView, transmitCount, hsending]
    exact hview ▸ .none
  · exact .none

/-- A completion that is serviced, its flag cleared after it (R193, R250). -/
theorem onHardwareComplete_flightMove {st : Status} (hready : s.initState = .ready)
    (hpending : s.env.txCompletePending = true) (h : onHardwareComplete s = .ok (st, t)) :
    FlightMove (flightView s) (flightView (clearTxFlag t)) := by
  rw [flightView_clearTxFlag]
  obtain ⟨hidle, -, rfl⟩ | ⟨hsending, -, r, -, ⟨-, b, -, rfl⟩ | ⟨-, rfl⟩⟩ := onHardwareComplete_ok h
  · have hview : flightView t = { flightView t with txState := .idle } := by simp [flightView, hidle]
    rw [hview]
    exact .retires hready hpending
  · have hview : flightView { s with tx := ⟨recoverOverflow s.cfg r, .sending⟩ } = flightView s := by
      simp [flightView, transmitCount, hsending]
    rw [flightView_startTransmission, hview]
    exact .chains hready hsending hpending
  · exact .retires hready hpending

theorem onFrameReceived_flightView {w : WireWords} {slot : Slot} {st : Status}
    (h : onFrameReceived w slot s = .ok (st, t)) : flightView t = flightView s := by
  obtain ⟨_, _, -, rfl⟩ := onFrameReceived_writes h
  rfl

theorem dequeueFrame_flightView {f : CanFrame} (h : dequeueFrame s = .ok (f, t)) : flightView t = flightView s := by
  obtain ⟨_, _, -, rfl⟩ := dequeueFrame_writes h
  rfl

/-- The operations of the block's own ports but `SYS.INIT`, each by the shared operation it performs. -/
theorem Effect.flightMove {i : Instr} (he : Effect s i t) (hi : isQueueOperation i = true) :
    FlightMove (flightView s) (flightView t) := by
  cases he with
  | answers => exact .none
  | enqueues hready hq => exact (enqueueFrame_flightMove hready hq :)
  | servesCompletion hdue hc =>
    obtain ⟨hpending, hready⟩ := (txCauseDue_iff s).mp hdue
    exact onHardwareComplete_flightMove hready hpending hc
  | servesReception _ hf =>
    have hview := (onFrameReceived_flightView hf).trans (flightView_hardwareReceiveWords _ s)
    exact hview ▸ .none
  | dequeues _ _ hd => exact dequeueFrame_flightView hd ▸ .none
  | _ => cases hi

/-- A new initialisation leaves ENV and the calls as they are, and a `Ready` block `Idle` (R301, R303). -/
theorem initBlock_flightMove (hquiet : TransmitQuiet s) : FlightMove (flightView s) (flightView (initBlock s).2) := by
  obtain ⟨howed, hclear⟩ := hquiet
  obtain ⟨-, -, h⟩ | ⟨-, h⟩ := initBlock_cases s
  · rw [h]; exact .reinitialises howed hclear .ready .idle fun _ => rfl
  · rw [h]; exact .reinitialises howed hclear .failed (failedInit s).tx.txState nofun

/-- The receive half of an event of ENV touches nothing of the transmit side (R246). -/
theorem flightView_applyRxFrame (cfg : Config) (received : Option (Slot × WireWords)) (s : State) (e : Env) :
    flightView { s with env := applyRxFrame cfg received e } = flightView { s with env := e } := by
  cases received <;> rfl

/-- An event of ENV within its contract (R244, R245). -/
theorem envInput_flightMove {event : EnvEvent} (howed : event.txDone.isSome = true → s.env.txOutstanding = true)
    (h : envInput event s = .next t) : FlightMove (flightView s) (flightView t) := by
  obtain ⟨hserial, hn⟩ | ⟨-, hr⟩ := envInput_cases event s
  · rw [hn] at h; cases h
    rw [flightView_applyRxFrame]
    cases hdone : event.txDone with
    | none => exact .none
    | some slot =>
      have hclear : s.env.txCompletePending = false := by
        simp only [servesSerially, hdone, Option.isSome_some, Bool.true_and, Bool.and_eq_true, Bool.not_eq_true']
          at hserial
        exact hserial.1
      exact .completes (howed (hdone ▸ rfl)) hclear
  · rw [hr] at h; cases h

theorem EnvObeys.event_owed (h : EnvObeys s) {event : EnvEvent} {rest : List Input} (hd : interruptDue s = none)
    (hi : s.inputs = .env event :: rest) : event.txDone.isSome = true → s.env.txOutstanding = true := by
  simpa only [EnvObeys, hd, hi] using h

theorem EnvObeys.quiet (h : EnvObeys s) (hr : Reinitialises s) : TransmitQuiet s := by
  obtain ⟨hd, ⟨rest, hi⟩ | ⟨frame, rest, hi⟩⟩ := hr
  · simpa only [EnvObeys, hd, hi] using h
  · simpa only [EnvObeys, hd, hi, true_imp_iff] using h

/-- Every step of a block driven by its own ports, under ENV's contract (R13, R78, R198). -/
theorem step_flightMove (hbench : NoBench s) (henv : EnvObeys s) (hstep : step s = .next t) :
    FlightMove (flightView s) (flightView t) := by
  obtain ⟨i, hdue, he⟩ | ⟨hdue, ⟨-, he⟩ | ⟨op, frame, rest, i, hi, hf, he⟩ | ⟨op, frame, rest, -, -, he⟩ |
    ⟨rest, hi, he⟩ | ⟨event, rest, hi, he⟩⟩ := step_cases hbench
  all_goals rw [he] at hstep
  · exact (exec_effect hstep).flightMove (interruptDue_isQueueOperation hdue)
  · cases hstep; exact .none
  · obtain ⟨rfl, rfl⟩ | hq := decodeForeground_isQueueOperation hf
    · cases hstep
      exact initBlock_flightMove (s := takeInput s rest) (henv.quiet ⟨hdue, .inr ⟨frame, rest, hi⟩⟩)
    · exact (exec_effect hstep).flightMove hq
  · cases hstep; exact .none
  · cases hstep
    exact initBlock_flightMove (s := takeInput s rest) (henv.quiet ⟨hdue, .inl ⟨rest, hi⟩⟩)
  · exact envInput_flightMove (s := takeInput s rest) (henv.event_owed hdue hi) hstep

end operations

/-- Settles O48: every step is a move of the transmit side, and every move keeps the law. -/
theorem atMostOneFrameInFlight : Obligations.AtMostOneFrameInFlight := by
  intro s t h hflight henv hstep
  obtain ⟨-, hbench, -⟩ := h
  exact (step_flightMove hbench henv hstep).keeps_law ((flightInv_iff s).mp hflight)

/-- Of the moves of the queues, only the completion that empties the transmit queue leaves `Sending` (R197). -/
theorem QueueMove.sending {cfg : Config} {env : Env} {tx tx' : TransmitQueue} {rx rx' : ReceiveQueue}
    (hm : QueueMove cfg env tx rx tx' rx') (hs : tx.txState = .sending) :
    tx'.txState = .sending ∨ env.txCompletePending = true := by
  cases hm with
  | transmitAccepted | completionChains => exact .inl rfl
  | completionEmpties hpending => exact .inr hpending
  | none | transmitRefused | receptionRefused | receptionAccepted | dequeued => exact .inl hs

/-- Settles O53: a step is a move of the queues or a new initialisation. -/
theorem onlyCompletionLeavesSending : Obligations.OnlyCompletionLeavesSending := by
  intro s t h _ hs hstep
  cases step_queueStep h hstep with
  | moves _ hm => exact or_assoc.mp (.inl (hm.sending hs))
  | reinitialises hr => exact .inr (.inr hr)

end Sys2Proof.Machine
end

section
/-! PROOF. O22, O23: `TX.ENQUEUE` of a `Ready` block (R191, R192, R197 rows 1 to 3). -/

namespace Sys2Proof.Machine

/-- A store reads what was last written at the key, and elsewhere as before. -/
theorem storeRead_storeWrite {α : Type} (m : List (Nat × α)) (a b : Nat) (v : α) :
    storeRead (storeWrite m a v) b = if b = a then some v else storeRead m b := by
  split
  next h => rw [h, storeRead_storeWrite_same]
  next h => exact storeRead_storeWrite_other m v h

section enqueue

variable {s t : State} {f : CanFrame}

theorem exec_txEnqueue_of_ok {st : Status} (hready : s.initState = .ready)
    (h : enqueueFrame (fitFrame s.cfg f) s = .ok (st, t)) : exec (.txEnqueue f) s = .next (respond t st .none) := by
  simp only [exec, execTxEnqueue, (isReady_iff s).mpr hready, if_true, h, finishStatus]

theorem exec_txEnqueue_full (hready : s.initState = .ready) (hfull : s.tx.rb.used = s.tx.rb.capacity) :
    exec (.txEnqueue f) s =
      .next (respond { s with tx := { s.tx with rb := countRefusal s.cfg.cntW s.tx.rb } } .overflow .none) := by
  refine exec_txEnqueue_of_ok hready ?_
  have hw := rbWriteFrame_full (cntW := s.cfg.cntW) hfull
  rw [enqueueFrame, ser16Bytes, hw]

/-- The transmit buffer with `f` as its port carries it at the end. -/
def queueFrame (s : State) (f : CanFrame) : RingBuffer :=
  pushBytes s.tx.rb (ser16Bytes (serializeFrame (fitFrame s.cfg f)))

theorem exec_txEnqueue_idle (hready : s.initState = .ready) (hb : BufferInv s.cfg.cntW s.tx.rb)
    (hroom : s.tx.rb.used ≠ s.tx.rb.capacity) (hidle : s.tx.txState = .idle) :
    exec (.txEnqueue f) s =
      .next (respond (startTransmission (fitFrame s.cfg f) { s with tx := ⟨queueFrame s f, .sending⟩ }) .ok .none) := by
  obtain ⟨hu, -⟩ | ⟨-, -, h⟩ | ⟨-, hs, -⟩ := enqueueFrame_cases hb (fitFrame s.cfg f)
  · exact absurd hu hroom
  · exact exec_txEnqueue_of_ok hready h
  · exact absurd (hidle.symm.trans hs) nofun

theorem exec_txEnqueue_sending (hready : s.initState = .ready) (hb : BufferInv s.cfg.cntW s.tx.rb)
    (hroom : s.tx.rb.used ≠ s.tx.rb.capacity) (hsending : s.tx.txState = .sending) :
    exec (.txEnqueue f) s = .next (respond { s with tx := ⟨queueFrame s f, .sending⟩ } .ok .none) := by
  obtain ⟨hu, -⟩ | ⟨-, hi, -⟩ | ⟨-, -, h⟩ := enqueueFrame_cases hb (fitFrame s.cfg f)
  · exact absurd hu hroom
  · exact absurd (hi.symm.trans hsending) nofun
  · exact exec_txEnqueue_of_ok hready h

/-- The frame goes to the end of the queue (R153, R191). -/
theorem frames_queueFrame (hb : BufferInv s.cfg.cntW s.tx.rb) (hroom : s.tx.rb.used ≠ s.tx.rb.capacity) :
    (framesOf (contents .tx (queueFrame s f))).map (fitFrame s.cfg) = txFrames s ++ [fitFrame s.cfg f] := by
  rw [queueFrame, framesOf_contents_push hb hroom, List.map_append, List.map_singleton, fitFrame_fitFrame, txFrames]

/-- What an accepted frame leaves of the transmit buffer (R132, R137). -/
theorem queueFrame_frame (hb : BufferInv s.cfg.cntW s.tx.rb) (hroom : s.tx.rb.used ≠ s.tx.rb.capacity) :
    (queueFrame s f).used = s.tx.rb.used + 16 ∧
      (queueFrame s f).tail = (s.tx.rb.tail + 16) % s.tx.rb.capacity ∧
      (queueFrame s f).head = s.tx.rb.head ∧ (queueFrame s f).capacity = s.tx.rb.capacity ∧
      (queueFrame s f).overflowCount = s.tx.rb.overflowCount ∧
      ∀ a, (∀ k < 16, a ≠ (s.tx.rb.tail + k) % s.tx.rb.capacity) →
        storageByte .tx (queueFrame s f) a = storageByte .tx s.tx.rb a :=
  ⟨pushBytes_used _ _, hb.push_tail hroom _, pushBytes_head _ _, pushBytes_capacity _ _, pushBytes_overflowCount _ _,
    (pushBytes_spec .tx (ser16Bytes (serializeFrame (fitFrame s.cfg f))) _ hb.1 (hb.room hroom)).elsewhere⟩

end enqueue

/-- Settles O23: the write stops at its first byte; an `Idle` queue is empty, so a full one is `Sending`. -/
theorem enqueueRefused : Obligations.EnqueueRefused := by
  intro f s hready hfull
  refine ⟨exec_txEnqueue_full hready hfull, fun hcap ht => ?_⟩
  obtain ⟨hidle, -, -⟩ := ht
  cases hs : s.tx.txState with
  | idle => exact absurd (hfull ▸ hidle.mp hs) hcap
  | sending => rfl

/-- Settles O22: the queue takes the frame in both states, and from `Idle` the hardware is called with it. -/
theorem enqueueAccepted : Obligations.EnqueueAccepted := by
  intro f s hready hb hroom
  have hframes := frames_queueFrame (f := f) hb hroom
  obtain ⟨hused, htail, hhead, hcap, hcount, helsewhere⟩ := queueFrame_frame (f := f) hb hroom
  cases hs : s.tx.txState with
  | idle =>
    exact ⟨_, exec_txEnqueue_idle hready hb hroom hs, rfl, rfl, hframes, hused, htail, hhead, hcap, hcount, helsewhere,
      rfl, rfl, rfl, rfl, nofun, fun _ => ⟨rfl, rfl, fun a => storeRead_storeWrite _ _ a _⟩⟩
  | sending =>
    exact ⟨_, exec_txEnqueue_sending hready hb hroom hs, rfl, rfl, hframes, hused, htail, hhead, hcap, hcount,
      helsewhere, rfl, rfl, rfl, rfl, fun _ => ⟨rfl, rfl⟩, nofun⟩

end Sys2Proof.Machine
end

section
/-! PROOF. O24, O25, O26, O27: `TX.ON_COMPLETE` (R193, R194, R196, R197 rows 4 to 6). -/

namespace Sys2Proof.Machine

variable {s t : State}

theorem exec_txOnComplete_of_ok {st : Status} (h : onHardwareComplete s = .ok (st, t)) :
    exec .txOnComplete s = .next (respond t st .none) := by
  simp only [exec, execTxOnComplete, h, finishStatus]

/-- Settles O24: the test of `tx_state` comes first. -/
theorem completionWhileIdle : Obligations.CompletionWhileIdle := by
  intro s hidle
  exact exec_txOnComplete_of_ok (by rw [onHardwareComplete, hidle])

/-- A completion that leaves a frame queued (R193): the call is for the frame at the front. -/
theorem exec_txOnComplete_chains (hs : s.tx.txState = .sending) (hb : BufferInv s.cfg.cntW s.tx.rb)
    (hin : Config.frameBytes ≤ s.tx.rb.used) (hq : Config.frameBytes ≤ (afterComplete s).used) :
    ∃ b, contents .tx (afterComplete s) = ser16Bytes b ++ (contents .tx (afterComplete s)).drop Config.frameBytes ∧
      exec .txOnComplete s =
        .next (respond (startTransmission (fitFrame s.cfg (deserializeFrame b))
          { s with tx := ⟨afterComplete s, .sending⟩ }) .ok .none) := by
  obtain ⟨hi, -⟩ | ⟨-, -, b, hc, h⟩ | ⟨-, hn, -⟩ := onHardwareComplete_cases hb fun _ => hin
  · exact absurd (hs.symm.trans hi) nofun
  · exact ⟨b, hc, exec_txOnComplete_of_ok h⟩
  · exact absurd hq hn

/-- A completion that leaves no frame queued (R193, R194). -/
theorem exec_txOnComplete_empties (hs : s.tx.txState = .sending) (hb : BufferInv s.cfg.cntW s.tx.rb)
    (hin : Config.frameBytes ≤ s.tx.rb.used) (hq : ¬Config.frameBytes ≤ (afterComplete s).used) :
    exec .txOnComplete s = .next (respond { s with tx := ⟨afterComplete s, .idle⟩ } .ok .none) := by
  obtain ⟨hi, -⟩ | ⟨-, hy, -⟩ | ⟨-, -, h⟩ := onHardwareComplete_cases hb fun _ => hin
  · exact absurd (hs.symm.trans hi) nofun
  · exact absurd hy hq
  · exact exec_txOnComplete_of_ok h

theorem recoveryDue_iff (cfg : Config) (r : RingBuffer) :
    recoveryDue cfg r = true ↔ cfg.txOverflowPolicy = .resetAll ∧ r.overflowCount ≠ 0 := by
  simp [recoveryDue]

/-- With the recovery due, a completion leaves the buffer reset (R194). -/
theorem afterComplete_reset (h : recoveryDue s.cfg s.tx.rb = true) : afterComplete s = rbReset s.tx.rb :=
  if_pos h

theorem afterComplete_of_not_due (h : ¬(s.cfg.txOverflowPolicy = .resetAll ∧ s.tx.rb.overflowCount ≠ 0)) :
    afterComplete s = popBytes Config.frameBytes s.tx.rb :=
  afterComplete_pop (Bool.eq_false_iff.mpr (mt (recoveryDue_iff _ _).mp h))

/-- Settles O25: the reset buffer holds no frame. -/
theorem completionRecovers : Obligations.CompletionRecovers := by
  intro s hs hb hin hpolicy hcount
  have hreset := afterComplete_reset ((recoveryDue_iff s.cfg s.tx.rb).mpr ⟨hpolicy, hcount⟩)
  rw [exec_txOnComplete_empties hs hb hin (by rw [hreset]; exact Nat.not_succ_le_zero 15), hreset]
  rfl

/-- Settles O27: the frame that was sent is the only one. -/
theorem completionEmpties : Obligations.CompletionEmpties := by
  intro s hs hb hused hdue
  have hpop := afterComplete_of_not_due hdue
  have hleft : (popBytes Config.frameBytes s.tx.rb).used = 0 := by rw [popBytes_used, hused, Nat.sub_self]
  rw [exec_txOnComplete_empties hs hb hused.ge (by rw [hpop, hleft]; decide), hpop]
  simp only [popBytes, hused, Nat.sub_self, respond]

/-- A queue that holds more than one frame holds two (R28). -/
theorem BufferInv.two_frames {cntW : Nat} {r : RingBuffer} (h : BufferInv cntW r) (hu : Config.frameBytes < r.used) :
    Config.frameBytes + Config.frameBytes ≤ r.used := by
  obtain ⟨-, ⟨-, ⟨n, hn⟩, -, -⟩, -⟩ := h
  simp only [Config.frameBytes] at *
  omega

theorem framesOf_eq_cons {bs rest : List Byte} {b : Ser16} (h : bs = ser16Bytes b ++ rest) :
    framesOf bs = deserializeFrame b :: framesOf rest := by
  rw [h, framesOf_ser16Bytes]

/-- Settles O26: the front of what is left is the second frame queued. -/
theorem completionChains : Obligations.CompletionChains := by
  intro s hs hb hused hdue
  have hpop := afterComplete_of_not_due hdue
  have hq : Config.frameBytes ≤ (afterComplete s).used := by
    rw [hpop, popBytes_used]; exact Nat.le_sub_of_add_le (hb.two_frames hused)
  obtain ⟨sent, -, hsent⟩ := rbReadFrame_spec .tx _ hb.1 hused.le
  obtain ⟨b, hnext, hexec⟩ := exec_txOnComplete_chains hs hb hused.le hq
  rw [hpop] at hnext hexec
  have hafter := congrArg (List.map (fitFrame s.cfg)) (framesOf_eq_cons hnext)
  have hbefore := congrArg (List.map (fitFrame s.cfg)) (framesOf_eq_cons hsent)
  rw [List.map_cons] at hafter hbefore
  exact ⟨_, _, _, _, hexec, rfl, hafter ▸ hbefore, hafter, rfl, rfl, rfl, fun a => storeRead_storeWrite _ _ a _, rfl, rfl,
    rfl, rfl⟩

end Sys2Proof.Machine
end

section
/-! PROOF. O28: the chaining order (R199), along the frames of a queue that is `Sending`. -/

namespace Sys2Proof.Machine

/-- A `Ready` block `Sending` a queue of `frames`, the frame in flight first, with no overflow recovery due. -/
structure TransmitChain (cfg : Config) (capacity : Nat) (frames : List CanFrame) (s : State) : Prop where
  config : s.cfg = cfg
  ready : s.initState = .ready
  sending : s.tx.txState = .sending
  buffer : BufferInv cfg.cntW s.tx.rb
  capacity_eq : s.tx.rb.capacity = capacity
  used : s.tx.rb.used = frames.length * 16
  notDue : ¬(cfg.txOverflowPolicy = .resetAll ∧ s.tx.rb.overflowCount ≠ 0)
  queued : txFrames s = frames

/-- An `Idle` queue has no recovery due (R30). -/
theorem TransmitInv.not_due {cfg : Config} {q : TransmitQueue} (h : TransmitInv cfg q) (hidle : q.txState = .idle) :
    ¬(cfg.txOverflowPolicy = .resetAll ∧ q.rb.overflowCount ≠ 0) := by
  obtain ⟨-, -, hzero⟩ := h
  exact fun ⟨hpolicy, hcount⟩ => hcount (hzero hpolicy hidle)

/-- A frame is accepted into an `Idle` queue and called at once (R191). -/
theorem transmitChain_of_idle {s : State} (f : CanFrame) (hready : s.initState = .ready) (hidle : s.tx.txState = .idle)
    (hb : BufferInv s.cfg.cntW s.tx.rb) (ht : TransmitInv s.cfg s.tx) :
    ∃ t, exec (.txEnqueue f) s = .next t ∧
      t.trace = s.trace ++ [.transmit (fitSlot s.cfg f.hardwareSlot) (encodeFrame f)] ∧
      TransmitChain s.cfg s.tx.rb.capacity [fitFrame s.cfg f] t := by
  have hempty : s.tx.rb.used = 0 := ht.1.mp hidle
  have hroom : s.tx.rb.used ≠ s.tx.rb.capacity := hempty ▸ hb.1.capacity_pos.ne
  obtain ⟨hused, -, -, hcap, hcount, -⟩ := queueFrame_frame (f := f) hb hroom
  have hnone : txFrames s = [] := by
    rw [txFrames, List.length_eq_zero_iff.mp ((contents_length .tx s.tx.rb).trans hempty)]; rfl
  have hframes := frames_queueFrame (f := f) hb hroom
  rw [hnone] at hframes
  rw [hempty] at hused
  exact ⟨_, exec_txEnqueue_idle hready hb hroom hidle, rfl, rfl, hready, rfl, hb.push hroom _, hcap, hused,
    hcount.symm ▸ TransmitInv.not_due ht hidle, hframes⟩

namespace TransmitChain

variable {cfg : Config} {capacity : Nat} {frames : List CanFrame} {s : State}

/-- A further frame is only queued, behind the others (R191). -/
theorem enqueue (h : TransmitChain cfg capacity frames s) (hroom : (frames.length + 1) * 16 ≤ capacity) (f : CanFrame) :
    ∃ t, exec (.txEnqueue f) s = .next t ∧ t.trace = s.trace ∧
      TransmitChain cfg capacity (frames ++ [fitFrame cfg f]) t := by
  obtain ⟨rfl, hready, hs, hb, rfl, hlen, hdue, hqueued⟩ := h
  have hne : s.tx.rb.used ≠ s.tx.rb.capacity := by omega
  obtain ⟨hused, -, -, hcap, hcount, -⟩ := queueFrame_frame (f := f) hb hne
  have hframes := frames_queueFrame (f := f) hb hne
  rw [hqueued] at hframes
  refine ⟨_, exec_txEnqueue_sending hready hb hne hs, rfl, rfl, hready, rfl, hb.push hne _, hcap, ?_,
    hcount.symm ▸ hdue, hframes⟩
  rw [List.length_append, List.length_singleton, Nat.succ_mul, ← hlen]
  exact hused

/-- A completion calls the hardware with the second frame and leaves it first (O26). -/
theorem complete {f g : CanFrame} (h : TransmitChain cfg capacity (f :: g :: frames) s) :
    ∃ t, exec .txOnComplete s = .next t ∧ t.trace = s.trace ++ [.transmit g.hardwareSlot (encodeFrame g)] ∧
      TransmitChain cfg capacity (g :: frames) t := by
  obtain ⟨rfl, hready, hs, hb, rfl, hlen, hdue, hqueued⟩ := h
  rw [List.length_cons, List.length_cons] at hlen
  obtain ⟨t, _, _, _, hexec, -, hbefore, hafter, htrace, htx, -, -, -, hinit, hcfg, -⟩ :=
    completionChains s hs hb (by omega) hdue
  cases hqueued.symm.trans hbefore
  have hpop : t.tx = ⟨popBytes Config.frameBytes s.tx.rb, .sending⟩ := htx
  refine ⟨t, hexec, htrace, hcfg, hinit.trans hready, ?sending, ?buffer, ?capacity, ?used, ?notDue, hafter⟩
  all_goals rw [hpop]
  case buffer => exact hb.pop (by simp only [Config.frameBytes]; omega)
  case capacity => rfl
  case used =>
    rw [popBytes_used, List.length_cons, Config.frameBytes]
    omega
  case notDue => exact hdue

/-- The completion of the last frame leaves the queue `Idle`, without a call (O27). -/
theorem complete_last {f : CanFrame} (h : TransmitChain cfg capacity [f] s) :
    ∃ t, exec .txOnComplete s = .next t ∧ t.trace = s.trace ∧ t.tx.txState = .idle := by
  obtain ⟨rfl, -, hs, hb, -, hused, hdue, -⟩ := h
  exact ⟨_, completionEmpties s hs hb hused hdue, rfl, rfl⟩

end TransmitChain

/-- Settles O28: the queue holds one, two and three frames, then two and one, each in turn at the front. -/
theorem chainingOrder : Obligations.ChainingOrder := by
  intro a b c s hready hidle hb ht hcap
  obtain ⟨s1, he1, ht1, h1⟩ := transmitChain_of_idle a hready hidle hb ht
  obtain ⟨s2, he2, ht2, h2⟩ := h1.enqueue (by simp only [List.length_singleton]; omega) b
  obtain ⟨s3, he3, ht3, h3⟩ := h2.enqueue hcap c
  obtain ⟨s4, he4, ht4, h4⟩ := h3.complete
  obtain ⟨s5, he5, ht5, h5⟩ := h4.complete
  obtain ⟨s6, he6, ht6, hidle6⟩ := h5.complete_last
  exact ⟨s1, s2, s3, s4, s5, s6, he1, he2, he3, he4, he5, he6, ht1, ht2, ht3.trans ht2,
    by rw [ht4, ht3, ht2]; rfl, by rw [ht5]; rfl, ht6, h3.sending, h5.sending, hidle6⟩

end Sys2Proof.Machine
end

section
/-! PROOF. O29: the three status views (R200, R223, R224). -/

namespace Sys2Proof.Machine

/-- The counter answer of a `Ready` block (R37, R100). -/
theorem countAnswer_ready {s : State} (hready : s.initState = .ready) (n : Nat) :
    (if isReady s then .next (respondCount s n) else .next (respond s .notInitialised .none) :
      Host.Outcome State Fault Refusal) = .next (respondCount s n) :=
  if_pos ((isReady_iff s).mpr hready)

/-- Settles O29: each view shows its counter in the count field, where a counter in its range fits. -/
theorem statusViews : Obligations.StatusViews := by
  intro s hready
  exact ⟨countField (countWidth s.cfg) s.tx.rb.overflowCount, countField (countWidth s.cfg) s.rx.pendingCount,
    countField (countWidth s.cfg) s.rx.rb.overflowCount, countAnswer_ready hready _, countAnswer_ready hready _,
    countAnswer_ready hready _, fun h => countField_toNat (countInv_fits h), countField_toNat,
    fun h => countField_toNat (countInv_fits h)⟩

end Sys2Proof.Machine
end

section
/-! PROOF. O32, O31, O21: `RX.ON_FRAME` (R220, R221, R226). -/

namespace Sys2Proof.Machine

section receive

variable {s t : State} {w : WireWords} {slot : Slot}

theorem exec_rxOnFrame_of_ok {st : Status} (h : onFrameReceived w (fitSlot s.cfg slot) s = .ok (st, t)) :
    exec (.rxOnFrame w slot) s = .next (respond t st .none) := by
  simp only [exec, execRxOnFrame, h, finishStatus]

/-- A full queue refuses at the first byte; no invariant is needed (R221). -/
theorem exec_rxOnFrame_full (hfull : s.rx.rb.used = s.rx.rb.capacity) :
    exec (.rxOnFrame w slot) s =
      .next (respond { s with rx := { s.rx with rb := countRefusal s.cfg.cntW s.rx.rb } } .overflow .none) := by
  refine exec_rxOnFrame_of_ok ?_
  have hw := rbWriteFrame_full (cntW := s.cfg.cntW) hfull
  rw [onFrameReceived, ser16Bytes, hw]

/-- The receive queue with the frame of `w` and `slot` at the end, counted. -/
def queueReceived (s : State) (w : WireWords) (slot : Slot) : ReceiveQueue :=
  ⟨pushBytes s.rx.rb (ser16Bytes (serializeFrame (decodeFrame w (fitSlot s.cfg slot)))), s.rx.pendingCount + 1⟩

theorem exec_rxOnFrame_room (hb : BufferInv s.cfg.cntW s.rx.rb) (hroom : s.rx.rb.used ≠ s.rx.rb.capacity) :
    exec (.rxOnFrame w slot) s = .next (respond { s with rx := queueReceived s w slot } .ok .none) := by
  obtain ⟨hfull, -⟩ | ⟨-, h⟩ := onFrameReceived_cases hb w (fitSlot s.cfg slot)
  · exact absurd hfull hroom
  · exact exec_rxOnFrame_of_ok h

/-- The received frame is the last one queued (R153, R220). -/
theorem rxFrames_queueReceived (hb : BufferInv s.cfg.cntW s.rx.rb) (hroom : s.rx.rb.used ≠ s.rx.rb.capacity) :
    (framesOf (contents .rx (queueReceived s w slot).rb)).map (fitFrame s.cfg) =
      rxFrames s ++ [decodeFrame w (fitSlot s.cfg slot)] := by
  rw [queueReceived, framesOf_contents_push hb hroom, List.map_append, List.map_singleton, fitFrame_decodeFrame,
    fitSlot_fitSlot, rxFrames]

end receive

/-- Settles O32: the write stops at its first byte. -/
theorem receivedFrameDropped : Obligations.ReceivedFrameDropped := by
  intro w slot s hfull
  exact exec_rxOnFrame_full hfull

/-- Settles O31: the queue takes the sixteen bytes of the decoded frame. -/
theorem receivedFrameStored : Obligations.ReceivedFrameStored := by
  intro w slot s hb hroom
  have hpushed := pushBytes_spec .rx (ser16Bytes (serializeFrame (decodeFrame w (fitSlot s.cfg slot)))) _ hb.1
    (hb.room hroom)
  exact ⟨_, exec_rxOnFrame_room hb hroom, rfl, rxFrames_queueReceived hb hroom, rfl, pushBytes_used _ _,
    hb.push_tail hroom _, pushBytes_head _ _, pushBytes_capacity _ _, pushBytes_overflowCount _ _, hpushed.elsewhere,
    rfl, rfl, rfl, rfl, rfl, rfl⟩

/-- Settles O21: a full queue refuses both frames alike; a queue with room appends two frames that differ in the slot. -/
theorem slotIsPassedThrough : Obligations.SlotIsPassedThrough := by
  intro w a b s hb
  by_cases hfull : s.rx.rb.used = s.rx.rb.capacity
  · exact ⟨_, _, exec_rxOnFrame_full hfull, exec_rxOnFrame_full hfull, rfl, rfl, rfl, rfl, rfl, rfl, rfl⟩
  · obtain ⟨t, ht, hresp, hframes, hpending, hused, htail, hhead, -, hcount, -⟩ := receivedFrameStored w a s hb hfull
    obtain ⟨u, hu, hresp', hframes', hpending', hused', htail', hhead', -, hcount', -⟩ :=
      receivedFrameStored w b s hb hfull
    refine ⟨t, u, ht, hu, hresp.trans hresp'.symm, hpending.trans hpending'.symm, hused.trans hused'.symm,
      htail.trans htail'.symm, hhead.trans hhead'.symm, hcount.trans hcount'.symm, ?_⟩
    rw [hframes, hframes', List.map_append, List.map_append]
    rfl

end Sys2Proof.Machine
end

section
/-! PROOF. O33: `RX.DEQUEUE` of a `Ready` block (R222). -/

namespace Sys2Proof.Machine

variable {s : State}

theorem exec_rxDequeue_empty (hready : s.initState = .ready) (hnone : s.rx.pendingCount = 0) :
    exec .rxDequeue s = .next (respond s .empty .none) := by
  simp only [exec, execRxDequeue, (isReady_iff s).mpr hready, hnone, if_true]

/-- A queue that counts a frame holds its bytes (R32). -/
theorem ReceiveInv.frame_held {q : ReceiveQueue} (h : ReceiveInv q) (hsome : q.pendingCount ≠ 0) :
    Config.frameBytes ≤ q.rb.used := by
  rw [h]; exact Nat.le_mul_of_pos_left _ (Nat.pos_of_ne_zero hsome)

theorem exec_rxDequeue_frame (hready : s.initState = .ready) (hsome : s.rx.pendingCount ≠ 0)
    (hb : BufferInv s.cfg.cntW s.rx.rb) (hr : ReceiveInv s.rx) :
    ∃ b, contents .rx s.rx.rb = ser16Bytes b ++ contents .rx (popBytes Config.frameBytes s.rx.rb) ∧
      exec .rxDequeue s =
        .next (respond { s with rx := ⟨popBytes Config.frameBytes s.rx.rb, s.rx.pendingCount - 1⟩ } .ok
          (.frame (fitFrame s.cfg (deserializeFrame b)))) := by
  obtain ⟨b, hc, hd⟩ := dequeueFrame_spec hb.1 (ReceiveInv.frame_held hr hsome)
  exact ⟨b, hc, by simp only [exec, execRxDequeue, (isReady_iff s).mpr hready, hsome, if_true, if_false, hd]⟩

/-- Settles O33: the contents are the bytes of the oldest frame, then what the queue keeps. -/
theorem dequeueOldestFrame : Obligations.DequeueOldestFrame := by
  intro s hready
  refine ⟨exec_rxDequeue_empty hready, fun hsome hb hr => ?_⟩
  obtain ⟨b, hc, hexec⟩ := exec_rxDequeue_frame hready hsome hb hr
  exact ⟨_, _, hexec, congrArg (List.map (fitFrame s.cfg)) (framesOf_eq_cons hc), rfl⟩

end Sys2Proof.Machine
end

section
/-! PROOF. O34: the counting law (R225). Every receive-side operation answers, keeps what the next one needs, and moves
`pending_count` by what it counts; the law is the sum over the operations. -/

namespace Sys2Proof.Machine

/-- What a receive-side operation of a `Ready` block needs, and keeps (R27, R28, R32). -/
structure ReceiveReady (s : State) : Prop where
  ready : s.initState = .ready
  buffer : BufferInv s.cfg.cntW s.rx.rb
  counted : ReceiveInv s.rx

/-- What one operation adds to the receptions that answered `Ok`. -/
def receptionsIn (op : Option (WireWords × Slot)) (t : State) : Nat := if op.isSome && answeredOk t then 1 else 0

/-- What one operation adds to the dequeues that found a frame. -/
def dequeuesIn (op : Option (WireWords × Slot)) (t : State) : Nat := if op.isNone && answeredOk t then 1 else 0

theorem receiveRun_cons {op : Option (WireWords × Slot)} {ops : List (Option (WireWords × Slot))} {s t u : State} {k j : Nat}
    (hexec : exec (receiveOp op) s = .next t) (hrun : receiveRun ops t = some (u, k, j)) :
    receiveRun (op :: ops) s = some (u, k + receptionsIn op t, j + dequeuesIn op t) := by
  simp only [receiveRun, hexec, hrun, Option.map_some, receptionsIn, dequeuesIn]

namespace ReceiveReady

variable {s : State}

theorem onFrame (h : ReceiveReady s) (w : WireWords) (slot : Slot) :
    ∃ t, exec (.rxOnFrame w slot) s = .next t ∧ ReceiveReady t ∧
      t.rx.pendingCount = s.rx.pendingCount + receptionsIn (some (w, slot)) t := by
  obtain ⟨hready, hb, hr⟩ := h
  by_cases hfull : s.rx.rb.used = s.rx.rb.capacity
  · exact ⟨_, exec_rxOnFrame_full hfull, ⟨hready, hb.refuse, hr⟩, rfl⟩
  · refine ⟨_, exec_rxOnFrame_room hb hfull, ⟨hready, hb.push hfull _, ?_⟩, rfl⟩
    change (queueReceived s w slot).rb.used = (s.rx.pendingCount + 1) * Config.frameBytes
    rw [queueReceived, pushBytes_used, ser16Bytes_length, hr, Nat.succ_mul]

theorem dequeue (h : ReceiveReady s) :
    ∃ t, exec .rxDequeue s = .next t ∧ ReceiveReady t ∧ t.rx.pendingCount + dequeuesIn none t = s.rx.pendingCount := by
  obtain ⟨hready, hb, hr⟩ := h
  by_cases hnone : s.rx.pendingCount = 0
  · exact ⟨_, exec_rxDequeue_empty hready hnone, ⟨hready, hb, hr⟩, rfl⟩
  · obtain ⟨b, -, hexec⟩ := exec_rxDequeue_frame hready hnone hb hr
    refine ⟨_, hexec, ⟨hready, hb.pop (ReceiveInv.frame_held hr hnone), ?_⟩,
      Nat.sub_add_cancel (Nat.pos_of_ne_zero hnone)⟩
    change s.rx.rb.used - Config.frameBytes = (s.rx.pendingCount - 1) * Config.frameBytes
    rw [hr, Nat.sub_one_mul]

/-- One operation, of either kind, moves the count by what it counts. -/
theorem operation (h : ReceiveReady s) (op : Option (WireWords × Slot)) :
    ∃ t, exec (receiveOp op) s = .next t ∧ ReceiveReady t ∧
      t.rx.pendingCount + dequeuesIn op t = s.rx.pendingCount + receptionsIn op t := by
  match op with
  | some (w, slot) => exact h.onFrame w slot
  | none => exact h.dequeue

end ReceiveReady

/-- Settles O34, by induction on the operations. -/
theorem countingLaw : Obligations.CountingLaw := by
  intro ops
  suffices hlaw : ∀ s, ReceiveReady s →
      ∃ t k j, receiveRun ops s = some (t, k, j) ∧ t.rx.pendingCount + j = s.rx.pendingCount + k from
    fun s hready hb hr => hlaw s ⟨hready, hb, hr⟩
  induction ops with
  | nil => exact fun s _ => ⟨s, 0, 0, rfl, rfl⟩
  | cons op ops ih =>
    intro s h
    obtain ⟨t, hexec, ht, hone⟩ := h.operation op
    obtain ⟨u, k, j, hrun, hrest⟩ := ih t ht
    exact ⟨u, _, _, receiveRun_cons hexec hrun, by omega⟩

end Sys2Proof.Machine
end

section
/-! PROOF. O38, O39: the two primitives of ENV (R240, R241, R246). -/

namespace Sys2Proof.Machine

/-- Settles O38: the call is the state it is defined by, and the object store reads what was written last. -/
theorem hardwareTransmitEffect : Obligations.HardwareTransmitEffect := by
  intro slot w s
  exact ⟨hardwareTransmit (fitSlot s.cfg slot) w s, rfl, rfl, fun a => storeRead_storeWrite _ _ a w, rfl⟩

/-- The words ENV must answer are those of the completed reception, as long as its flag is set (R246). -/
theorem completedWords_eq_some_iff {e : Env} {slot : Slot} {w : WireWords} :
    completedWords e slot = some w ↔
      e.rxCompletePending = true ∧ slot = e.rxCompleteSlot ∧ e.rxCompleteWords = some w := by
  simp only [completedWords, Option.ite_none_right_eq_some, and_assoc]

section answers

variable {s p : State} {slot : Slot} {w : WireWords}

theorem hardwareReceiveWords_of_completed (h : completedWords s.env slot = some w) :
    hardwareReceiveWords slot s = (w, { s with trace := s.trace ++ [.receiveWords slot] }) := by
  simp only [hardwareReceiveWords, h]

/-- Where ENV must answer no particular words, they are the next free value (U16, log entry 3). -/
theorem hardwareReceiveWords_of_free (h : completedWords s.env slot = none) :
    hardwareReceiveWords slot s =
      (Config.freeWords s.freeCount,
        { s with trace := s.trace ++ [.receiveWords slot], freeCount := s.freeCount + 1 }) := by
  simp only [hardwareReceiveWords, h]

theorem exec_hwReceiveWords_of_eq (h : hardwareReceiveWords (fitSlot s.cfg slot) s = (w, p)) :
    exec (.hwReceiveWords slot) s = .next (respondData p (.words w)) := by
  simp only [exec, execHwReceiveWords, h]

end answers

/-- Settles O39: ENV owes the words of the slot or it does not. -/
theorem hardwareReceiveWordsAnswer : Obligations.HardwareReceiveWordsAnswer := by
  intro slot s
  cases hc : completedWords s.env (fitSlot s.cfg slot) with
  | some w =>
    obtain ⟨hpending, hslot, hwords⟩ := completedWords_eq_some_iff.mp hc
    refine ⟨_, w, exec_hwReceiveWords_of_eq (hardwareReceiveWords_of_completed hc), rfl, fun v _ _ hv => ?_, fun hnot => ?_⟩
    · exact ⟨Option.some.inj (hwords.symm.trans hv), rfl⟩
    · exact absurd ⟨hpending, hslot, Option.isSome_of_mem hwords⟩ hnot
  | none =>
    refine ⟨_, _, exec_hwReceiveWords_of_eq (hardwareReceiveWords_of_free hc), rfl, fun v hpending hslot hv => ?_,
      fun _ => ⟨rfl, rfl⟩⟩
    exact absurd (hc.symm.trans (completedWords_eq_some_iff.mpr ⟨hpending, hslot, hv⟩)) nofun

end Sys2Proof.Machine
end

section
/-! PROOF. O41, O43: what a `Ready` block does about a pending cause, and what a step does about an event of ENV (R244,
R251, R271, R292). -/

namespace Sys2Proof.Machine

variable {s : State}

theorem interruptDue_of_txPending (hready : s.initState = .ready) (htx : s.env.txCompletePending = true) :
    interruptDue s = some (.iaTxIrq s.env.txCompleteSlot) :=
  if_pos ((txCauseDue_iff s).mpr ⟨htx, hready⟩)

/-- Receive-complete is due when transmit-complete is not (R251). -/
theorem interruptDue_of_rxPending (hready : s.initState = .ready) (htx : s.env.txCompletePending = false)
    (hrx : s.env.rxCompletePending = true) : interruptDue s = some (.iaRxIrq s.env.rxCompleteSlot) := by
  have hnot : ¬ txCauseDue s = true := by simp [txCauseDue, htx]
  rw [interruptDue, if_neg hnot, if_pos ((rxCauseDue_iff s).mpr ⟨hrx, hready⟩)]

/-- Settles O41: the cause is due, and a due cause is what the step runs, whatever waits. -/
theorem interruptsBeforeRequests : Obligations.InterruptsBeforeRequests := by
  intro s hready
  refine ⟨fun htx => ?_, fun htx hrx => ?_⟩
  · exact step_of_operation (nextOperation_of_interruptDue (interruptDue_of_txPending hready htx))
  · exact step_of_operation (nextOperation_of_interruptDue (interruptDue_of_rxPending hready htx hrx))

/-- ENV's contract: no second event of a cause whose flag is set (R244). -/
theorem servesSerially_iff (event : EnvEvent) (e : Env) :
    servesSerially event e = true ↔
      ¬((event.txDone.isSome = true ∧ e.txCompletePending = true) ∨
        (event.rxFrame.isSome = true ∧ e.rxCompletePending = true)) := by
  simp only [servesSerially, Bool.and_eq_true, Bool.not_eq_true', ← Bool.not_eq_true, not_or]

section event

variable {event : EnvEvent} {rest : List Input}

/-- An event of ENV is no operation: where no cause is due, ENV takes it (R121). -/
theorem step_of_event (hd : interruptDue s = none) (hi : s.inputs = .env event :: rest) :
    step s = envInput event (takeInput s rest) := by
  have hnone : nextOperation s = none := by simp only [nextOperation, hd, hi]
  rw [step_of_none hnone]
  simp only [otherInput, hi]

theorem step_of_event_accepted (hd : interruptDue s = none) (hi : s.inputs = .env event :: rest)
    (hserial : servesSerially event s.env = true) :
    step s = .next { s with
      inputs := rest
      env := applyRxFrame s.cfg event.rxFrame (applyTxDone s.cfg event.txDone s.env) } :=
  (step_of_event hd hi).trans (if_pos hserial)

theorem step_of_event_refused (hd : interruptDue s = none) (hi : s.inputs = .env event :: rest)
    (hserial : ¬ servesSerially event s.env = true) : step s = .refused .eventWhilePending :=
  (step_of_event hd hi).trans (if_neg hserial)

end event

/-- R292: nothing due and nothing waiting. -/
theorem step_of_idle (hd : interruptDue s = none) (hi : s.inputs = []) : step s = .next s := by
  have hnone : nextOperation s = none := by simp only [nextOperation, hd, hi]
  rw [step_of_none hnone]
  simp only [otherInput, hi]

/-- Settles O43: the events within ENV's contract, by their halves; the others; and no event at all. -/
theorem environmentInputs : Obligations.EnvironmentInputs := by
  refine ⟨?completion, ?reception, ?both, ?refused, ?idle⟩
  case completion =>
    intro s a rest hd hi htx
    exact step_of_event_accepted hd hi ((servesSerially_iff _ _).mpr (by simp [htx]))
  case reception =>
    intro s a w rest hd hi hrx
    exact ⟨_, step_of_event_accepted hd hi ((servesSerially_iff _ _).mpr (by simp [hrx])),
      fun b => storeRead_storeWrite _ _ b w, rfl⟩
  case both =>
    intro s a c w rest hd hi htx hrx
    exact ⟨_, step_of_event_accepted hd hi ((servesSerially_iff _ _).mpr (by simp [htx, hrx])),
      fun b => storeRead_storeWrite _ _ b w, rfl⟩
  case refused =>
    intro s event rest hd hi hpending
    exact step_of_event_refused hd hi fun hserial => (servesSerially_iff _ _).mp hserial hpending
  case idle =>
    intro s hd hi
    exact step_of_idle hd hi

end Sys2Proof.Machine
end

section
/-! PROOF. O35, O36, O54: the two handlers (R248, R249, R250, R251). Each queue operation reads the parameters and its own
queue alone, and a call reads the reception that ENV keeps; what a handler does is therefore the same before and after
the other. -/

namespace Sys2Proof.Machine

/-- The state after a transmit-complete that leaves the queue `q` and calls for the frame `call`, if any (R193). -/
def completeWith (q : TransmitQueue) (call : Option CanFrame) (s : State) : State :=
  match call with
  | none => { s with tx := q }
  | some f => startTransmission f { s with tx := q }

/-- The calls of that transmit-complete (R195). -/
def completionCalls : Option CanFrame → List HwEvent
  | none => []
  | some f => [.transmit f.hardwareSlot (encodeFrame f)]

/-- The state after a receive-complete of `slot` that leaves the queue `q` and the draw counter `n` (R220, R241). -/
def receiveWith (slot : Slot) (q : ReceiveQueue) (n : Nat) (s : State) : State :=
  { s with rx := q, trace := s.trace ++ [.receiveWords (fitSlot s.cfg slot)], freeCount := n }

section handlers

variable {s p t : State} {slot : Slot} {w : WireWords} {st : Status}

theorem completeWith_cfg (q : TransmitQueue) (call : Option CanFrame) (s : State) : (completeWith q call s).cfg = s.cfg := by
  cases call <;> rfl

theorem completeWith_trace (q : TransmitQueue) (call : Option CanFrame) (s : State) :
    (completeWith q call s).trace = s.trace ++ completionCalls call := by
  cases call with
  | none => exact (List.append_nil s.trace).symm
  | some f => rfl

/-- What `TX.ON_COMPLETE` does is a matter of the parameters and the transmit queue alone (R193). -/
theorem onHardwareComplete_reads (h : onHardwareComplete s = .ok (st, t)) :
    ∃ q call, ∀ s' : State, s'.cfg = s.cfg → s'.tx = s.tx →
      onHardwareComplete s' = .ok (st, completeWith q call s') := by
  obtain ⟨hidle, rfl, rfl⟩ | ⟨hsending, rfl, r, hdrop, hcases⟩ := onHardwareComplete_ok h
  · refine ⟨t.tx, none, fun s' _ htx => ?_⟩
    rw [onHardwareComplete, htx, hidle, ← htx]
    rfl
  · obtain ⟨hqueued, b, hpeek, -⟩ | ⟨hempty, -⟩ := hcases
    · refine ⟨⟨recoverOverflow s.cfg r, .sending⟩, some (fitFrame s.cfg (deserializeFrame b)), fun s' hcfg htx => ?_⟩
      simp only [onHardwareComplete, htx, hcfg, hsending, hdrop, hqueued, hpeek, if_true, completeWith]
    · refine ⟨⟨recoverOverflow s.cfg r, .idle⟩, none, fun s' hcfg htx => ?_⟩
      simp only [onHardwareComplete, htx, hcfg, hsending, hdrop, hempty, Bool.false_eq_true, if_false, completeWith]

/-- In a state of its invariant, a transmit-complete never stops (R193). -/
theorem onHardwareComplete_answers (hb : BufferInv s.cfg.cntW s.tx.rb) (ht : TransmitInv s.cfg s.tx) :
    ∃ st t, onHardwareComplete s = .ok (st, t) := by
  obtain ⟨-, hsending, -⟩ := ht
  obtain ⟨-, h⟩ | ⟨-, -, _, -, h⟩ | ⟨-, -, h⟩ := onHardwareComplete_cases hb hsending
  all_goals exact ⟨_, _, h⟩

/-- `RX.ON_FRAME` on a sound buffer never stops, and what it does is a matter of the parameters and the receive queue alone
(R220). -/
theorem onFrameReceived_reads (hb : BufferInv s.cfg.cntW s.rx.rb) (w : WireWords) (slot : Slot) :
    ∃ st q, ∀ s' : State, s'.cfg = s.cfg → s'.rx = s.rx →
      onFrameReceived w slot s' = .ok (st, { s' with rx := q }) := by
  obtain ⟨-, hw⟩ | ⟨-, hw⟩ := rbWriteFrame_cases hb (serializeFrame (decodeFrame w slot))
  · refine ⟨.overflow, { s.rx with rb := countRefusal s.cfg.cntW s.rx.rb }, fun s' hcfg hrx => ?_⟩
    rw [onFrameReceived, hcfg, hrx, hw]
  · refine ⟨.ok, ⟨pushBytes s.rx.rb (ser16Bytes (serializeFrame (decodeFrame w slot))), s.rx.pendingCount + 1⟩,
      fun s' hcfg hrx => ?_⟩
    rw [onFrameReceived, hcfg, hrx, hw]

/-- What `HW.RECEIVE_WORDS` answers is a matter of the words ENV owes and the free value drawn next (R241, log entry 3). -/
theorem hardwareReceiveWords_reads (slot : Slot) (s : State) :
    ∃ w n, ∀ s' : State, completedWords s'.env slot = completedWords s.env slot → s'.freeCount = s.freeCount →
      hardwareReceiveWords slot s' = (w, { s' with trace := s'.trace ++ [.receiveWords slot], freeCount := n }) := by
  cases hc : completedWords s.env slot with
  | some w =>
    refine ⟨w, s.freeCount, fun s' hwords hfree => ?_⟩
    rw [hardwareReceiveWords_of_completed hwords, ← hfree]
  | none =>
    refine ⟨Config.freeWords s.freeCount, s.freeCount + 1, fun s' hwords hfree => ?_⟩
    rw [hardwareReceiveWords_of_free hwords, hfree]

theorem exec_iaTxIrq_of_ok (hpending : s.env.txCompletePending = true) (hready : s.initState = .ready)
    (h : onHardwareComplete s = .ok (st, t)) : exec (.iaTxIrq slot) s = .next (clearTxFlag t) := by
  simp only [exec, execIaTxIrq, (txCauseDue_iff s).mpr ⟨hpending, hready⟩, if_true, h]

theorem exec_iaRxIrq_of_ok (hpending : s.env.rxCompletePending = true) (hready : s.initState = .ready)
    (hwords : hardwareReceiveWords (fitSlot s.cfg slot) s = (w, p))
    (h : onFrameReceived w (fitSlot s.cfg slot) p = .ok (st, t)) : exec (.iaRxIrq slot) s = .next (clearRxFlag t) := by
  simp only [exec, execIaRxIrq, (rxCauseDue_iff s).mpr ⟨hpending, hready⟩, if_true, hwords, h]

/-- `IA.TX_IRQ` reads the parameters, `init_state`, its flag and the transmit queue (R248). -/
theorem exec_iaTxIrq_reads (hb : BufferInv s.cfg.cntW s.tx.rb) (ht : TransmitInv s.cfg s.tx) :
    ∃ q call, ∀ (slot : Slot) (s' : State), s'.cfg = s.cfg → s'.tx = s.tx → s'.env.txCompletePending = true →
      s'.initState = .ready → exec (.iaTxIrq slot) s' = .next (clearTxFlag (completeWith q call s')) := by
  obtain ⟨_, _, h⟩ := onHardwareComplete_answers hb ht
  obtain ⟨q, call, hcomplete⟩ := onHardwareComplete_reads h
  exact ⟨q, call, fun slot s' hcfg htx hpending hready =>
    exec_iaTxIrq_of_ok hpending hready (hcomplete s' hcfg htx)⟩

/-- `IA.RX_IRQ` reads the parameters, `init_state`, the reception that ENV keeps, the draw counter and the receive queue
(R249). -/
theorem exec_iaRxIrq_reads (hb : BufferInv s.cfg.cntW s.rx.rb) (slot : Slot) :
    ∃ q n, ∀ s' : State, s'.cfg = s.cfg → s'.rx = s.rx →
      completedWords s'.env (fitSlot s.cfg slot) = completedWords s.env (fitSlot s.cfg slot) →
      s'.freeCount = s.freeCount → s'.env.rxCompletePending = true → s'.initState = .ready →
      exec (.iaRxIrq slot) s' = .next (clearRxFlag (receiveWith slot q n s')) := by
  obtain ⟨w, n, hwords⟩ := hardwareReceiveWords_reads (fitSlot s.cfg slot) s
  obtain ⟨_, q, hframe⟩ := onFrameReceived_reads hb w (fitSlot s.cfg slot)
  refine ⟨q, n, fun s' hcfg hrx hcompleted hfree hpending hready => ?_⟩
  rw [← hcfg] at hwords hframe hcompleted
  exact exec_iaRxIrq_of_ok hpending hready (hwords s' hcompleted hfree) (hframe _ rfl hrx)

end handlers

/-- Settles O35: both are the one transmit-complete, which writes no response. -/
theorem txIrqCompletesThenClears : Obligations.TxIrqCompletesThenClears := by
  intro slot s hpending hready hb ht
  obtain ⟨st, t, h⟩ := onHardwareComplete_answers hb ht
  refine ⟨_, _, exec_txOnComplete_of_ok h, exec_iaTxIrq_of_ok hpending hready h, ?_⟩
  obtain ⟨_, _, _, _, _, -, rfl⟩ := onHardwareComplete_writes h
  rfl

/-- Settles O36: the handler makes the call and stores its words, as the two operations by themselves do. -/
theorem rxIrqStoresThenClears : Obligations.RxIrqStoresThenClears := by
  intro slot s hpending hready hb
  obtain ⟨w, n, hwords⟩ := hardwareReceiveWords_reads (fitSlot s.cfg slot) s
  obtain ⟨st, q, hframe⟩ := onFrameReceived_reads hb w (fitSlot s.cfg slot)
  have hcall := hwords s rfl rfl
  exact ⟨w, _, _, _, exec_hwReceiveWords_of_eq hcall, rfl, exec_rxOnFrame_of_ok (hframe _ rfl rfl),
    exec_iaRxIrq_of_ok hpending hready hcall (hframe _ rfl rfl), rfl⟩

/-- Settles O54: each handler does the same after the other, and the calls come in the other order. -/
theorem handlersCommute : Obligations.HandlersCommute := by
  intro s hready htx hrx hbt hbr ht
  obtain ⟨q, call, htxIrq⟩ := exec_iaTxIrq_reads hbt ht
  obtain ⟨q', n, hrxIrq⟩ := exec_iaRxIrq_reads hbr s.env.rxCompleteSlot
  have hafterTx : exec (.iaRxIrq s.env.rxCompleteSlot) (clearTxFlag (completeWith q call s)) =
      .next (clearRxFlag (receiveWith s.env.rxCompleteSlot q' n (clearTxFlag (completeWith q call s)))) := by
    cases call <;> exact hrxIrq _ rfl rfl rfl rfl hrx hready
  refine ⟨_, _, _, _, htxIrq _ s rfl rfl htx hready, hafterTx, hrxIrq s rfl rfl rfl rfl hrx hready,
    htxIrq _ _ rfl rfl htx hready, ?state, ?calls⟩
  case state => cases call <;> rfl
  case calls =>
    simp only [clearTxFlag_trace, clearRxFlag_trace, clearTxFlag_cfg, completeWith_cfg, completeWith_trace, receiveWith,
      List.append_assoc]
    exact List.perm_append_comm.append_left s.trace

end Sys2Proof.Machine
end

section
/-! PROOF. O30, O37: what a block that is not `Ready`, or has no cause to service, does (R33, R265, R271). -/

namespace Sys2Proof.Machine

/-- Settles O30: each of the five tests `init_state` before anything else. -/
theorem notInitialisedBeforeAnythingElse : Obligations.NotInitialisedBeforeAnythingElse := by
  intro i s hinit hi
  have hnot : ¬ isReady s = true := mt (isReady_iff s).mp hinit
  obtain ⟨f, rfl⟩ | rfl | rfl | rfl | rfl := hi
  all_goals exact if_neg hnot

/-- Settles O37: each adapter operation tests its cause, and a cause is due only while the block is `Ready`. -/
theorem causeNotServiced : Obligations.CauseNotServiced := by
  intro slot s
  refine ⟨fun htx => ?_, fun hrx => ?_, fun hinit => ?_⟩
  · exact if_neg (mt (txCauseDue_iff s).mp htx)
  · exact if_neg (mt (rxCauseDue_iff s).mp hrx)
  · have htx : ¬ txCauseDue s = true := fun hdue => hinit ((txCauseDue_iff s).mp hdue).right
    have hrx : ¬ rxCauseDue s = true := fun hdue => hinit ((rxCauseDue_iff s).mp hdue).right
    rw [interruptDue, if_neg htx, if_neg hrx]

end Sys2Proof.Machine
end

section
/-! PROOF. O47: progress. Every operation that the block's own ports present or raise answers a next state where the queues
meet their invariant (R260, R282); of the other inputs only an event of ENV can be refused (R244). -/

namespace Sys2Proof.Machine

section operations

variable {s : State}

/-- The three operations that answer with a counter read no buffer (R200, R223, R224). -/
theorem countAnswer_answers (s : State) (n : Nat) :
    ∃ t, (if isReady s then .next (respondCount s n) else .next (respond s .notInitialised .none) :
      Host.Outcome State Fault Refusal) = .next t := by
  split
  · exact ⟨_, rfl⟩
  · exact ⟨_, rfl⟩

variable (h : s.initState = .ready → QueuesInv s.cfg s.tx s.rx)
include h

/-- `TX.ENQUEUE` answers in every `init_state`: accepted, refused or `NotInitialised` (R191). -/
theorem exec_txEnqueue_answers (f : CanFrame) : ∃ t, exec (.txEnqueue f) s = .next t := by
  by_cases hready : s.initState = .ready
  · obtain ⟨-, hbt, -⟩ := h hready
    by_cases hfull : s.tx.rb.used = s.tx.rb.capacity
    · exact ⟨_, exec_txEnqueue_full hready hfull⟩
    · obtain ⟨t, ht, -⟩ := enqueueAccepted f s hready hbt hfull
      exact ⟨t, ht⟩
  · exact ⟨_, notInitialisedBeforeAnythingElse _ s hready (.inl ⟨f, rfl⟩)⟩

/-- `RX.DEQUEUE` answers in every `init_state`: a frame, `Empty` or `NotInitialised` (R222). -/
theorem exec_rxDequeue_answers : ∃ t, exec .rxDequeue s = .next t := by
  by_cases hready : s.initState = .ready
  · obtain ⟨-, -, hbr, -, hr⟩ := h hready
    obtain ⟨t, ht, -⟩ := ReceiveReady.dequeue ⟨hready, hbr, hr⟩
    exact ⟨t, ht⟩
  · exact ⟨_, notInitialisedBeforeAnythingElse _ s hready (.inr (.inr (.inl rfl)))⟩

/-- `IA.TX_IRQ` services its cause or does nothing (R248). -/
theorem exec_iaTxIrq_answers (slot : Slot) : ∃ t, exec (.iaTxIrq slot) s = .next t := by
  by_cases hdue : s.env.txCompletePending = true ∧ s.initState = .ready
  · obtain ⟨hpending, hready⟩ := hdue
    obtain ⟨-, hbt, -, ht, -⟩ := h hready
    obtain ⟨_, _, hcomplete⟩ := onHardwareComplete_answers hbt ht
    exact ⟨_, exec_iaTxIrq_of_ok hpending hready hcomplete⟩
  · obtain ⟨hnothing, -, -⟩ := causeNotServiced slot s
    exact ⟨s, hnothing hdue⟩

/-- `IA.RX_IRQ` services its cause or does nothing (R249). -/
theorem exec_iaRxIrq_answers (slot : Slot) : ∃ t, exec (.iaRxIrq slot) s = .next t := by
  by_cases hdue : s.env.rxCompletePending = true ∧ s.initState = .ready
  · obtain ⟨hpending, hready⟩ := hdue
    obtain ⟨-, -, hbr, -⟩ := h hready
    obtain ⟨_, _, hserve⟩ := exec_iaRxIrq_reads hbr slot
    exact ⟨_, hserve s rfl rfl rfl rfl hpending hready⟩
  · obtain ⟨-, hnothing, -⟩ := causeNotServiced slot s
    exact ⟨s, hnothing hdue⟩

/-- No operation of the block's own ports stops where the queues of a `Ready` block meet their invariant. -/
theorem exec_queueOperation_answers {i : Instr} (hi : isQueueOperation i = true) : ∃ t, exec i s = .next t := by
  cases i with
  | txEnqueue f => exact exec_txEnqueue_answers h f
  | txOverflowCount => exact countAnswer_answers s _
  | rxDequeue => exact exec_rxDequeue_answers h
  | rxPendingCount => exact countAnswer_answers s _
  | rxOverflowCount => exact countAnswer_answers s _
  | iaTxIrq slot => exact exec_iaTxIrq_answers h slot
  | iaRxIrq slot => exact exec_iaRxIrq_answers h slot
  | _ => cases hi

end operations

/-- Settles O47, by what a step of a block driven by its own ports can be. -/
theorem stepNeverStops : Obligations.StepNeverStops := by
  intro s hinv
  obtain ⟨-, hbench, hqueues⟩ := hinv
  obtain ⟨i, hdue, he⟩ | ⟨hdue, ⟨-, he⟩ | ⟨op, frame, rest, i, -, hf, he⟩ | ⟨op, frame, rest, -, -, he⟩ |
    ⟨rest, -, he⟩ | ⟨event, rest, hi, he⟩⟩ := step_cases hbench
  · rw [he]
    exact .inl (exec_queueOperation_answers hqueues (interruptDue_isQueueOperation hdue))
  · exact .inl ⟨_, he⟩
  · rw [he]
    obtain ⟨-, rfl⟩ | hq := decodeForeground_isQueueOperation hf
    · exact .inl ⟨_, rfl⟩
    · exact .inl (exec_queueOperation_answers (s := takeInput s rest) hqueues hq)
  · exact .inl ⟨_, he⟩
  · exact .inl ⟨_, he⟩
  · obtain ⟨-, hn⟩ | ⟨hpending, -⟩ := envInput_cases event (takeInput s rest)
    · exact .inl ⟨_, he.trans hn⟩
    · exact .inr ⟨hdue, event, rest, hi, hpending⟩

end Sys2Proof.Machine
end

section
/-! PROOF. O1, O2, O3: `SYS.INIT`, as an operation and as what the reset input performs, against the values of R55
(R300, R301, R302). -/

namespace Sys2Proof.Machine

/-- The capacities of a build that R301 accepts, as the statements write them (R21, R131). -/
abbrev LegalBuild (cfg : Config) : Prop :=
  cfg.txCapacity ≠ 0 ∧ cfg.txCapacity % 16 = 0 ∧ cfg.rxCapacity ≠ 0 ∧ cfg.rxCapacity % 16 = 0

/-- The values of R55 for the block's elements, as the statements write them. -/
abbrev ResetValues (cfg : Config) (t : State) : Prop :=
  t.tx.rb.capacity = cfg.txCapacity ∧ t.tx.rb.used = 0 ∧ t.tx.rb.head = 0 ∧ t.tx.rb.tail = 0 ∧
  t.tx.rb.overflowCount = 0 ∧ t.tx.txState = .idle ∧
  t.rx.rb.capacity = cfg.rxCapacity ∧ t.rx.rb.used = 0 ∧ t.rx.rb.head = 0 ∧ t.rx.rb.tail = 0 ∧
  t.rx.rb.overflowCount = 0 ∧ t.rx.pendingCount = 0 ∧ t.initState = .ready

/-- Both ring buffers accept their capacities exactly when the build is legal. -/
theorem legalCapacity_both_iff (cfg : Config) :
    legalCapacity cfg.txCapacity = true ∧ legalCapacity cfg.rxCapacity = true ↔ LegalBuild cfg := by
  rw [legalCapacity_iff, legalCapacity_iff, Nat.dvd_iff_mod_eq_zero, Nat.dvd_iff_mod_eq_zero, and_assoc]

theorem initBlock_of_legal {s : State} (h : LegalBuild s.cfg) :
    (initBlock s).1 = .ok ∧ ResetValues s.cfg (initBlock s).2 := by
  obtain ⟨-, -, hi⟩ | ⟨hnot, -⟩ := initBlock_cases s
  · rw [hi]
    exact ⟨rfl, rfl, rfl, rfl, rfl, rfl, rfl, rfl, rfl, rfl, rfl, rfl, rfl, rfl⟩
  · exact absurd ((legalCapacity_both_iff s.cfg).mpr h) hnot

theorem initBlock_of_illegal {s : State} (h : ¬ LegalBuild s.cfg) :
    (initBlock s).1 = .capacityError ∧ (initBlock s).2.initState = .failed := by
  obtain ⟨htx, hrx, -⟩ | ⟨-, hi⟩ := initBlock_cases s
  · exact absurd ((legalCapacity_both_iff s.cfg).mp ⟨htx, hrx⟩) h
  · rw [hi]
    exact ⟨rfl, rfl⟩

/-- What `SYS.INIT` leaves alone, with either result (R301, R303). -/
theorem initBlock_frame (s : State) :
    (initBlock s).2.cfg = s.cfg ∧ (initBlock s).2.env = s.env ∧ (initBlock s).2.trace = s.trace ∧
      (initBlock s).2.inputs = s.inputs := by
  rw [initBlock_state]
  exact ⟨rfl, rfl, rfl, rfl⟩

/-- The reset input is no operation: where no cause is due, the step performs it (R300). -/
theorem step_of_reset {s : State} {rest : List Input} (hd : interruptDue s = none) (hi : s.inputs = .reset :: rest) :
    step s = .next (resetInput (takeInput s rest)) := by
  have hnone : nextOperation s = none := by simp only [nextOperation, hd, hi]
  rw [step_of_none hnone]
  simp only [otherInput, hi]

/-- Settles O1: the step is the initialisation of the block, with the reset taken from the inputs. -/
theorem resetInputInitialises : Obligations.ResetInputInitialises := by
  intro s rest hi hd
  obtain ⟨hcfg, henv, htrace, hinputs⟩ := initBlock_frame (takeInput s rest)
  refine ⟨_, step_of_reset hd hi, hcfg, henv, htrace, hinputs, fun hlegal => ?_, fun hillegal => ?_⟩
  · exact (initBlock_of_legal (s := takeInput s rest) hlegal).right
  · exact (initBlock_of_illegal (s := takeInput s rest) hillegal).right

/-- Settles O2: the result of the initialisation is the response. -/
theorem sysInitConstructsBothQueues : Obligations.SysInitConstructsBothQueues := by
  intro s
  obtain ⟨hcfg, henv, htrace, hinputs⟩ := initBlock_frame s
  refine ⟨_, rfl, hcfg, henv, htrace, hinputs, fun hlegal => ?_, fun hillegal => ?_⟩
  · obtain ⟨hstatus, hvalues⟩ := initBlock_of_legal hlegal
    exact ⟨by rw [respond_response, hstatus], hvalues⟩
  · obtain ⟨hstatus, hfailed⟩ := initBlock_of_illegal hillegal
    exact ⟨by rw [respond_response, hstatus], hfailed⟩

/-- ENV is quiet after reset, so neither cause is due (R303). -/
theorem interruptDue_resetOf (cfg : Config) : interruptDue (State.resetOf cfg) = none := by
  have htx : ¬ txCauseDue (State.resetOf cfg) = true := fun hdue => nomatch ((txCauseDue_iff _).mp hdue).left
  have hrx : ¬ rxCauseDue (State.resetOf cfg) = true := fun hdue => nomatch ((rxCauseDue_iff _).mp hdue).left
  rw [interruptDue, if_neg htx, if_neg hrx]

/-- Settles O3: both buffers are empty, each of the capacity of its build, and no cause is due. -/
theorem resetStateValues : Obligations.ResetStateValues := by
  intro cfg _ _ _ _
  exact ⟨rfl, rfl, rfl, rfl, rfl, rfl, rfl, rfl, rfl, rfl, rfl, rfl, rfl, rfl, interruptDue_resetOf cfg⟩

end Sys2Proof.Machine
end
